-- ==== Sys2Proof/Word.lean ====
section
/-! DEFINITION. The words the block's state and transactions are made of (10_state.md R20, 30_encoding.md R80). -/

namespace Sys2Proof

/-- A transaction word (R80), a debug word (R63), or a millisecond count held zero-extended (R24). -/
abbrev Word := BitVec 32

/-- One byte of the framebuffer (R61). -/
abbrev Byte := BitVec 8

/-- One 12-bit sample, in [0, ADC_MAX] by its width (R31). -/
abbrev Sample := BitVec 12

/-- One 16-bit duty value (R34, R35). -/
abbrev Duty := BitVec 16

/-- A debug word address (R63). -/
abbrev DebugAddr := BitVec 10

/-- The two button lines (R122): line 0 is the joystick button, line 1 the action button. -/
inductive Line where
  | line0
  | line1
deriving DecidableEq, Repr

end Sys2Proof
end

