-- ==== Sys2Proof/Config.lean ====
section
/-! DEFINITION. What an instantiation fixes (00_scope.md R5) and the values the spec leaves free. -/

namespace Sys2Proof

/-- The elaboration-time parameters of R5. They are plain numbers here, so that an instantiation outside the
legal ranges can be written down and refused (R311). Log entry 1. -/
structure Config where
  /-- `CENTER` -/
  center : Nat
  /-- `DEADZONE` -/
  deadzone : Nat
  /-- `WRAP` -/
  wrap : Nat
  /-- `TS_WIDTH` -/
  tsWidth : Nat
  /-- `RESET_LEDS_ENABLED`, OPEN (D7) -/
  resetLeds : Bool
  /-- `RESET_BORDER_VISIBLE`, OPEN (D7) -/
  resetBorder : Bool
  /-- `CLK_HZ`; no rule depends on it (R5) -/
  clkHz : Nat
deriving DecidableEq, Repr

/-- The values 95_test_vectors.md uses in its examples (the column "example value" of R5).
DESIGN CHOICE: only `State.reset` uses them; log entry 1. -/
def Config.example : Config where
  center := 2048
  deadzone := 200
  wrap := 4095
  tsWidth := 32
  resetLeds := true
  resetBorder := false
  clkHz := 1000000

/-- The pair a `SAMPLE` draws before the first `ADC` transaction: any pair of 12-bit values, a new one at each
read (R33, R41). A free value: nothing is known of it. Log entry 6. -/
opaque Config.adcDraw : Nat → Sample × Sample

/-- Whether the diagnostic sink takes a record: delivered or lost (R270, D25). A free value. Log entry 7. -/
opaque Config.diagDelivered : Nat → Bool

end Sys2Proof
end

