-- ==== Sys2Proof/Syntax.lean ====
section
/-! DEFINITION. The instructions: one constructor per row of spec/opcode_table.json. -/

namespace Sys2Proof

/-- The five transactions of a run (TXN32, 30_encoding.md R81) and the ten micro-ops of the sequencer's ROM
(UOP4, R88). Every operand has exactly the width of its field, so no operand value is illegal (R82 to R86).
A run's words are transactions only; a micro-op is performed by `STEP` and never named by a run (R89). -/
inductive Instr where
  /-- `LEVEL l, v`: the synchronised level of line `l` becomes `v`, true for high (R82, R121) -/
  | level (l : Line) (v : Bool)
  /-- `TICK n`: `n` milliseconds pass (R83, R128) -/
  | tick (n : BitVec 16)
  /-- `ADC x, y`: the analog source presents a pair (R84, R264) -/
  | adc (x y : Sample)
  /-- `STEP`: the sequencer performs its next micro-op, or waits (R85, R261) -/
  | step
  /-- `READ a`: read a debug word (R86, R290) -/
  | read (a : DebugAddr)
  /-- micro-op 0x0 (R263) -/
  | sample
  /-- micro-op 0x1 (R168) -/
  | duty
  /-- micro-op 0x2 (R169) -/
  | coord
  /-- micro-op 0x3 (R221) -/
  | fbClear
  /-- micro-op 0x4 (R225) -/
  | fbBorder
  /-- micro-op 0x5 (R229) -/
  | fbCursor
  /-- micro-op 0x6 (R234) -/
  | fbFlush
  /-- micro-op 0x7 (R201) -/
  | apply
  /-- micro-op 0x8 (R270) -/
  | diag
  /-- micro-op 0x9 (R265) -/
  | sleep
deriving DecidableEq, Repr

end Sys2Proof
end

