-- ==== Sys2Proof/Decode.lean ====
section
/-! DEFINITION. The two encoding spaces of 30_encoding.md, decoded and encoded: the 32-bit transaction word
(R80 to R87, R90) and the 4-bit micro-op code (R88, R89). -/

namespace Sys2Proof

/-- Why a word or a code is not an instruction. -/
inductive Reject where
  /-- the operation field is 0x0 or in 0x6 to 0xF (R87) -/
  | rsvdOp
  /-- a reserved bit of the operation's layout is 1 (R87) -/
  | rsvdBits
  /-- a micro-op code in 0xA to 0xF, which the ROM does not contain (R89) -/
  | unusedUop
deriving DecidableEq, Repr

/-- An encoded instruction: a transaction word (TXN32) or a micro-op code (UOP4). -/
inductive Code where
  | txn32 (w : Word)
  | uop4 (c : BitVec 4)
deriving DecidableEq, Repr

/-- The line a one-bit line number names (R82, R122). -/
def lineOfBit (b : Bool) : Line := if b then .line1 else .line0

/-- The number of a line as one bit (R82, R122). -/
def bitOfLine : Line → Bool
  | .line0 => false
  | .line1 => true

/-- The operation field `w[31:28]` (R80). -/
def opField (w : Word) : BitVec 4 := w.extractLsb' 28 4

/-- `LEVEL`'s reserved bits 27:9 and 7:1 (R82). -/
def levelReserved : Word := 0x0FFFFEFE
/-- `TICK`'s reserved bits 27:16 (R83). -/
def tickReserved : Word := 0x0FFF0000
/-- `ADC`'s reserved bits 27:24 (R84). -/
def adcReserved : Word := 0x0F000000
/-- `STEP`'s reserved bits 27:0 (R85). -/
def stepReserved : Word := 0x0FFFFFFF
/-- `READ`'s reserved bits 27:10 (R86). -/
def readReserved : Word := 0x0FFFFC00

/-- The instruction `i` where the word's reserved bits are 0, else RSVD_BITS (R87). -/
def unlessReserved (w reserved : Word) (i : Instr) : Except Reject Instr :=
  if w &&& reserved = 0 then .ok i else .error .rsvdBits

/-- `decode(w)` of R90: the operation field is checked first, the reserved bits second (R316). -/
def decodeWord (w : Word) : Except Reject Instr :=
  match (opField w).toNat with
  | 1 => unlessReserved w levelReserved (.level (lineOfBit (w.getLsbD 8)) (w.getLsbD 0))
  | 2 => unlessReserved w tickReserved (.tick (w.extractLsb' 0 16))
  | 3 => unlessReserved w adcReserved (.adc (w.extractLsb' 12 12) (w.extractLsb' 0 12))
  | 4 => unlessReserved w stepReserved .step
  | 5 => unlessReserved w readReserved (.read (w.extractLsb' 0 10))
  | _ => .error .rsvdOp

/-- The micro-op a code names (R88); 0xA to 0xF name none (R89). -/
def decodeUop (c : BitVec 4) : Except Reject Instr :=
  match c.toNat with
  | 0 => .ok .sample
  | 1 => .ok .duty
  | 2 => .ok .coord
  | 3 => .ok .fbClear
  | 4 => .ok .fbBorder
  | 5 => .ok .fbCursor
  | 6 => .ok .fbFlush
  | 7 => .ok .apply
  | 8 => .ok .diag
  | 9 => .ok .sleep
  | _ => .error .unusedUop

/-- Decoding, total on both encoding spaces. -/
def decode : Code → Except Reject Instr
  | .txn32 w => decodeWord w
  | .uop4 c => decodeUop c

/-- The encoding of an instruction: the layouts of R82 to R86, most significant field first, and the codes of R88. -/
def encode : Instr → Code
  | .level l v => .txn32 (0x1#4 ++ 0#19 ++ BitVec.ofBool (bitOfLine l) ++ 0#7 ++ BitVec.ofBool v)
  | .tick n => .txn32 (0x2#4 ++ 0#12 ++ n)
  | .adc x y => .txn32 (0x3#4 ++ 0#4 ++ x ++ y)
  | .step => .txn32 (0x4#4 ++ 0#28)
  | .read a => .txn32 (0x5#4 ++ 0#18 ++ a)
  | .sample => .uop4 0x0
  | .duty => .uop4 0x1
  | .coord => .uop4 0x2
  | .fbClear => .uop4 0x3
  | .fbBorder => .uop4 0x4
  | .fbCursor => .uop4 0x5
  | .fbFlush => .uop4 0x6
  | .apply => .uop4 0x7
  | .diag => .uop4 0x8
  | .sleep => .uop4 0x9

/-- The sequencer's ROM (R88): `ROM[i] = i` for `i` in [0, 9]. -/
def romTable : List (BitVec 4) := [0, 1, 2, 3, 4, 5, 6, 7, 8, 9]

/-- `ROM[upc]`; the ROM has no entry at 10 to 15 (R38, R89). -/
def rom (upc : BitVec 4) : Option (BitVec 4) := romTable[upc.toNat]?

/-- The instruction that the bits `w` of an opcode-table row stand for: a row of at most one byte is a micro-op
code (UOP4, 4 bits, none above them), a longer one a transaction word (TXN32). Log entry 13. -/
def decodeTableWord (nbits w : Nat) : Option Instr :=
  if nbits ≤ 8 then
    if w < 16 then (decodeUop (BitVec.ofNat 4 w)).toOption else none
  else
    if w < 4294967296 then (decodeWord (BitVec.ofNat 32 w)).toOption else none

end Sys2Proof
end

