-- ==== Sys2Proof/Machine/State.lean ====
section
/-! DEFINITION. The state of the block (10_state.md R20), its environment and its output record, the reasons a step
can stop, and the state after power-on reset (R41). -/

namespace Sys2Proof.Machine

/-- The framebuffer RAM (R37): its listed bytes, by the byte index of R61, addresses strictly rising, none of them
equal to what an unlisted byte reads as. -/
abbrev Memory := List Host.Cell

/-- One output event (R11). -/
inductive Event where
  /-- `FRAME(bytes)`, a flushed frame (R234) -/
  | frame (bytes : List Byte)
  /-- `DIAG(record)`, the 56-bit diagnostic record (R270) -/
  | diag (data : BitVec 56)
  /-- `RDATA(addr, value)`, a debug read's answer (R290) -/
  | rdata (addr : DebugAddr) (value : Word)
deriving DecidableEq, Repr

/-- What the block's input pins carry in one clock (R21), and which of the agents act in it. -/
structure ClockIn where
  /-- `rst` -/
  rst : Bool
  /-- `ms_tick` -/
  msTick : Bool
  /-- `btn_n[0]`, as `sync1[0]` captures it (R353, R361) -/
  btn0 : Bool
  /-- `btn_n[1]`, as `sync1[1]` captures it (R353, R361) -/
  btn1 : Bool
  /-- `adc_x` -/
  adcX : Sample
  /-- `adc_y` -/
  adcY : Sample
  /-- the sequencer is asked to step; it ignores this while a micro-op is in progress (R352) -/
  seqStep : Bool
  /-- how many clocks a micro-op that begins in this clock takes, within the bounds of R358 (log entry 11) -/
  opClocks : Nat
  /-- `dbg_addr` where `dbg_req` is 1 in this clock, which is one request; `dbg_req` held at 1 over several clocks is a
  new request in each of them (DESIGN CHOICE, log entry 17; R21, R290, R294) -/
  dbgReq : Option DebugAddr
deriving DecidableEq, Repr

/-- One thing the outside does to the machine: a transaction word (R7), a reset (R340), or one clock of the clocked
hardware (R350, R351). -/
inductive Input where
  | txn (w : Word)
  | reset
  | clock (c : ClockIn)
deriving DecidableEq, Repr

/-- One debounce channel (R120) with the RTL synchroniser in front of it (R26). -/
@[ext]
structure Channel where
  /-- `lvl[l]`: the last synchronised level, true for high (R25) -/
  lvl : Bool
  /-- `last_ts[l]`: the time of the last accepted edge (R27) -/
  lastTs : Word
  /-- `sync1[l]` (R26; no transaction reads or writes it) -/
  sync1 : Bool
  /-- `sync2[l]` (R26; no transaction reads or writes it) -/
  sync2 : Bool
deriving DecidableEq, Repr

/-- A micro-op of several clocks after its first one (R352). Its flag is the one of its first clock; the samples, the
cursor and the framebuffer it reads have no other writer and stay where they are. -/
structure MicroOp where
  /-- how many clocks it takes -/
  total : Nat
  /-- how many of them are over -/
  done : Nat
  /-- `leds_enabled` as it was in the first clock -/
  leds : Bool
  /-- `border_visible` as it was in the first clock -/
  border : Bool
deriving DecidableEq, Repr

/-- The state. The fields down to `sleepCnt` are R20's; `adcIn`, `out` and `refusedMark` are the environment value
and the run's record (R33, R43, R310); `inProgress` and `waiting` belong to the clocked hardware only (R352, R294, log
entries 11 and 17); `cfg` holds the constants of the instantiation (R40, log entry 1); `inputs` and `draws` are the
model's own (log entries 2 and 6). -/
@[ext]
structure State where
  /-- `now_ms`, TS_WIDTH bits held zero-extended (R24, log entry 10) -/
  nowMs : Word
  /-- the joystick-button channel (R122) -/
  line0 : Channel
  /-- the action-button channel (R122) -/
  line1 : Channel
  /-- `leds_enabled` (R28) -/
  ledsEnabled : Bool
  /-- `border_visible` (R29) -/
  borderVisible : Bool
  /-- `smp_x` (R31) -/
  smpX : Sample
  /-- `smp_y` (R31) -/
  smpY : Sample
  /-- `duty_next[0]` (R34) -/
  dutyNext0 : Duty
  /-- `duty_next[1]` (R34) -/
  dutyNext1 : Duty
  /-- `duty_out[0]` (R35) -/
  dutyOut0 : Duty
  /-- `duty_out[1]` (R35) -/
  dutyOut1 : Duty
  /-- `cur_x` (R36) -/
  curX : BitVec 7
  /-- `cur_y` (R36) -/
  curY : BitVec 6
  /-- `fb` (R37) -/
  fb : Memory
  /-- `upc`, the sequencer's micro-program counter (R38) -/
  upc : BitVec 4
  /-- `sleeping` (R39) -/
  sleeping : Bool
  /-- `sleep_cnt` (R39) -/
  sleepCnt : BitVec 7
  /-- `ADCIn()`; `none` before the first `ADC` transaction, when each read is a draw (R33) -/
  adcIn : Option (Sample × Sample)
  /-- the output record, oldest event first (R43) -/
  out : List Event
  /-- the run's refused mark: the reason of its first refused word (R310) -/
  refusedMark : Option Reject
  /-- the micro-op at `upc` that has begun in an earlier clock and not completed (R352) -/
  inProgress : Option MicroOp
  /-- debug requests that have arrived and are not answered, oldest first (R294) -/
  waiting : List DebugAddr
  /-- the parameters of the instantiation (R5, R40) -/
  cfg : Config
  /-- the rest of the run, first to come first -/
  inputs : List Input
  /-- the number of free values drawn so far -/
  draws : Nat
deriving DecidableEq, Repr

/-- Why the machine stops with a fault. -/
inductive Fault where
  /-- Raised by `STEP` when `upc` is 10 to 15, where the ROM has no entry and the spec gives no effect: "Values 10 to
  15 are never reached" (R38). Safe: the model stops where the spec says no run goes (log entry 8). -/
  | upcOutsideRom
deriving DecidableEq, Repr

/-- Why a step is refused. -/
inductive Refusal where
  /-- Raised by `exec` for an instruction without a meaning; no arm does. Safe. -/
  | notModelled (mnemonic : String)
  /-- Raised by `step` for an instantiation whose parameters break R5: CFG_INVALID, "the instantiation does not
  exist; no run" (R310, R311). Safe. -/
  | cfgInvalid
deriving DecidableEq, Repr

/-- A debounce channel after reset: released, never accepted an edge, synchroniser high (R41). -/
def Channel.reset : Channel where
  lvl := true
  lastTs := 0
  sync1 := true
  sync2 := true

/-- The instantiation `c` right after power-on reset, its framebuffer powered on with the contents `fb`, which are
unspecified (R41): statements about power-on hold for every `fb`. -/
def State.powerOn (c : Config) (fb : Memory) : State where
  nowMs := 0
  line0 := Channel.reset
  line1 := Channel.reset
  ledsEnabled := c.resetLeds
  borderVisible := c.resetBorder
  smpX := 0
  smpY := 0
  dutyNext0 := 0
  dutyNext1 := 0
  dutyOut0 := 0
  dutyOut1 := 0
  curX := 0
  curY := 0
  fb := fb
  upc := 0
  sleeping := false
  sleepCnt := 0
  adcIn := none
  out := []
  refusedMark := none
  inProgress := none
  waiting := []
  cfg := c
  inputs := []
  draws := 0

/-- The machine right after power-on reset, with the example parameters (log entry 1) and nothing listed in the
framebuffer (log entry 5). -/
def State.reset : State := State.powerOn Config.example []

end Sys2Proof.Machine
end

