-- ==== Sys2Proof/Machine/Ops.lean ====
section
/-! DEFINITION. The named operations over the state: the configuration check, the framebuffer RAM, the output record,
the timebase, taking an edge, and reset. -/

namespace Sys2Proof.Machine

/-- What a meaning answers. -/
abbrev Result := Host.Outcome State Fault Refusal

/-- Go on with `f` from the next state; a stop stays a stop. -/
def andThen (r : Result) (f : State → Result) : Result :=
  match r with
  | .next s => f s
  | .fault e => .fault e
  | .refused e => .refused e

/-! ### Constants (R6) -/

/-- `DEBOUNCE_MS` -/
abbrev debounceMs : Nat := 250
/-- `SLEEP_MS` -/
abbrev sleepMs : Nat := 100
/-- `ADC_MAX` -/
abbrev adcMax : Nat := 4095
/-- `FB_W` -/
abbrev fbWidth : Nat := 128
/-- `FB_H` -/
abbrev fbHeight : Nat := 64
/-- the number of framebuffer bytes (R61) -/
abbrev fbBytes : Nat := 1024

/-! ### The configuration check (R5, R311) -/

/-- `0 < DEADZONE < CENTER < 4095 - DEADZONE`, with `WRAP` and `TS_WIDTH` in the ranges of R5. -/
def configValid (c : Config) : Bool :=
  0 < c.deadzone && c.deadzone < c.center && c.center + c.deadzone < adcMax &&
    c.wrap ≤ 65535 && 9 ≤ c.tsWidth && c.tsWidth ≤ 32

/-- Elaboration: an instantiation that fails the check does not exist (R311). -/
def instantiate (c : Config) (fb : Memory) : Result :=
  if configValid c then .next (State.powerOn c fb) else .refused .cfgInvalid

/-! ### The framebuffer RAM (R37, R60, R61) -/

/-- What a byte that is not listed reads as. After power-on the spec leaves it open (R41).
DESIGN CHOICE, unsafe: log entry 5. After `FB_CLEAR` it is the spec's (R221). -/
abbrev Memory.unlisted : Byte := 0

/-- Byte `b` of the framebuffer. -/
def Memory.readByte : Memory → Nat → Byte
  | [], _ => Memory.unlisted
  | (a, v) :: m, b => if a = b then v else Memory.readByte m b

/-- Write byte `b`, keeping the canonical form. -/
def Memory.writeByte : Memory → Nat → Byte → Memory
  | [], b, v => if v = Memory.unlisted then [] else [(b, v)]
  | (a, u) :: m, b, v =>
    if a < b then (a, u) :: Memory.writeByte m b v
    else
      let rest := if a = b then m else (a, u) :: m
      if v = Memory.unlisted then rest else (b, v) :: rest

/-- Addresses rise strictly from `lo` on and stay inside the framebuffer, and no entry repeats what an unlisted byte
reads as. -/
def Memory.wfFrom : Nat → Memory → Bool
  | _, [] => true
  | lo, (a, v) :: m => lo ≤ a && a < fbBytes && v != Memory.unlisted && Memory.wfFrom (a + 1) m

/-- The canonical form: equal framebuffers are equal lists. -/
def Memory.wf (m : Memory) : Bool := Memory.wfFrom 0 m

/-- The byte that holds `pix(x, y)` (R61). -/
def byteIndex (x y : Nat) : Nat := y / 8 * fbWidth + x

/-- The bit of that byte (R61). -/
def bitIndex (y : Nat) : Nat := y % 8

/-- `pix(x, y)` (R60, R61), true for on. -/
def Memory.pix (m : Memory) (x y : Nat) : Bool :=
  (Memory.readByte m (byteIndex x y)).getLsbD (bitIndex y)

/-- `0 ≤ x ≤ 127` and `0 ≤ y ≤ 63` (R10). -/
def inCanvas (x y : Nat) : Bool := x < fbWidth && y < fbHeight

/-- `SetPix(x, y)` (R10): writes 1 to the pixel, and does nothing outside the canvas. -/
def Memory.setPix (m : Memory) (x y : Nat) : Memory :=
  if inCanvas x y then
    Memory.writeByte m (byteIndex x y) (Memory.readByte m (byteIndex x y) ||| BitVec.twoPow 8 (bitIndex y))
  else m

/-- `SetPix` of every pixel of a list, in order. -/
def Memory.setPixels (m : Memory) : List (Nat × Nat) → Memory
  | [] => m
  | (x, y) :: ps => Memory.setPixels (Memory.setPix m x y) ps

/-- Every pixel off (R221): no byte is listed. -/
def Memory.clear (_ : Memory) : Memory := []

/-- The 1024 bytes in increasing index (R62). -/
def Memory.frameBytes (m : Memory) : List Byte := (List.range fbBytes).map (Memory.readByte m)

/-! ### The output record (R11, R43) -/

/-- `Emit(event)` (R10): append to the record. -/
def State.emit (s : State) (e : Event) : State := { s with out := s.out ++ [e] }

/-- A refused word changes nothing (R312) and marks the run; the mark stays for the whole run (R310), with the
reason of the first refused word. Log entry 3. -/
def State.markRefused (s : State) (r : Reject) : State :=
  { s with refusedMark := some (s.refusedMark.getD r) }

/-! ### The debounce channels and their edge (R120 to R127, R317) -/

/-- The channel of a line. -/
def State.chan (s : State) : Line → Channel
  | .line0 => s.line0
  | .line1 => s.line1

/-- Replace the channel of a line. -/
def State.setChan (s : State) (l : Line) (c : Channel) : State :=
  match l with
  | .line0 => { s with line0 := c }
  | .line1 => { s with line1 := c }

/-- `lvl[l] <- v` (R121). -/
def State.setLvl (s : State) (l : Line) (v : Bool) : State := s.setChan l { s.chan l with lvl := v }

/-- Invert the mode flag of a line: `border_visible` for line 0, `leds_enabled` for line 1 (R122). -/
def State.toggleFlag (s : State) : Line → State
  | .line0 => { s with borderVisible := !s.borderVisible }
  | .line1 => { s with ledsEnabled := !s.ledsEnabled }

/-- Taking an accepted edge of line `l` (R125): the block's one exception entry. It saves no state, changes no mode,
masks nothing and jumps nowhere (R317), so there is no return (R318): `last_ts[l] <- now_ms`, and the flag of the
line is inverted. -/
def State.takeEdge (s : State) (l : Line) : State :=
  (s.setChan l { s.chan l with lastTs := s.nowMs }).toggleFlag l

/-! ### The timebase (R24, R128) -/

/-- `now_ms` after `n` more milliseconds, modulo 2^TS_WIDTH. -/
def State.timeAfter (s : State) (n : Nat) : Word :=
  BitVec.ofNat 32 ((s.nowMs.toNat + n) % 2 ^ s.cfg.tsWidth)

/-- `n` milliseconds at once: the closed form of R128; `n = 0` is a hold. With `n = 1` it is the loop body of R128's
pseudocode. Log entry 9. -/
def State.tickBy (s : State) (n : Nat) : State :=
  let t := { s with nowMs := s.timeAfter n }
  if s.sleeping then
    if n = 0 ∨ n < s.sleepCnt.toNat then { t with sleepCnt := s.sleepCnt - BitVec.ofNat 7 n }
    else { t with sleepCnt := 0, sleeping := false, upc := 0 }
  else t

/-! ### The sequencer (R262) -/

/-- `upc` after the micro-op `code`: micro-op 9 leaves it, the others advance it (R261, R262). -/
def State.advanceUpc (s : State) (code : BitVec 4) : State :=
  if code = 9 then s else { s with upc := s.upc + 1 }

/-! ### Reset (R41, R340) -/

/-- `rst`: every field takes its reset value; `fb`, the environment's analog value, the output record, the refused
mark, the configuration and the rest of the run stay (R41). A micro-op in progress is abandoned: it has committed
nothing (R340, R352, D17). Log entries 12 and 17. -/
def State.doReset (s : State) : State :=
  { State.powerOn s.cfg s.fb with
    adcIn := s.adcIn, out := s.out, refusedMark := s.refusedMark, inputs := s.inputs, draws := s.draws }

end Sys2Proof.Machine
end

