-- ==== Sys2Proof/Machine/Flags.lean ====
section
/-! DEFINITION. The mode flags and the debounce test that guards them (R28 to R30, R122 to R124). -/

namespace Sys2Proof.Machine

/-- The mode flag a line toggles (R122). -/
def State.flag (s : State) : Line → Bool
  | .line0 => s.borderVisible
  | .line1 => s.ledsEnabled

/-- A falling edge: the level becomes low while it was high (R123). -/
def State.fall (s : State) (l : Line) (v : Bool) : Bool := (s.chan l).lvl && !v

/-- `gap = (now_ms - last_ts[l]) mod 2^TS_WIDTH` (R124). -/
def State.gap (s : State) (l : Line) : Nat :=
  (s.nowMs - (s.chan l).lastTs).toNat % 2 ^ s.cfg.tsWidth

/-- A falling edge is accepted iff the gap is more than 250 ms; the comparison is strict (R124). -/
def State.accepts (s : State) (l : Line) (v : Bool) : Bool := s.fall l v && debounceMs < s.gap l

end Sys2Proof.Machine
end

