-- ==== Sys2Proof/Machine/Debounce.lean ====
section
/-! DEFINITION. The debounce edge detector and the timebase: LEVEL, TICK (40_debounce_edge_detector.md). -/

namespace Sys2Proof.Machine

/-- `LEVEL l, v` (R121): the test reads the state before the write. -/
def execLevel (l : Line) (v : Bool) (s : State) : Result :=
  let t := s.setLvl l v
  .next (if s.accepts l v then t.takeEdge l else t)

/-- `TICK n` (R128). -/
def execTick (n : BitVec 16) (s : State) : Result := .next (s.tickBy n.toNat)

end Sys2Proof.Machine
end

