-- ==== Sys2Proof/Machine/Operands.lean ====
section
/-! DEFINITION. Where the operands of an instruction come from: the analog input (R33) and the debug address space
(R63, R290 to R293). No instruction names a register (R23). -/

namespace Sys2Proof.Machine

/-- The pair one read of `ADCIn()` gives: the pair last presented, or a draw before the first `ADC` (R33). -/
def State.adcPair (s : State) : Sample × Sample := s.adcIn.getD (Config.adcDraw s.draws)

/-- The draws made once one read of `ADCIn()` is done. -/
def State.drawsAfterAdc (s : State) : Nat := if s.adcIn.isSome then s.draws else s.draws + 1

/-- A field of a debug word, zero-extended, with its bit 0 at bit `lo` (R291). -/
def place {n : Nat} (v : BitVec n) (lo : Nat) : Word := v.setWidth 32 <<< lo

/-- The status and configuration registers of R291; the addresses 0x00C to 0x0FF read 0 (R293). -/
def debugRegister (s : State) : Nat → Word
  | 0x000 => place (BitVec.ofBool s.ledsEnabled) 0 ||| place (BitVec.ofBool s.borderVisible) 1
  | 0x001 => s.nowMs
  | 0x002 => s.line0.lastTs
  | 0x003 => s.line1.lastTs
  | 0x004 => place (BitVec.ofBool s.line0.lvl) 0 ||| place (BitVec.ofBool s.line1.lvl) 1
  | 0x005 => place s.smpX 0 ||| place s.smpY 16
  | 0x006 => place s.dutyNext0 0 ||| place s.dutyNext1 16
  | 0x007 => place s.dutyOut0 0 ||| place s.dutyOut1 16
  | 0x008 => place s.curX 0 ||| place s.curY 8
  | 0x009 => place s.upc 0 ||| place (BitVec.ofBool s.sleeping) 4 ||| place s.sleepCnt 8
  | 0x00A => place (BitVec.ofNat 12 s.cfg.center) 0 ||| place (BitVec.ofNat 12 s.cfg.deadzone) 16
  | 0x00B => place (BitVec.ofNat 16 s.cfg.wrap) 0 ||| place (BitVec.ofNat 6 s.cfg.tsWidth) 16
  | _ => 0

/-- Word `k` of the framebuffer window: bytes `4k` to `4k + 3`, little-endian (R64, R292). -/
def fbWord (m : Memory) (k : Nat) : Word :=
  m.readByte (4 * k + 3) ++ m.readByte (4 * k + 2) ++ m.readByte (4 * k + 1) ++ m.readByte (4 * k)

/-- `MemRead(a, 4)` (R290 to R293). -/
def memRead (s : State) (a : DebugAddr) : Word :=
  if a.toNat < 0x100 then debugRegister s a.toNat
  else if a.toNat < 0x200 then fbWord s.fb (a.toNat - 0x100)
  else 0

end Sys2Proof.Machine
end

