-- ==== Sys2Proof/Machine/DebugPort.lean ====
section
/-! DEFINITION. The debug read port: READ (45_debug_port.md). -/

namespace Sys2Proof.Machine

/-- `READ a` (R290): no state is written, one event is appended. -/
def execRead (a : DebugAddr) (s : State) : Result := .next (s.emit (.rdata a (memRead s a)))

end Sys2Proof.Machine
end

