-- ==== Sys2Proof/Machine/Compositor.lean ====
section
/-! DEFINITION. The framebuffer compositor: the drawing primitives, FB_CLEAR, FB_BORDER, FB_CURSOR and FB_FLUSH
(43_framebuffer_compositor.md). A primitive is the list of the pixels it sets, in the spec's order. -/

namespace Sys2Proof.Machine

/-- `min(a, b) .. max(a, b)`, both ends included (R222). -/
def between (a b : Nat) : List Nat := List.range' (min a b) (max a b - min a b + 1)

/-- `HLine(x0, x1, y)` (R222). -/
def hLine (x0 x1 y : Nat) : List (Nat × Nat) := (between x0 x1).map fun x => (x, y)

/-- `VLine(x, y0, y1)` (R222). -/
def vLine (x y0 y1 : Nat) : List (Nat × Nat) := (between y0 y1).map fun y => (x, y)

/-- `Rect(x0, y0, x1, y1)`, the one-pixel outline (R223). -/
def rect (x0 y0 x1 y1 : Nat) : List (Nat × Nat) :=
  hLine x0 x1 y0 ++ hLine x0 x1 y1 ++ vLine x0 y0 y1 ++ vLine x1 y0 y1

/-- `FillBlock(x, y, s)` (R224). -/
def fillBlock (x y s : Nat) : List (Nat × Nat) :=
  (List.range s).flatMap fun j => (List.range s).map fun i => (x + i, y + j)

/-- `PlainBorder()` (R226). -/
def plainBorder : List (Nat × Nat) := rect 0 0 127 63

/-- `SegmentedBorder()` (R227): four brackets and two centre segments. -/
def segmentedBorder : List (Nat × Nat) :=
  hLine 0 13 0 ++ vLine 0 0 13 ++
    hLine 114 127 0 ++ vLine 127 0 13 ++
    hLine 0 13 63 ++ vLine 0 50 63 ++
    hLine 114 127 63 ++ vLine 127 50 63 ++
    hLine 41 84 0 ++ hLine 41 84 63

/-- The border `FB_BORDER` draws: plain where the flag is 0, segmented where it is 1 (R225). -/
def borderPixels (visible : Bool) : List (Nat × Nat) := if visible then segmentedBorder else plainBorder

/-- `CURSOR_SIZE` (R6) -/
abbrev cursorSize : Nat := 8

/-- `FB_CLEAR` (R221). -/
def execFbClear (s : State) : Result := .next { s with fb := s.fb.clear }

/-- `FB_BORDER` (R225). -/
def execFbBorder (s : State) : Result := .next { s with fb := s.fb.setPixels (borderPixels s.borderVisible) }

/-- `FB_CURSOR` (R229): the cursor's top-left pixel is `(cur_x, cur_y)` (D21). -/
def execFbCursor (s : State) : Result :=
  .next { s with fb := s.fb.setPixels (fillBlock s.curX.toNat s.curY.toNat cursorSize) }

/-- `FB_FLUSH` (R234): a snapshot of the whole frame. -/
def execFbFlush (s : State) : Result := .next (s.emit (.frame s.fb.frameBytes))

end Sys2Proof.Machine
end

