-- ==== Sys2Proof/Machine/Mapper.lean ====
section
/-! DEFINITION. The deadzone axis mapper: its pure functions, DUTY and COORD (41_deadzone_axis_mapper.md). All
arithmetic is on unbounded integers (R8, R167) and narrowed once, where a register is written. -/

namespace Sys2Proof.Machine

/-- `tdiv(a, b)`: the quotient truncated toward zero (R9). -/
def tdiv (a b : Int) : Int := a.sign * b.sign * ((a.natAbs / b.natAbs : Nat) : Int)

/-- `remap(v, a, b, c, d)` (R160). -/
def remap (v a b c d : Int) : Int := tdiv ((v - a) * (d - c)) (b - a) + c

/-- `mapAxis(r)` (R161), for an instantiation that meets the precondition of R170. -/
def mapAxis (c : Config) (r : Int) : Int :=
  let lo : Int := c.center - c.deadzone
  let hi : Int := c.center + c.deadzone
  if r < lo then remap r 0 lo c.wrap 0
  else if r > hi then remap r hi adcMax 0 c.wrap
  else 0

/-- `mapX(r)` (R163). -/
def mapX (r : Int) : Int := remap r 0 adcMax 0 119

/-- `mapY(r)` (R164): inverted. -/
def mapY (r : Int) : Int := remap r 0 adcMax 55 0

/-- The X override table (R165). -/
def ovx (x : Int) : Int := if x = 118 then 116 else if x = 0 then 4 else x

/-- The Y override table (R165). -/
def ovy (y : Int) : Int := if y = 55 then 52 else if y = 1 then 4 else y

/-- A duty register's value for a sample; it fits 16 bits by R162. -/
def dutyOf (c : Config) (r : Sample) : Duty := BitVec.ofInt 16 (mapAxis c r.toNat)

/-- `DUTY` (R168): channel 0 from X, channel 1 from Y; both 0 when the LEDs are disabled (R202). -/
def execDuty (s : State) : Result :=
  if s.ledsEnabled then
    .next { s with dutyNext0 := dutyOf s.cfg s.smpX, dutyNext1 := dutyOf s.cfg s.smpY }
  else
    .next { s with dutyNext0 := 0, dutyNext1 := 0 }

/-- `COORD` (R169). -/
def execCoord (s : State) : Result :=
  .next { s with
    curX := BitVec.ofInt 7 (ovx (mapX s.smpX.toNat)), curY := BitVec.ofInt 6 (ovy (mapY s.smpY.toNat)) }

end Sys2Proof.Machine
end

