-- ==== Sys2Proof/Machine/PwmDriver.lean ====
section
/-! DEFINITION. The PWM duty driver: APPLY (42_pwm_duty_driver.md). -/

namespace Sys2Proof.Machine

/-- `APPLY` (R201): both channels at once; it reads no flag. -/
def execApply (s : State) : Result := .next { s with dutyOut0 := s.dutyNext0, dutyOut1 := s.dutyNext1 }

end Sys2Proof.Machine
end

