-- ==== Sys2Proof/Machine/Sequencer.lean ====
section
/-! DEFINITION. The cycle sequencer: ADC, SAMPLE, DIAG, SLEEP and STEP (44_cycle_sequencer.md). -/

namespace Sys2Proof.Machine

/-- `ADC x, y` (R264): only the environment's value changes. -/
def execAdc (x y : Sample) (s : State) : Result := .next { s with adcIn := some (x, y) }

/-- `SAMPLE` (R263): both axes in one transaction (D15). -/
def execSample (s : State) : Result :=
  .next { s with smpX := s.adcPair.1, smpY := s.adcPair.2, draws := s.drawsAfterAdc }

/-- The 56-bit diagnostic record `{smp_x, smp_y, duty_next[0], duty_next[1]}` (R270). -/
def State.diagRecord (s : State) : BitVec 56 := s.smpX ++ s.smpY ++ s.dutyNext0 ++ s.dutyNext1

/-- `DIAG` (R270): best effort, so the event is delivered or lost, as a free value says. Log entry 7. -/
def execDiag (s : State) : Result :=
  let t := if Config.diagDelivered s.draws then s.emit (.diag s.diagRecord) else s
  .next { t with draws := s.draws + 1 }

/-- `SLEEP` (R265): `upc` stays 9. -/
def execSleep (s : State) : Result := .next { s with sleeping := true, sleepCnt := BitVec.ofNat 7 sleepMs }

/-- The micro-op of a ROM code, as `STEP` performs it (R261); `STEP` meets only codes of the ROM. -/
def performMicroOp (code : BitVec 4) (s : State) : Result :=
  match code.toNat with
  | 0x0 => execSample s
  | 0x1 => execDuty s
  | 0x2 => execCoord s
  | 0x3 => execFbClear s
  | 0x4 => execFbBorder s
  | 0x5 => execFbCursor s
  | 0x6 => execFbFlush s
  | 0x7 => execApply s
  | 0x8 => execDiag s
  | 0x9 => execSleep s
  | _ => .fault .upcOutsideRom

/-- `STEP` (R261): a hold while sleeping (R266), else the micro-op `ROM[upc]` and then `upc` advances (R262). -/
def execStep (s : State) : Result :=
  if s.sleeping then .next s
  else
    match rom s.upc with
    | some code => andThen (performMicroOp code s) fun t => .next (t.advanceUpc code)
    | none => .fault .upcOutsideRom

end Sys2Proof.Machine
end

