-- ==== Sys2Proof/Machine/Dispatch.lean ====
section
/-! DEFINITION. One arm per instruction. -/

namespace Sys2Proof.Machine

/-- The meaning of every instruction. -/
def exec (i : Instr) (s : State) : Host.Outcome State Fault Refusal :=
  match i with
  -- transactions
  | .level l v => Sys2Proof.Machine.execLevel l v s
  | .tick n => Sys2Proof.Machine.execTick n s
  | .adc x y => Sys2Proof.Machine.execAdc x y s
  | .step => Sys2Proof.Machine.execStep s
  | .read a => Sys2Proof.Machine.execRead a s
  -- micro-ops
  | .sample => Sys2Proof.Machine.execSample s
  | .duty => Sys2Proof.Machine.execDuty s
  | .coord => Sys2Proof.Machine.execCoord s
  | .fbClear => Sys2Proof.Machine.execFbClear s
  | .fbBorder => Sys2Proof.Machine.execFbBorder s
  | .fbCursor => Sys2Proof.Machine.execFbCursor s
  | .fbFlush => Sys2Proof.Machine.execFbFlush s
  | .apply => Sys2Proof.Machine.execApply s
  | .diag => Sys2Proof.Machine.execDiag s
  | .sleep => Sys2Proof.Machine.execSleep s

end Sys2Proof.Machine
end

