-- ==== Sys2Proof/Machine/Clock.lean ====
section
/-! DEFINITION. The clocked hardware: micro-ops that take several clocks, debug requests that wait, and one whole clock
(70_reset_and_hazards.md R340, R350 to R353). -/

namespace Sys2Proof.Machine

/-- Instructions one after another. -/
def runInstrs : List Instr → State → Result
  | [], s => .next s
  | i :: is, s => andThen (exec i s) (runInstrs is)

/-! ### Micro-ops of several clocks (R352, R358) -/

/-- The most clocks a micro-op takes (R358). -/
def maxClocks (upc : BitVec 4) : Nat :=
  match upc.toNat with
  | 0x1 => 32
  | 0x2 => 32
  | 0x3 => 1024
  | 0x4 => 1024
  | 0x5 => 16
  | 0x6 => 1024
  | _ => 1

/-- The clocks a micro-op takes: `n` within the bounds of R358, and for `FB_FLUSH` one a byte (R62). Log entry 11. -/
def clocksOf (upc : BitVec 4) (n : Nat) : Nat := if upc = 6 then fbBytes else max 1 (min n (maxClocks upc))

/-- The last clock of a micro-op: it commits, with the flags of its first clock (R352), and is over. -/
def completeMicroOp (m : MicroOp) (s : State) : Result :=
  andThen (exec .step { s with inProgress := none, ledsEnabled := m.leds, borderVisible := m.border }) fun t =>
    .next { t with ledsEnabled := s.ledsEnabled, borderVisible := s.borderVisible }

/-- The sequencer's part of a clock: a micro-op in progress goes on, whatever is asked of the sequencer; else a request
begins the micro-op at `upc`, and one that takes a single clock commits in it (R352). -/
def sequencerClock (c : ClockIn) (s : State) : Result :=
  match s.inProgress with
  | some m =>
    if m.done + 1 < m.total then .next { s with inProgress := some { m with done := m.done + 1 } }
    else completeMicroOp m s
  | none =>
    if c.seqStep && !s.sleeping && 1 < clocksOf s.upc c.opClocks then
      .next { s with
        inProgress := some
          { total := clocksOf s.upc c.opClocks, done := 1, leds := s.ledsEnabled, border := s.borderVisible } }
    else if c.seqStep then exec .step s
    else .next s

/-! ### Debug requests (R294) -/

/-- The debug port's part of a clock: a request that arrives is answered, unless a micro-op is in progress or an older
request waits. One request is answered a clock, and each clock with `dbg_req = 1` brings one of its own. Log entry
17. -/
def debugClock (c : ClockIn) (s : State) : Result :=
  let requests := s.waiting ++ c.dbgReq.toList
  match s.inProgress, requests with
  | none, a :: rest => exec (.read a) { s with waiting := rest }
  | _, _ => .next { s with waiting := requests }

/-! ### One clock -/

/-- A channel's synchroniser at the end of a clock (R353): `sync2 <- sync1`, `sync1 <- btn_n[l]`. -/
def Channel.shift (c : Channel) (btn : Bool) : Channel := { c with sync2 := c.sync1, sync1 := btn }

/-- What follows the sequencer in a clock: the lines, each evaluated against `sync2[l]` as it was, and the tick. -/
def clockTail (c : ClockIn) (s : State) : List Instr :=
  [Instr.level Line.line0 s.line0.sync2, Instr.level Line.line1 s.line1.sync2] ++ (if c.msTick then [Instr.tick 1] else [])

/-- A clock without `rst`, by what the debug port and the sequencer do in it, in the order of R351: `READ < STEP <
LEVEL 0 < LEVEL 1 < TICK`, the analog pins presented before the `STEP` that may take them (log entry 11), and then the
synchronisers. -/
def clockWith (debug sequencer : State → Result) (c : ClockIn) (s : State) : Result :=
  andThen (debug s) fun s1 =>
  andThen (exec (.adc c.adcX c.adcY) s1) fun s2 =>
  andThen (sequencer s2) fun s3 =>
  andThen (runInstrs (clockTail c s) s3) fun t =>
    .next { t with line0 := t.line0.shift c.btn0, line1 := t.line1.shift c.btn1 }

/-- One clock. With `rst` it performs no transaction and resets every field (R340). -/
def runClock (c : ClockIn) (s : State) : Result :=
  if c.rst then .next s.doReset else clockWith (debugClock c) (sequencerClock c) c s

/-! ### Between the clocks and the transactions -/

/-- Before a transaction word of its own (R7) is performed, a micro-op in progress completes and the waiting requests
are answered: a micro-op is one `STEP` (R352). In a run of words only there is nothing to do. Log entry 17. -/
def settle (s : State) : Result :=
  andThen (match s.inProgress with
    | some m => completeMicroOp m s
    | none => .next s) fun t =>
    runInstrs (t.waiting.map Instr.read) { t with waiting := [] }

end Sys2Proof.Machine
end

