-- ==== Sys2Proof/Machine/Fetch.lean ====
section
/-! DEFINITION. What one input of a run does: a transaction word, a reset, or a whole clock (R7, R340, R350). -/

namespace Sys2Proof.Machine

/-- A transaction word: its decoded instruction runs; a refused word only marks the run (R87, R312). -/
def runWord (w : Word) (s : State) : Result :=
  match decodeWord w with
  | .ok i => andThen (settle s) (exec i)
  | .error r => .next (s.markRefused r)

/-- One input of the run. -/
def runInput (i : Input) (s : State) : Result :=
  match i with
  | .txn w => runWord w s
  | .reset => .next s.doReset
  | .clock c => runClock c s

/-- One step: the oldest input is taken and performed. With no input no agent acts and nothing changes. Log entry 2. -/
def takeInput (s : State) : Result :=
  match s.inputs with
  | [] => .next s
  | i :: rest => runInput i { s with inputs := rest }

/-- The run `ws` of transaction words put after what is still to come. Log entry 2. -/
def State.load (s : State) (ws : List Word) : State := { s with inputs := s.inputs ++ ws.map .txn }

/-- The word of `STEP` (R85). -/
def stepWord : Word := 0x40000000

/-- The instruction of an opcode-table row placed where the next step takes it, with no micro-op in progress: a
transaction word becomes the next input; a micro-op code is selected by `upc`, `ROM[i] = i`, with the sequencer awake
and `STEP` the next input, since a run cannot name a micro-op (R89). Log entry 13. -/
def placeTableWord (s : State) (nbits w : Nat) : State :=
  let quiet := { s with inProgress := none, waiting := [] }
  if nbits ≤ 8 then
    { quiet with upc := BitVec.ofNat 4 w, sleeping := false, inputs := .txn stepWord :: s.inputs }
  else
    { quiet with inputs := .txn (BitVec.ofNat 32 w) :: s.inputs }

end Sys2Proof.Machine
end

