-- ==== Sys2Proof/Machine/Step.lean ====
section
/-! DEFINITION. One step of the machine. -/

namespace Sys2Proof.Machine

/-- One step. An instantiation that breaks R5 is refused before any transaction (R13, R311). -/
def step (s : State) : Host.Outcome State Fault Refusal :=
  if configValid s.cfg then takeInput s else .refused .cfgInvalid

/-- The state with an opcode-table row's instruction where `step` takes its next input (log entries 2 and 13). -/
def State.withFetchWord (s : State) (nbits w : Nat) : State := placeTableWord s nbits w

end Sys2Proof.Machine
end

