-- ==== Sys2Proof/WellFormed.lean ====
section
/-! DEFINITION. What may stand in a run: which instructions are transactions (R89), and the source lines of the
assembler with the operand ranges of R92 and R93. -/

namespace Sys2Proof

/-- A transaction of a run (R81); a micro-op is not one (R89). -/
def Instr.isTransaction : Instr → Bool
  | .level _ _ => true
  | .tick _ => true
  | .adc _ _ => true
  | .step => true
  | .read _ => true
  | .sample => false
  | .duty => false
  | .coord => false
  | .fbClear => false
  | .fbBorder => false
  | .fbCursor => false
  | .fbFlush => false
  | .apply => false
  | .diag => false
  | .sleep => false

/-- One line of assembler source: the five mnemonics of R92 and the pseudo-instructions of R93, with the numbers
as they are written. -/
inductive AsmLine where
  | level (l v : Nat)
  | tick (n : Nat)
  | adc (x y : Nat)
  | step
  | read (a : Nat)
  | press (l : Nat)
  | release (l : Nat)
  | click (l : Nat)
  | steps (k : Nat)
  | iter
  | wait (n : Nat)
deriving DecidableEq, Repr

/-- The operand ranges of R92 and R93: an operand outside its range is an assembly error. -/
def AsmLine.wellFormed : AsmLine → Bool
  | .level l v => l ≤ 1 && v ≤ 1
  | .tick n => n ≤ 65535
  | .adc x y => x ≤ 4095 && y ≤ 4095
  | .step => true
  | .read a => a ≤ 0x3FF
  | .press l => l ≤ 1
  | .release l => l ≤ 1
  | .click l => l ≤ 1
  | .steps k => 1 ≤ k
  | .iter => true
  | .wait _ => true

end Sys2Proof
end

