-- ==== Sys2Proof/Machine/Assembler.lean ====
section
/-! DEFINITION. The assembler of 30_encoding.md: source lines to transaction words (R92) and the expansions of the
pseudo-instructions (R93). -/

namespace Sys2Proof.Machine

/-- The transaction word of an instruction; a micro-op has none (R89). -/
def wordOf (i : Instr) : Option Word :=
  match encode i with
  | .txn32 w => some w
  | .uop4 _ => none

/-- The transactions a source line stands for (R92, R93). -/
def expand : AsmLine → List Instr
  | .level l v => [.level (lineOfBit (l == 1)) (v == 1)]
  | .tick n => [.tick (BitVec.ofNat 16 n)]
  | .adc x y => [.adc (BitVec.ofNat 12 x) (BitVec.ofNat 12 y)]
  | .step => [.step]
  | .read a => [.read (BitVec.ofNat 10 a)]
  | .press l => [.level (lineOfBit (l == 1)) false]
  | .release l => [.level (lineOfBit (l == 1)) true]
  | .click l => [.level (lineOfBit (l == 1)) false, .level (lineOfBit (l == 1)) true]
  | .steps k => List.replicate k .step
  | .iter => List.replicate 10 .step ++ [.tick 100]
  | .wait n =>
    List.replicate (n / 65535) (.tick 65535) ++
      (if n % 65535 = 0 then [] else [.tick (BitVec.ofNat 16 (n % 65535))])

/-- The words of a source line; an operand outside its range is an assembly error and no word is produced (R92). -/
def assemble (a : AsmLine) : Option (List Word) :=
  if a.wellFormed then some ((expand a).filterMap wordOf) else none

/-! ### Source text (R92): one transaction a line, `;` starts a comment, mnemonics are case-insensitive, numbers are
decimal or `0x` hexadecimal. The treatment of blanks is log entry 15. -/

/-- A blank inside a line. -/
def isBlank (c : Char) : Bool := c == ' ' || c == '\t' || c == '\r'

/-- A text without the blanks around it. -/
def trim (cs : List Char) : List Char := ((cs.dropWhile isBlank).reverse.dropWhile isBlank).reverse

/-- The code of a character, a lower-case letter taken as its capital. -/
def capital (c : Char) : Nat := if 97 ≤ c.toNat ∧ c.toNat ≤ 122 then c.toNat - 32 else c.toNat

/-- The value of a digit of a base up to 16. -/
def digit (base : Nat) (c : Char) : Option Nat :=
  let n := capital c
  let d := if 48 ≤ n ∧ n ≤ 57 then n - 48 else if 65 ≤ n ∧ n ≤ 70 then n - 55 else base
  if d < base then some d else none

/-- The value of a run of digits read after `acc`. -/
def digits (base acc : Nat) : List Char → Option Nat
  | [] => some acc
  | c :: cs =>
    match digit base c with
    | some d => digits base (acc * base + d) cs
    | none => none

/-- A number, decimal or `0x` hexadecimal (R92). The case of `x` and of the digits is not looked at. DESIGN CHOICE: log
entry 15. -/
def number : List Char → Option Nat
  | [] => none
  | '0' :: x :: c :: cs => if capital x = 88 then digits 16 0 (c :: cs) else digits 10 0 ('0' :: x :: c :: cs)
  | cs => digits 10 0 cs

/-- The operands of a line: numbers with a comma between them. -/
def operands (cs : List Char) : Option (List Nat) :=
  match trim cs with
  | [] => some []
  | c :: rest => ((c :: rest).splitOn ',').mapM fun o => number (trim o)

/-- The source line of a mnemonic (in capitals) and its operands; a wrong mnemonic or number of operands is an error. -/
def lineOf (mnemonic : List Nat) (os : List Nat) : Option AsmLine :=
  let is (name : String) : Bool := mnemonic == name.toList.map Char.toNat
  match os with
  | [] => if is "STEP" then some .step else if is "ITER" then some .iter else none
  | [a] =>
    if is "TICK" then some (.tick a) else if is "READ" then some (.read a)
    else if is "PRESS" then some (.press a) else if is "RELEASE" then some (.release a)
    else if is "CLICK" then some (.click a) else if is "STEPS" then some (.steps a)
    else if is "WAIT" then some (.wait a) else none
  | [a, b] => if is "LEVEL" then some (.level a b) else if is "ADC" then some (.adc a b) else none
  | _ => none

/-- The words of one line of text: none for an empty line or a comment; `none` is an assembly error. -/
def assembleLine (cs : List Char) : Option (List Word) :=
  match trim (cs.takeWhile (· != ';')) with
  | [] => some []
  | c :: rest =>
    let mnemonic := (c :: rest).takeWhile fun d => !isBlank d
    match operands ((c :: rest).drop mnemonic.length) with
    | some os =>
      match lineOf (mnemonic.map capital) os with
      | some a => assemble a
      | none => none
    | none => none

/-- The words of a source text, or `none` where a line is an assembly error. -/
def assembleText (cs : List Char) : Option (List Word) :=
  (((cs.splitOn '\n').mapM assembleLine)).map List.flatten

end Sys2Proof.Machine
end

