-- ==== Sys2Proof/Machine/Ports.lean ====
section
/-! DEFINITION. The output ports, as views of the state and of the events of a step (R21, R62, R200, R235, R270, R290). -/

namespace Sys2Proof.Machine

/-- One clock of the display stream: `disp_data`, `disp_sof`, with `disp_valid` 1 (R62). -/
structure DispBeat where
  data : Byte
  sof : Bool
deriving DecidableEq, Repr

/-- The events appended between two states of a run. -/
def newEvents (s t : State) : List Event := t.out.drop s.out.length

/-- What the output ports carry for one clock: the level outputs, a byte where `disp_valid` is 1, `diag_data` where
`diag_valid` is 1, and `dbg_rdata` where `dbg_ack` is 1. -/
structure ClockOut where
  pwmDuty0 : Duty
  pwmDuty1 : Duty
  disp : Option DispBeat
  diag : Option (BitVec 56)
  dbg : Option Word
deriving DecidableEq, Repr

/-- The first debug answer of some events. -/
def dbgOf : List Event → Option Word
  | [] => none
  | .rdata _ v :: _ => some v
  | .frame _ :: es => dbgOf es
  | .diag _ :: es => dbgOf es

/-- The micro-op that the sequencer works on in a clock without `rst`, and how many of its clocks came before (R352). -/
def State.working (s : State) (c : ClockIn) : Option (BitVec 4 × Nat) :=
  match s.inProgress with
  | some m => some (s.upc, m.done)
  | none => if c.seqStep && !s.sleeping then some (s.upc, 0) else none

/-- The byte on the display port: clock `b` of `FB_FLUSH` carries byte `b`, with `disp_sof` on byte 0 only (R62). -/
def State.dispBeat (s : State) (c : ClockIn) : Option DispBeat :=
  match s.working c with
  | some (code, b) => if code = 6 then some { data := s.fb.readByte b, sof := b == 0 } else none
  | none => none

/-- The record on the diagnostic port: `diag_valid` is 1 in the clock of every `DIAG` (R270). Whether the sink takes the
record is another matter (R325): it decides the event only. Log entry 7. -/
def State.diagPulse (s : State) (c : ClockIn) : Option (BitVec 56) :=
  match s.working c with
  | some (code, _) => if code = 8 then some s.diagRecord else none
  | none => none

/-- The output ports of the clock `c` that led from `s` to `t`: `pwm_duty` carries `duty_out` (R200), and with `rst` all
of them are 0 (R340). Which side of its own clock a port shows is the model's choice, log entry 18: the duties as the
clock leaves them, so that they are new in the clock of `APPLY` itself; a byte of the stream and the diagnostic record
in the clock of their micro-op, and `dbg_ack` in the clock that answers the request. DESIGN CHOICE. -/
def clockOut (s : State) (c : ClockIn) (t : State) : ClockOut :=
  if c.rst then { pwmDuty0 := 0, pwmDuty1 := 0, disp := none, diag := none, dbg := none }
  else
    { pwmDuty0 := t.dutyOut0
      pwmDuty1 := t.dutyOut1
      disp := s.dispBeat c
      diag := s.diagPulse c
      dbg := dbgOf (newEvents s t) }

/-- The last frame of some events. -/
def lastFrame : List Event → Option (List Byte)
  | [] => none
  | .frame bytes :: es => some ((lastFrame es).getD bytes)
  | .diag _ :: es => lastFrame es
  | .rdata _ _ :: es => lastFrame es

/-- What the display shows: the last emitted frame; before the first one it is not specified (R235). A stream that a
reset cuts short leaves no `FRAME` event, as the sink discards it (R340). -/
def State.displayed (s : State) : Option (List Byte) := lastFrame s.out

end Sys2Proof.Machine
end

