-- ==== Sys2Proof/Safety.lean ====
section
/-! DEFINITION. What claims speak of: the invariant of R42, the pictures a frame may show, edges and ticks counted
along a run, and a run that holds no refused word. -/

namespace Sys2Proof.Machine

/-! ### Runs -/

/-- `k` steps of the machine from `s` end in `t`. -/
def Runs (k : Nat) (s t : State) : Prop := Host.Core.run Sys2Proof.core k s = .next t

/-- A run a claim may be made of: it holds no refused word (R310). -/
def SafeRun (k : Nat) (s t : State) : Prop := Runs k s t ∧ t.refusedMark = none

/-- No micro-op is in progress and no debug request waits: the states of the transaction model (R7, R26). -/
def Quiet (s : State) : Prop := s.inProgress = none ∧ s.waiting = []

/-! ### The cursor (R166) -/

/-- The values `COORD` can write (R166). -/
def cursorReachable (x y : Nat) : Bool := ((1 ≤ x && x ≤ 117) || x == 119) && (y == 0 || (2 ≤ y && y ≤ 54))

/-! ### The mapper on natural numbers (R161, R163 to R165) -/

/-- The duty of a sample by the closed forms of R161, on natural numbers. -/
def dutyByRule (c : Config) (r : Nat) : Nat :=
  if r < c.center - c.deadzone then c.wrap - r * c.wrap / (c.center - c.deadzone)
  else if c.center + c.deadzone < r then
    (r - (c.center + c.deadzone)) * c.wrap / (4095 - (c.center + c.deadzone))
  else 0

/-- The cursor column of a sample by R163 and R165. -/
def columnByRule (r : Nat) : Nat :=
  if 119 * r / 4095 = 118 then 116 else if 119 * r / 4095 = 0 then 4 else 119 * r / 4095

/-- The cursor row of a sample by R164 and R165. -/
def rowByRule (r : Nat) : Nat :=
  if 55 - 55 * r / 4095 = 55 then 52 else if 55 - 55 * r / 4095 = 1 then 4 else 55 - 55 * r / 4095

/-! ### The invariant of R42 -/

/-- A millisecond value that fits TS_WIDTH bits (R24, R27). -/
def timeFits (c : Config) (t : Word) : Bool := t.toNat < 2 ^ c.tsWidth

/-- What holds of every state a run reaches from reset (R42). -/
structure BlockInv (s : State) : Prop where
  /-- the instantiation exists (R311) -/
  config : configValid s.cfg = true
  /-- the framebuffer keeps its canonical form -/
  fbForm : s.fb.wf = true
  /-- `now_ms` has TS_WIDTH bits (R24) -/
  now : timeFits s.cfg s.nowMs = true
  /-- `last_ts[0]` has TS_WIDTH bits (R27) -/
  last0 : timeFits s.cfg s.line0.lastTs = true
  /-- `last_ts[1]` has TS_WIDTH bits (R27) -/
  last1 : timeFits s.cfg s.line1.lastTs = true
  /-- `duty_next[0] ≤ WRAP` -/
  next0 : s.dutyNext0.toNat ≤ s.cfg.wrap
  /-- `duty_next[1] ≤ WRAP` -/
  next1 : s.dutyNext1.toNat ≤ s.cfg.wrap
  /-- `duty_out[0] ≤ WRAP` -/
  out0 : s.dutyOut0.toNat ≤ s.cfg.wrap
  /-- `duty_out[1] ≤ WRAP` -/
  out1 : s.dutyOut1.toNat ≤ s.cfg.wrap
  /-- `upc ≤ 9` -/
  upcInRom : s.upc.toNat ≤ 9
  /-- `sleeping = 1` implies `upc = 9` and `1 ≤ sleep_cnt ≤ 100` -/
  asleep : s.sleeping = true → s.upc = 9 ∧ 1 ≤ s.sleepCnt.toNat ∧ s.sleepCnt.toNat ≤ 100
  /-- a micro-op is in progress while awake only, with clocks left, within the bounds of R358, a flush for one clock a
  byte (R352, R62) -/
  busy : ∀ m, s.inProgress = some m → s.sleeping = false ∧ 1 ≤ m.done ∧ m.done < m.total ∧
    m.total ≤ maxClocks s.upc ∧ (s.upc = 6 → m.total = 1024)
  /-- `sleeping = 0` implies `sleep_cnt = 0` (R39) -/
  awake : s.sleeping = false → s.sleepCnt = 0
  /-- before the first `COORD` the cursor has its reset value, after it one of R166's pairs -/
  cursor : (s.curX = 0 ∧ s.curY = 0) ∨ cursorReachable s.curX.toNat s.curY.toNat = true
  /-- the micro-ops after `COORD` find one of R166's pairs -/
  cursorSet : 3 ≤ s.upc.toNat → cursorReachable s.curX.toNat s.curY.toNat = true

/-! ### Pictures (R226, R227, R229, R233) -/

/-- The lit pixels of the border: the full perimeter, or the segmented variant (the rows and columns of R226, R227). -/
def borderLit (visible : Bool) (x y : Nat) : Bool :=
  if visible then
    ((y == 0 || y == 63) && (x ≤ 13 || (41 ≤ x && x ≤ 84) || 114 ≤ x)) ||
      ((x == 0 || x == 127) && (y ≤ 13 || 50 ≤ y))
  else y == 0 || y == 63 || x == 0 || x == 127

/-- The 64 pixels of the cursor block (R229). -/
def cursorLit (cx cy x y : Nat) : Bool := cx ≤ x && x ≤ cx + 7 && cy ≤ y && y ≤ cy + 7

/-- Every pixel of the canvas is as `picture` says. -/
def Shows (m : Memory) (picture : Nat → Nat → Bool) : Prop :=
  ∀ x y, x ≤ 127 → y ≤ 63 → m.pix x y = picture x y

/-- A whole frame (R233, R235): 1024 bytes, by the layout of R61 one border variant and one cursor block, at a place
`COORD` can write. -/
def WholeFrame (bytes : List Byte) : Prop :=
  bytes.length = 1024 ∧
    ∃ visible cx cy, cursorReachable cx cy = true ∧
      ∀ x y, x ≤ 127 → y ≤ 63 →
        (bytes.getD (y / 8 * 128 + x) 0).getLsbD (y % 8) = (borderLit visible x y || cursorLit cx cy x y)

/-- What the framebuffer holds at each point of an iteration, and that every emitted frame is whole (R220, R233, R235). -/
structure FrameInv (s : State) : Prop where
  /-- after `FB_CLEAR` the frame is all off -/
  cleared : s.upc = 4 → Shows s.fb fun _ _ => false
  /-- after `FB_BORDER` it is one border variant -/
  bordered : s.upc = 5 → ∃ visible, Shows s.fb (borderLit visible)
  /-- after `FB_CURSOR`, and until the iteration ends, it is that border and the cursor -/
  composed : 6 ≤ s.upc.toNat →
    ∃ visible, Shows s.fb fun x y => borderLit visible x y || cursorLit s.curX.toNat s.curY.toNat x y
  /-- every emitted frame is whole -/
  emitted : ∀ bytes, Event.frame bytes ∈ s.out → WholeFrame bytes

/-! ### Edges and ticks along a run (R124, R132, R134) -/

/-- The next input is a transaction that accepts an edge of line `l`: a fall of its level with a gap of more than
250 ms (R123, R124). -/
def nextAccepts (l : Line) (s : State) : Bool :=
  match s.inputs with
  | .txn w :: _ =>
    decide (decodeWord w = .ok (.level l false)) && (s.chan l).lvl &&
      decide (250 < (s.nowMs - (s.chan l).lastTs).toNat % 2 ^ s.cfg.tsWidth)
  | _ => false

/-- How many edges of line `l` the next `k` steps accept. -/
def acceptedEdges (l : Line) : Nat → State → Nat
  | 0, _ => 0
  | k + 1, s =>
    (if nextAccepts l s then 1 else 0) +
      match step s with
      | .next t => acceptedEdges l k t
      | _ => 0

/-- The milliseconds the first `k` inputs let pass, as a plain number (R128). -/
def ticksOf : Nat → List Input → Nat
  | 0, _ => 0
  | _ + 1, [] => 0
  | k + 1, .txn w :: is =>
    (match decodeWord w with
      | .ok (.tick n) => n.toNat
      | _ => 0) + ticksOf k is
  | k + 1, _ :: is => ticksOf k is

/-- The first `k` inputs are transaction words. -/
def allWords : Nat → List Input → Bool
  | 0, _ => true
  | k + 1, .txn _ :: is => allWords k is
  | _ + 1, _ => false

/-! ### Reserved bits (R82 to R86) -/

/-- The operation field of a word as a number (R80). -/
def opOf (w : Word) : Nat := w.toNat / 2 ^ 28

/-- Bit `k` is reserved in the layout of operation `op` (R82 to R86). -/
def isReservedBit (op k : Nat) : Bool :=
  match op with
  | 1 => (1 ≤ k && k ≤ 7) || (9 ≤ k && k ≤ 27)
  | 2 => 16 ≤ k && k ≤ 27
  | 3 => 24 ≤ k && k ≤ 27
  | 4 => k ≤ 27
  | 5 => 10 ≤ k && k ≤ 27
  | _ => false

/-! ### Debug reads (R290) and lit pixels (R228) -/

/-- `READ a` completes, appends one `RDATA` event with the value `n`, and changes nothing else (R290). -/
def ReadsAs (s : State) (a : DebugAddr) (n : Nat) : Prop :=
  ∃ v : Word, exec (.read a) s = .next { s with out := s.out ++ [.rdata a v] } ∧ v.toNat = n

/-- A flag or level as a number: 1 is true or high (R8). -/
def asBit (b : Bool) : Nat := if b then 1 else 0

/-- How many pixels of the given columns and rows are on. -/
def litIn (m : Memory) (xs ys : List Nat) : Nat :=
  ((ys.flatMap fun y => xs.map fun x => (x, y)).filter fun p => m.pix p.1 p.2).length

/-! ### A run without its debug reads (R295) -/

/-- The word is a `READ`. -/
def isReadWord (w : Word) : Bool :=
  match decodeWord w with
  | .ok (.read _) => true
  | _ => false

/-- The words of a run with the debug reads taken out. -/
def withoutReads (ws : List Word) : List Word := ws.filter fun w => !isReadWord w

/-- A clock with its debug request taken out. -/
def ClockIn.withoutRequest (c : ClockIn) : ClockIn := { c with dbgReq := none }

/-- The `FRAME` and `DIAG` events of a record. -/
def withoutRdata (es : List Event) : List Event :=
  es.filter fun e =>
    match e with
    | .rdata _ _ => false
    | _ => true

/-! ### The clocks after a micro-op's first (R352) -/

/-- A clock in which the sequencer does nothing and a debug request only waits. -/
def idleClock (c : ClockIn) : State → Result :=
  clockWith (fun s => .next { s with waiting := s.waiting ++ c.dbgReq.toList }) .next c

/-- Such clocks one after another. -/
def idleClocks : List ClockIn → State → Result
  | [], s => .next s
  | c :: cs, s => andThen (idleClock c s) (idleClocks cs)

end Sys2Proof.Machine
end

