-- ==== Sys2Proof/Certificates/Slice0/Obligations.lean ====
section
/-! DEFINITION. The statements for the provers. Each says which rule of spec/ it formalises. -/

open Sys2Proof Sys2Proof.Machine

/-! ### Encodings (30_encoding.md) -/

/-- Decoding the encoding of an instruction gives it back, with every operand at every value (R82 to R86, R88). -/
def Obligations.DecodeOfEncodeIsTheInstruction : Prop :=
  ∀ i : Instr, decode (encode i) = .ok i

/-- Every transaction word and every micro-op code has at most one meaning: what decodes encodes back to itself. -/
def Obligations.EncodeOfDecodeIsTheCode : Prop :=
  ∀ (c : Code) (i : Instr), decode c = .ok i → encode i = c

/-- R87: which words are refused and with which reason; every other word is exactly one of the five operations. The
last clause, that a step takes a refused word from the run, marks the run (R310), changes nothing else and lets the run
go on, is the model's reading, log entry 3. -/
def Obligations.ReservedWordsAreRefusedAndChangeNothing : Prop :=
  ∀ w : Word,
    (decodeWord w = .error .rsvdOp ↔ opOf w = 0 ∨ 6 ≤ opOf w) ∧
    (decodeWord w = .error .rsvdBits ↔
      (1 ≤ opOf w ∧ opOf w ≤ 5) ∧ ∃ k, isReservedBit (opOf w) k = true ∧ w.getLsbD k = true) ∧
    ((1 ≤ opOf w ∧ opOf w ≤ 5) → (∀ k, isReservedBit (opOf w) k = true → w.getLsbD k = false) →
      ∃ i, decodeWord w = .ok i ∧ i.isTransaction = true ∧ encode i = .txn32 w) ∧
    (∀ (s : State) (rest : List Input) (r : Reject), configValid s.cfg = true → s.inputs = .txn w :: rest →
      decodeWord w = .error r →
      ∃ r' : Reject, step s = .next { s with inputs := rest, refusedMark := some r' })

/-- Words written out in 95_test_vectors.md section 2.1, and the micro-op codes of R88. -/
def Obligations.WordsOfTheSpecDecode : Prop :=
  decodeWord 0x10000100 = .ok (.level .line1 false) ∧
  decodeWord 0x10000001 = .ok (.level .line0 true) ∧
  decodeWord 0x2000FFFF = .ok (.tick 65535) ∧
  decodeWord 0x30000FFF = .ok (.adc 0 4095) ∧
  decodeWord 0x40000000 = .ok .step ∧
  decodeWord 0x500003FF = .ok (.read 0x3FF) ∧
  decodeWord 0x10000002 = .error .rsvdBits ∧
  decodeWord 0x31000000 = .error .rsvdBits ∧
  decodeWord 0xFFFFFFFF = .error .rsvdOp ∧
  decodeUop 0x4 = .ok .fbBorder ∧
  decodeUop 0x9 = .ok .sleep

/-- R88 and R89: `ROM[i] = i` for `i` in [0, 9], the ten codes name the ten micro-ops in the order of the table, the
codes 0xA to 0xF name none and are not in the ROM, and no transaction word names a micro-op. -/
def Obligations.RomHoldsTheTenMicroOpsInOrder : Prop :=
  (∀ upc : BitVec 4, rom upc = if upc.toNat ≤ 9 then some upc else none) ∧
  romTable.map decodeUop =
    [.ok .sample, .ok .duty, .ok .coord, .ok .fbClear, .ok .fbBorder, .ok .fbCursor, .ok .fbFlush, .ok .apply,
      .ok .diag, .ok .sleep] ∧
  (∀ code : BitVec 4, 10 ≤ code.toNat → decodeUop code = .error .unusedUop ∧ code ∉ romTable) ∧
  ∀ (w : Word) (i : Instr), decodeWord w = .ok i → i.isTransaction = true

/-! ### The step, the configuration and reset -/

/-- When the next input is a word that decodes to `i`, a step takes it from the run and is `i`'s meaning, once the
clocked hardware's micro-op in progress and waiting requests, if there are any, are settled (log entry 17). -/
def Obligations.StepRunsTheDecodedTransaction : Prop :=
  ∀ (s : State) (w : Word) (i : Instr) (rest : List Input), configValid s.cfg = true →
    s.inputs = .txn w :: rest → decodeWord w = .ok i →
    (Quiet s → step s = exec i { s with inputs := rest }) ∧
      step s = andThen (settle { s with inputs := rest }) (exec i)

/-- The model's choice of log entry 2: with no input left no agent acts and the state is held. -/
def Obligations.StepWithoutInputHolds : Prop :=
  ∀ s : State, configValid s.cfg = true → s.inputs = [] → step s = .next s

/-- R41: a reset gives every field its reset value, leaves `fb`, the analog value and the output record, and a
power-on has any `fb`, no analog value and an empty record. The mark, the configuration, the rest of the run and the
draws are not the block's state and stay (the model's choice for its own fields, log entry 12); a micro-op in progress
and waiting debug requests are dropped (log entry 17). -/
def Obligations.ResetGivesTheResetValues : Prop :=
  (∀ (s : State) (rest : List Input), configValid s.cfg = true → s.inputs = .reset :: rest →
    step s = .next
      { nowMs := 0
        line0 := { lvl := true, lastTs := 0, sync1 := true, sync2 := true }
        line1 := { lvl := true, lastTs := 0, sync1 := true, sync2 := true }
        ledsEnabled := s.cfg.resetLeds
        borderVisible := s.cfg.resetBorder
        smpX := 0, smpY := 0
        dutyNext0 := 0, dutyNext1 := 0
        dutyOut0 := 0, dutyOut1 := 0
        curX := 0, curY := 0
        fb := s.fb
        upc := 0, sleeping := false, sleepCnt := 0
        adcIn := s.adcIn, out := s.out
        refusedMark := s.refusedMark, inProgress := none, waiting := [], cfg := s.cfg, inputs := rest,
        draws := s.draws }) ∧
  ∀ (c : Config) (fb : Memory), (State.powerOn c fb).fb = fb ∧ (State.powerOn c fb).adcIn = none ∧
    (State.powerOn c fb).out = [] ∧
    { (State.powerOn c fb).doReset with draws := 0 } = State.powerOn c fb

/-- R311: exactly the configurations the spec lists are refused, with CFG_INVALID, at elaboration; and no step changes
the configuration, so the check cannot fail later. That a step of an invalid instantiation is refused too is the
model's reading of R13, log entry 4. -/
def Obligations.InvalidConfigurationsAreRefused : Prop :=
  ∀ c : Config,
    ((c.deadzone = 0 ∨ c.center ≤ c.deadzone ∨ 4095 ≤ c.center + c.deadzone ∨ 65535 < c.wrap ∨ c.tsWidth < 9 ∨
        32 < c.tsWidth) ↔ ∀ fb, instantiate c fb = .refused .cfgInvalid) ∧
    (configValid c = true → ∀ fb, instantiate c fb = .next (State.powerOn c fb)) ∧
    (configValid c = false → ∀ s : State, s.cfg = c → step s = .refused .cfgInvalid) ∧
    ∀ s t : State, s.cfg = c → step s = .next t → t.cfg = c

/-- R13 and R313: from every state that meets the invariant of R42, whatever the next input is, the step answers a
next state: there is no runtime fault. -/
def Obligations.NoStepStopsUnderTheInvariant : Prop :=
  ∀ s : State, BlockInv s → ∃ t, step s = .next t

/-! ### LEVEL (40_debounce_edge_detector.md) -/

/-- R123, R124, R125: a fall with a gap of more than 250 ms writes the level, the timestamp and the flag of its line,
and nothing else. -/
def Obligations.AcceptedEdgeTogglesItsLinesFlag : Prop :=
  ∀ s : State,
    (s.line0.lvl = true → 250 < (s.nowMs - s.line0.lastTs).toNat % 2 ^ s.cfg.tsWidth →
      exec (.level .line0 false) s = .next
        { s with
          line0 := { s.line0 with lvl := false, lastTs := s.nowMs }, borderVisible := !s.borderVisible }) ∧
    (s.line1.lvl = true → 250 < (s.nowMs - s.line1.lastTs).toNat % 2 ^ s.cfg.tsWidth →
      exec (.level .line1 false) s = .next
        { s with
          line1 := { s.line1 with lvl := false, lastTs := s.nowMs }, ledsEnabled := !s.ledsEnabled })

/-- R126: a rejected edge writes the level and nothing else. -/
def Obligations.RejectedEdgeOnlyLowersTheLevel : Prop :=
  ∀ s : State,
    (s.line0.lvl = true → (s.nowMs - s.line0.lastTs).toNat % 2 ^ s.cfg.tsWidth ≤ 250 →
      exec (.level .line0 false) s = .next { s with line0 := { s.line0 with lvl := false } }) ∧
    (s.line1.lvl = true → (s.nowMs - s.line1.lastTs).toNat % 2 ^ s.cfg.tsWidth ≤ 250 →
      exec (.level .line1 false) s = .next { s with line1 := { s.line1 with lvl := false } })

/-- R127: a level equal to the stored one is a hold, and a rising change writes the level and nothing else. -/
def Obligations.NonEdgesNeverToggle : Prop :=
  ∀ s : State,
    exec (.level .line0 s.line0.lvl) s = .next s ∧
    exec (.level .line1 s.line1.lvl) s = .next s ∧
    (s.line0.lvl = false →
      exec (.level .line0 true) s = .next { s with line0 := { s.line0 with lvl := true } }) ∧
    (s.line1.lvl = false →
      exec (.level .line1 true) s = .next { s with line1 := { s.line1 with lvl := true } })

/-- R124 and R129: the gap is the elapsed time, also across one wrap of the counter; 250 ms is rejected, 251 ms
accepted, on either line. -/
def Obligations.DebounceMeasuresElapsedTimeAcrossTheWrap : Prop :=
  ∀ (l : Line) (s : State), configValid s.cfg = true → timeFits s.cfg s.nowMs = true →
    timeFits s.cfg (s.chan l).lastTs = true → (s.chan l).lvl = true →
    let now := s.nowMs.toNat
    let last := (s.chan l).lastTs.toNat
    let elapsed := if last ≤ now then now - last else now + 2 ^ s.cfg.tsWidth - last
    ∃ t, exec (.level l false) s = .next t ∧ (t.chan l).lvl = false ∧
      (250 < elapsed → t.flag l = !s.flag l ∧ (t.chan l).lastTs = s.nowMs) ∧
      (elapsed ≤ 250 → t.flag l = s.flag l ∧ (t.chan l).lastTs = (s.chan l).lastTs)

/-- R130: the two channels commute. -/
def Obligations.TheTwoLinesCommute : Prop :=
  ∀ (s : State) (v0 v1 : Bool),
    ∃ t, runInstrs [.level .line0 v0, .level .line1 v1] s = .next t ∧
      runInstrs [.level .line1 v1, .level .line0 v0] s = .next t

/-- R132: over any run of transaction words, a line's flag is inverted once per accepted edge of that line. -/
def Obligations.FlagIsTheParityOfAcceptedEdges : Prop :=
  ∀ (l : Line) (k : Nat) (s t : State), allWords k s.inputs = true → Runs k s t →
    t.flag l = (s.flag l ^^ decide (acceptedEdges l k s % 2 = 1))

/-- R134: between two consecutive accepted edges of a line the run ticks more than 250 ms. -/
def Obligations.AcceptedEdgesAreMoreThan250TicksApart : Prop :=
  ∀ (l : Line) (k : Nat) (s t u : State), nextAccepts l s = true → step s = .next t →
    allWords k t.inputs = true → Runs k t u → acceptedEdges l k t = 0 → nextAccepts l u = true →
    250 < ticksOf k t.inputs

/-- R27 to R39, R67, R272: who may write each field, over every instruction. A micro-op writes through `STEP` only at
its own `upc`; a flag changes only by an accepted edge of its line. -/
def Obligations.EveryFieldHasOnlyItsWriters : Prop :=
  ∀ (i : Instr) (s t : State), exec i s = .next t →
    (t.cfg = s.cfg ∧ t.inputs = s.inputs ∧ t.refusedMark = s.refusedMark ∧ t.inProgress = s.inProgress ∧
      t.waiting = s.waiting) ∧
    (t.nowMs ≠ s.nowMs → ∃ n, i = .tick n) ∧
    (∀ l, (t.chan l).sync1 = (s.chan l).sync1 ∧ (t.chan l).sync2 = (s.chan l).sync2) ∧
    (∀ l, (t.chan l).lvl ≠ (s.chan l).lvl → ∃ v, i = .level l v) ∧
    (∀ l, ((t.chan l).lastTs ≠ (s.chan l).lastTs ∨ t.flag l ≠ s.flag l) →
      i = .level l false ∧ (s.chan l).lvl = true ∧
        250 < (s.nowMs - (s.chan l).lastTs).toNat % 2 ^ s.cfg.tsWidth) ∧
    ((t.smpX ≠ s.smpX ∨ t.smpY ≠ s.smpY) → i = .sample ∨ (i = .step ∧ s.upc = 0)) ∧
    ((t.dutyNext0 ≠ s.dutyNext0 ∨ t.dutyNext1 ≠ s.dutyNext1) → i = .duty ∨ (i = .step ∧ s.upc = 1)) ∧
    ((t.curX ≠ s.curX ∨ t.curY ≠ s.curY) → i = .coord ∨ (i = .step ∧ s.upc = 2)) ∧
    (t.fb ≠ s.fb → (i = .fbClear ∨ i = .fbBorder ∨ i = .fbCursor) ∨
      (i = .step ∧ (s.upc = 3 ∨ s.upc = 4 ∨ s.upc = 5))) ∧
    ((t.dutyOut0 ≠ s.dutyOut0 ∨ t.dutyOut1 ≠ s.dutyOut1) → i = .apply ∨ (i = .step ∧ s.upc = 7)) ∧
    (t.upc ≠ s.upc → i = .step ∨ ∃ n, i = .tick n) ∧
    ((t.sleeping ≠ s.sleeping ∨ t.sleepCnt ≠ s.sleepCnt) →
      i = .sleep ∨ (i = .step ∧ s.upc = 9) ∨ ∃ n, i = .tick n) ∧
    (t.adcIn ≠ s.adcIn → ∃ x y, i = .adc x y) ∧
    (t.out ≠ s.out → i = .fbFlush ∨ i = .diag ∨ (∃ a, i = .read a) ∨ (i = .step ∧ (s.upc = 6 ∨ s.upc = 8)))

/-- R271: `DUTY` reads only `leds_enabled`, `FB_BORDER` only `border_visible`, and the other micro-ops no flag. -/
def Obligations.MicroOpsReadOnlyTheirFlag : Prop :=
  ∀ (s : State) (leds border : Bool),
    (∀ i ∈ [Instr.sample, .coord, .fbClear, .fbCursor, .fbFlush, .apply, .diag, .sleep],
      ∃ t, exec i s = .next t ∧
        exec i { s with ledsEnabled := leds, borderVisible := border } =
          .next { t with ledsEnabled := leds, borderVisible := border }) ∧
    (∃ t, exec .duty s = .next t ∧ exec .duty { s with borderVisible := border } =
      .next { t with borderVisible := border }) ∧
    ∃ t, exec .fbBorder s = .next t ∧ exec .fbBorder { s with ledsEnabled := leds } =
      .next { t with ledsEnabled := leds }

/-! ### TICK (R128) -/

/-- R128's closed form: what `TICK n` writes, awake, in a sleep that goes on, and in a sleep that ends. -/
def Obligations.TickAdvancesTimeAndEndsTheSleep : Prop :=
  ∀ (n : BitVec 16) (s : State), configValid s.cfg = true →
    ∃ now : Word, now.toNat = (s.nowMs.toNat + n.toNat) % 2 ^ s.cfg.tsWidth ∧
      (s.sleeping = false → exec (.tick n) s = .next { s with nowMs := now }) ∧
      (s.sleeping = true → n.toNat < s.sleepCnt.toNat →
        ∃ c : BitVec 7, c.toNat = s.sleepCnt.toNat - n.toNat ∧
          exec (.tick n) s = .next { s with nowMs := now, sleepCnt := c }) ∧
      (s.sleeping = true → 1 ≤ s.sleepCnt.toNat → s.sleepCnt.toNat ≤ n.toNat →
        exec (.tick n) s = .next { s with nowMs := now, sleeping := false, sleepCnt := 0, upc := 0 })

/-- R128: `TICK n` is exactly `n` single ticks in a row, `TICK 0` a hold, and a single tick is the loop body. The
premises are the part of R42's invariant about `now_ms` and the sleep. -/
def Obligations.TickIsThatManySingleTicks : Prop :=
  (∀ (n : BitVec 16) (s : State), configValid s.cfg = true → timeFits s.cfg s.nowMs = true →
    (s.sleeping = true → 1 ≤ s.sleepCnt.toNat) →
    runInstrs (List.replicate n.toNat (.tick 1)) s = exec (.tick n) s) ∧
  ∀ s : State, configValid s.cfg = true → timeFits s.cfg s.nowMs = true → exec (.tick 0) s = .next s

/-! ### The sequencer (44_cycle_sequencer.md) -/

/-- R261: an awake `STEP` performs the micro-op that `ROM[upc]` names, and then advances `upc`, except after `SLEEP`. -/
def Obligations.StepPerformsTheMicroOpAtUpc : Prop :=
  ∀ s : State, s.sleeping = false → s.upc.toNat ≤ 9 →
    ∃ (code : BitVec 4) (i : Instr) (t : State), rom s.upc = some code ∧ decodeUop code = .ok i ∧ exec i s = .next t ∧
      exec .step s = .next { t with upc := if s.upc = 9 then t.upc else t.upc + 1 }

/-- R262: micro-op `i` in [0, 8] leaves `upc` at `i + 1`, `SLEEP` leaves it, the wake-up of `TICK` writes 0, and no
other transaction writes it; it never wraps. -/
def Obligations.UpcIsWrittenOnlyByStepAndTheWakeUp : Prop :=
  (∀ s : State, s.sleeping = false → s.upc.toNat ≤ 8 →
    ∃ t, exec .step s = .next t ∧ t.upc.toNat = s.upc.toNat + 1) ∧
  (∀ s : State, s.sleeping = false → s.upc = 9 → ∃ t, exec .step s = .next t ∧ t.upc = 9) ∧
  ∀ (i : Instr) (s t : State), exec i s = .next t → t.upc ≠ s.upc →
    (i = .step ∧ s.sleeping = false ∧ s.upc.toNat ≤ 8) ∨
      ∃ n, i = .tick n ∧ s.sleeping = true ∧ s.sleepCnt.toNat ≤ n.toNat ∧ t.sleeping = false ∧ t.upc = 0

/-- R266: while sleeping, `STEP` changes nothing; the sleep goes on until `sleep_cnt` milliseconds have ticked. -/
def Obligations.SleepHoldsUntilItsTicks : Prop :=
  ∀ s : State, s.sleeping = true →
    exec .step s = .next s ∧
    ∀ n : BitVec 16, 1 ≤ s.sleepCnt.toNat →
      ∃ t, exec (.tick n) s = .next t ∧ (t.sleeping = false ↔ s.sleepCnt.toNat ≤ n.toNat)

/-- The model's stop of log entry 8: where the ROM has no entry, which R38 says is never reached, `STEP` faults. -/
def Obligations.StepOutsideTheRomFaults : Prop :=
  ∀ s : State, s.sleeping = false → 10 ≤ s.upc.toNat → exec .step s = .fault .upcOutsideRom

/-- R264: `ADC x, y` sets the environment's value and nothing of the block. -/
def Obligations.AdcPresentsASample : Prop :=
  ∀ (x y : Sample) (s : State), exec (.adc x y) s = .next { s with adcIn := some (x, y) }

/-- R263: `SAMPLE` takes both axes of the pair presented. -/
def Obligations.SampleTakesThePresentedPair : Prop :=
  ∀ (x y : Sample) (s : State), s.adcIn = some (x, y) → exec .sample s = .next { s with smpX := x, smpY := y }

/-- R33: before the first `ADC` transaction `SAMPLE` completes too, with some pair the statement does not name; the
model counts the draw (log entry 6). -/
def Obligations.SampleBeforeTheFirstAdcDraws : Prop :=
  ∀ s : State, s.adcIn = none →
    ∃ x y : Sample, exec .sample s = .next { s with smpX := x, smpY := y, draws := s.draws + 1 }

/-- R270: `DIAG` offers the record `{smp_x, smp_y, duty_next[0], duty_next[1]}`; it is delivered or lost, and nothing
else changes but the model's count of draws (log entry 7). On the ports `diag_valid` is 1 with the record in the clock
that performs `DIAG`, delivered or lost, and in no other clock; that it is this clock and not a later one is log entry
18. -/
def Obligations.DiagRecordIsDeliveredOrLost : Prop :=
  ∀ s : State, ∃ d : BitVec 56,
    (d.extractLsb' 44 12 = s.smpX ∧ d.extractLsb' 32 12 = s.smpY ∧ d.extractLsb' 16 16 = s.dutyNext0 ∧
      d.extractLsb' 0 16 = s.dutyNext1) ∧
    (exec .diag s = .next { s with draws := s.draws + 1, out := s.out ++ [.diag d] } ∨
      exec .diag s = .next { s with draws := s.draws + 1 }) ∧
    ∀ (c : ClockIn) (t : State), BlockInv s →
      (clockOut s c t).diag =
        if c.rst = false ∧ c.seqStep = true ∧ s.sleeping = false ∧ s.upc = 8 then some d else none

/-- R265: `SLEEP` starts a sleep of 100 ms and leaves `upc`. -/
def Obligations.SleepStartsAHundredMilliseconds : Prop :=
  ∀ s : State, exec .sleep s = .next { s with sleeping := true, sleepCnt := 100 }

/-! ### The mapper (41_deadzone_axis_mapper.md) and the driver (42_pwm_duty_driver.md) -/

/-- R168 with R161's closed forms and R167's widths: with the LEDs enabled, both duties are exact, channel 0 from X and
channel 1 from Y, and nothing else is written. -/
def Obligations.EnabledDutyFollowsTheDeadzoneRule : Prop :=
  ∀ s : State, configValid s.cfg = true → s.ledsEnabled = true →
    ∃ d0 d1 : Duty, exec .duty s = .next { s with dutyNext0 := d0, dutyNext1 := d1 } ∧
      d0.toNat = dutyByRule s.cfg s.smpX.toNat ∧ d1.toNat = dutyByRule s.cfg s.smpY.toNat

/-- R168, R202: with the LEDs disabled both duties are forced to 0, whatever the samples are. -/
def Obligations.DisabledDutyIsZero : Prop :=
  ∀ s : State, s.ledsEnabled = false → exec .duty s = .next { s with dutyNext0 := 0, dutyNext1 := 0 }

/-- R162: range, deadzone, monotonicity, ends and rounding of `mapAxis`, for every valid configuration. -/
def Obligations.MapAxisProperties : Prop :=
  ∀ c : Config, configValid c = true →
    let lo := c.center - c.deadzone
    let hi := c.center + c.deadzone
    (∀ r : Nat, r ≤ 4095 → 0 ≤ mapAxis c r ∧ mapAxis c r ≤ c.wrap) ∧
    (∀ r : Nat, lo ≤ r → r ≤ hi → mapAxis c r = 0) ∧
    (∀ r r' : Nat, r ≤ r' → r' ≤ lo - 1 → mapAxis c r' ≤ mapAxis c r) ∧
    (∀ r r' : Nat, hi + 1 ≤ r → r ≤ r' → r' ≤ 4095 → mapAxis c r ≤ mapAxis c r') ∧
    (mapAxis c 0 = c.wrap ∧ mapAxis c 4095 = c.wrap) ∧
    (1 ≤ c.wrap → mapAxis c ((lo - 1 : Nat) : Int) = (((c.wrap + lo - 1) / lo : Nat) : Int) ∧
      1 ≤ mapAxis c ((lo - 1 : Nat) : Int)) ∧
    mapAxis c ((hi + 1 : Nat) : Int) = ((c.wrap / (4095 - hi) : Nat) : Int) ∧
    (c.wrap < 4095 - hi → mapAxis c ((hi + 1 : Nat) : Int) = 0) ∧
    (c.wrap = 4095 → lo = 1848 → mapAxis c 1 = 4093)

/-- R169 with R163, R164 and R165: `COORD` writes the mapped and overridden position, and nothing else. -/
def Obligations.CoordMapsAndOverrides : Prop :=
  ∀ s : State, ∃ (x : BitVec 7) (y : BitVec 6), exec .coord s = .next { s with curX := x, curY := y } ∧
    x.toNat = columnByRule s.smpX.toNat ∧ y.toNat = rowByRule s.smpY.toNat

/-- R166: the values `COORD` writes, the samples that give the listed ones, and that each value is taken. -/
def Obligations.CoordWritesExactlyTheReachableValues : Prop :=
  (∀ s : State, ∃ (x : BitVec 7) (y : BitVec 6), exec .coord s = .next { s with curX := x, curY := y } ∧
    ((1 ≤ x.toNat ∧ x.toNat ≤ 117) ∨ x.toNat = 119) ∧
    (x.toNat = 4 ↔ s.smpX.toNat ≤ 34 ∨ (138 ≤ s.smpX.toNat ∧ s.smpX.toNat ≤ 172)) ∧
    (x.toNat = 116 ↔ (3992 ≤ s.smpX.toNat ∧ s.smpX.toNat ≤ 4026) ∨ (4061 ≤ s.smpX.toNat ∧ s.smpX.toNat ≤ 4094)) ∧
    (x.toNat = 119 ↔ s.smpX.toNat = 4095) ∧
    ((1 ≤ x.toNat ∧ x.toNat ≤ 3) ↔ (35 ≤ s.smpX.toNat ∧ s.smpX.toNat ≤ 137)) ∧
    (x.toNat = 117 ↔ (4027 ≤ s.smpX.toNat ∧ s.smpX.toNat ≤ 4060)) ∧
    (y.toNat = 0 ∨ (2 ≤ y.toNat ∧ y.toNat ≤ 54)) ∧
    (y.toNat = 52 ↔ s.smpY.toNat ≤ 74 ∨ (224 ≤ s.smpY.toNat ∧ s.smpY.toNat ≤ 297)) ∧
    (y.toNat = 4 ↔ (3798 ≤ s.smpY.toNat ∧ s.smpY.toNat ≤ 3871) ∨ (4021 ≤ s.smpY.toNat ∧ s.smpY.toNat ≤ 4094)) ∧
    (y.toNat = 0 ↔ s.smpY.toNat = 4095) ∧
    ((y.toNat = 2 ∨ y.toNat = 3) ↔ (3872 ≤ s.smpY.toNat ∧ s.smpY.toNat ≤ 4020)) ∧
    ((y.toNat = 53 ∨ y.toNat = 54) ↔ (75 ≤ s.smpY.toNat ∧ s.smpY.toNat ≤ 223))) ∧
  (∀ (s : State) (v : Nat), ((1 ≤ v ∧ v ≤ 117) ∨ v = 119) →
    ∃ (r : Sample) (t : State), exec .coord { s with smpX := r } = .next t ∧ t.curX.toNat = v) ∧
  ∀ (s : State) (v : Nat), (v = 0 ∨ (2 ≤ v ∧ v ≤ 54)) →
    ∃ (r : Sample) (t : State), exec .coord { s with smpY := r } = .next t ∧ t.curY.toNat = v

/-- R201: `APPLY` copies both duties to the outputs at once, whatever the flags are. -/
def Obligations.ApplyCopiesBothDuties : Prop :=
  ∀ s : State, exec .apply s = .next { s with dutyOut0 := s.dutyNext0, dutyOut1 := s.dutyNext1 }

/-! ### The compositor (43_framebuffer_compositor.md) -/

/-- R221: after `FB_CLEAR` every pixel is off, and `fb` does not depend on what it held. -/
def Obligations.ClearForgetsTheFrame : Prop :=
  ∃ m : Memory, m.wf = true ∧ Shows m (fun _ _ => false) ∧ ∀ s : State, exec .fbClear s = .next { s with fb := m }

/-- R225, R226, R227: `FB_BORDER` sets the pixels of the border that `border_visible` selects, clears none, and writes
nothing but `fb`. -/
def Obligations.BorderSetsItsPixelsAndClearsNone : Prop :=
  ∀ s : State, s.fb.wf = true →
    ∃ m : Memory, m.wf = true ∧ exec .fbBorder s = .next { s with fb := m } ∧
      Shows m fun x y => s.fb.pix x y || borderLit s.borderVisible x y

/-- R228: on a cleared frame the plain border lights 380 pixels, the segmented one 196, of which 72 are on row 0, 72
on row 63, and 26 more on each of columns 0 and 127; the two frames differ. -/
def Obligations.BorderPixelCounts : Prop :=
  ∀ s : State, s.fb.wf = true → (Shows s.fb fun _ _ => false) →
    ∃ plain segmented : Memory,
      exec .fbBorder { s with borderVisible := false } = .next { s with borderVisible := false, fb := plain } ∧
      exec .fbBorder { s with borderVisible := true } = .next { s with borderVisible := true, fb := segmented } ∧
      litIn plain (List.range 128) (List.range 64) = 380 ∧
      litIn segmented (List.range 128) (List.range 64) = 196 ∧
      litIn segmented (List.range 128) [0] = 72 ∧ litIn segmented (List.range 128) [63] = 72 ∧
      litIn segmented [0] (List.range' 1 62) = 26 ∧ litIn segmented [127] (List.range' 1 62) = 26 ∧
      plain ≠ segmented

/-- R229, R224: `FB_CURSOR` sets the 64 pixels from `(cur_x, cur_y)` on, those outside the canvas left out, clears
none, and writes nothing but `fb`. -/
def Obligations.CursorSetsItsBlock : Prop :=
  ∀ s : State, s.fb.wf = true →
    ∃ m : Memory, m.wf = true ∧ exec .fbCursor s = .next { s with fb := m } ∧
      Shows m fun x y => s.fb.pix x y || cursorLit s.curX.toNat s.curY.toNat x y

/-- R234, R62: `FB_FLUSH` appends one `FRAME` of the 1024 bytes in increasing index, and writes no state. -/
def Obligations.FlushEmitsTheWholeFrame : Prop :=
  ∀ s : State, ∃ bytes : List Byte,
    exec .fbFlush s = .next { s with out := s.out ++ [.frame bytes] } ∧ bytes.length = 1024 ∧
      (∀ b, b < 1024 → bytes.getD b 0 = s.fb.readByte b) ∧
      ∀ x y, x ≤ 127 → y ≤ 63 → (bytes.getD (y / 8 * 128 + x) 0).getLsbD (y % 8) = s.fb.pix x y

/-- R61: bit `k` of byte `b` is `pix(b mod 128, 8·(b div 128) + k)`, and `pix(x, y)` is bit `y mod 8` of byte
`(y div 8)·128 + x`. -/
def Obligations.FramebufferBytesArePageMajor : Prop :=
  ∀ m : Memory,
    (∀ b k, b < 1024 → k < 8 → (m.readByte b).getLsbD k = m.pix (b % 128) (8 * (b / 128) + k)) ∧
    ∀ x y, x ≤ 127 → y ≤ 63 → m.pix x y = (m.readByte (y / 8 * 128 + x)).getLsbD (y % 8)

/-! ### The debug port (45_debug_port.md) -/

/-- R290: `READ` completes at every address, appends one `RDATA` event and writes no state; the same address read
twice gives the same value. -/
def Obligations.ReadAnswersEveryAddressWithoutSideEffect : Prop :=
  ∀ (s : State) (a : DebugAddr), ∃ v : Word,
    exec (.read a) s = .next { s with out := s.out ++ [.rdata a v] } ∧
      runInstrs [.read a, .read a] s = .next { s with out := s.out ++ [.rdata a v, .rdata a v] }

/-- R291: what the status and configuration registers read. -/
def Obligations.StatusAndConfigurationRegisters : Prop :=
  ∀ s : State, configValid s.cfg = true →
    ReadsAs s 0x000 (asBit s.ledsEnabled + 2 * asBit s.borderVisible) ∧
    ReadsAs s 0x001 s.nowMs.toNat ∧
    ReadsAs s 0x002 s.line0.lastTs.toNat ∧
    ReadsAs s 0x003 s.line1.lastTs.toNat ∧
    ReadsAs s 0x004 (asBit s.line0.lvl + 2 * asBit s.line1.lvl) ∧
    ReadsAs s 0x005 (s.smpX.toNat + 2 ^ 16 * s.smpY.toNat) ∧
    ReadsAs s 0x006 (s.dutyNext0.toNat + 2 ^ 16 * s.dutyNext1.toNat) ∧
    ReadsAs s 0x007 (s.dutyOut0.toNat + 2 ^ 16 * s.dutyOut1.toNat) ∧
    ReadsAs s 0x008 (s.curX.toNat + 2 ^ 8 * s.curY.toNat) ∧
    ReadsAs s 0x009 (s.upc.toNat + 2 ^ 4 * asBit s.sleeping + 2 ^ 8 * s.sleepCnt.toNat) ∧
    ReadsAs s 0x00A (s.cfg.center + 2 ^ 16 * s.cfg.deadzone) ∧
    ReadsAs s 0x00B (s.cfg.wrap + 2 ^ 16 * s.cfg.tsWidth)

/-- R292, R64: debug word `0x100 + k` is the framebuffer bytes `4k` to `4k + 3`, byte `4k` lowest. -/
def Obligations.FramebufferWindowIsLittleEndian : Prop :=
  ∀ (s : State) (k : Nat), k ≤ 255 →
    ReadsAs s (BitVec.ofNat 10 (0x100 + k))
      ((s.fb.readByte (4 * k)).toNat + 2 ^ 8 * (s.fb.readByte (4 * k + 1)).toNat +
        2 ^ 16 * (s.fb.readByte (4 * k + 2)).toNat + 2 ^ 24 * (s.fb.readByte (4 * k + 3)).toNat)

/-- R295: a run with its `READ` transactions removed ends in the same state with the same `FRAME` and `DIAG` events, and
so do the clocks of the hardware with their debug requests removed. -/
def Obligations.ReadsCanBeRemovedFromARun : Prop :=
  (∀ (ws : List Word) (s t : State), Quiet s → s.inputs = [] → Runs ws.length (s.load ws) t →
    ∃ u, Runs (withoutReads ws).length (s.load (withoutReads ws)) u ∧ t = { u with out := t.out } ∧
      withoutRdata u.out = withoutRdata t.out) ∧
  ∀ (cs : List ClockIn) (rest : List Input) (s t : State), s.inputs = cs.map .clock ++ rest → Runs cs.length s t →
    ∃ u, Runs cs.length { s with inputs := cs.map (fun c => .clock c.withoutRequest) ++ rest } u ∧
      t = { u with out := t.out, waiting := t.waiting } ∧ withoutRdata u.out = withoutRdata t.out

/-! ### Invariants -/

/-- Every valid instantiation, powered on with any framebuffer, meets the invariants of R42 and of the frame. -/
def Obligations.PowerOnMeetsTheInvariants : Prop :=
  ∀ (c : Config) (fb : Memory), configValid c = true → fb.wf = true →
    BlockInv (State.powerOn c fb) ∧ FrameInv (State.powerOn c fb)

/-- R42: every step, whatever the input, keeps the invariant. -/
def Obligations.StepKeepsTheInvariant : Prop :=
  ∀ s t : State, BlockInv s → step s = .next t → BlockInv t

/-- R42's line on timestamps: a step in which `now_ms` does not wrap, or a reset, lets no timestamp pass it. -/
def Obligations.TimestampsDoNotPassTheClock : Prop :=
  ∀ (l : Line) (s t : State), BlockInv s → (s.chan l).lastTs.toNat ≤ s.nowMs.toNat → step s = .next t →
    (s.nowMs.toNat ≤ t.nowMs.toNat ∨ ∃ rest, s.inputs = .reset :: rest) →
    (t.chan l).lastTs.toNat ≤ t.nowMs.toNat

/-- R233, R235: every step keeps what the framebuffer holds at each point of an iteration, so every emitted frame is
one whole border and one cursor block at a place `COORD` can write, never a partly built one. -/
def Obligations.StepEmitsOnlyWholeFrames : Prop :=
  ∀ s t : State, BlockInv s → FrameInv s → step s = .next t → FrameInv t

/-- R43: the output record only grows, by events appended at its end. -/
def Obligations.OutputRecordIsAppendOnly : Prop :=
  ∀ s t : State, step s = .next t → ∃ es, t.out = s.out ++ es

/-- R310: the refused mark, once set, stays for the rest of the run, resets included, and only a refused word sets it. -/
def Obligations.RefusedMarkStaysForTheRun : Prop :=
  ∀ s t : State, step s = .next t →
    (∀ r, s.refusedMark = some r → t.refusedMark = some r) ∧
    (s.refusedMark = none → ∀ r, t.refusedMark = some r →
      ∃ w rest, s.inputs = .txn w :: rest ∧ decodeWord w = .error r)

/-! ### The clocked hardware (70_reset_and_hazards.md) -/

/-- R351, R352, R294, R353: what one clock without `rst` does.
* With no micro-op in progress, and none that takes several clocks beginning, it is its transactions in the order
  `READ < STEP < LEVEL 0 < LEVEL 1 < TICK`, the oldest debug request answered, the lines evaluated against the second
  synchroniser flop, which then shifts.
* A micro-op of several clocks begins: the clock takes the flags and is otherwise what it is without a `STEP`, so
  nothing of the micro-op is written yet and the record gains at most a debug answer.
* While it goes on, a request to step is ignored and a debug request waits; the other agents act as ever.
* Over all its clocks it is one `STEP` placed at its first clock.
That the analog pins are presented before the `STEP` is the model's reading (log entry 11), and that each
clock with `dbg_req = 1` brings one request and one waiting request is answered a clock its choice (log entry 17). -/
def Obligations.ClockIsItsTransactionsInOrder : Prop :=
  (∀ (s : State) (c : ClockIn) (rest : List Input), configValid s.cfg = true → s.inputs = .clock c :: rest →
    c.rst = false → s.inProgress = none →
    ((c.seqStep = true → s.sleeping = true ∨ clocksOf s.upc c.opClocks = 1) →
      step s =
        andThen (match s.waiting ++ c.dbgReq.toList with
          | a :: later => exec (.read a) { s with inputs := rest, waiting := later }
          | [] => .next { s with inputs := rest }) fun s1 =>
        andThen (exec (.adc c.adcX c.adcY) s1) fun s2 =>
        andThen (if c.seqStep then exec .step s2 else .next s2) fun s3 =>
        andThen (exec (.level .line0 s.line0.sync2) s3) fun s4 =>
        andThen (exec (.level .line1 s.line1.sync2) s4) fun s5 =>
        andThen (if c.msTick then exec (.tick 1) s5 else .next s5) fun s6 =>
        .next { s6 with
          line0 := { s6.line0 with sync2 := s.line0.sync1, sync1 := c.btn0 }
          line1 := { s6.line1 with sync2 := s.line1.sync1, sync1 := c.btn1 } }) ∧
    (c.seqStep = true → s.sleeping = false → 1 < clocksOf s.upc c.opClocks →
      step s =
        (andThen (match s.waiting ++ c.dbgReq.toList with
          | a :: later => exec (.read a) { s with inputs := rest, waiting := later }
          | [] => .next { s with inputs := rest }) fun s1 =>
        andThen (exec (.adc c.adcX c.adcY) s1) fun s2 =>
        andThen (exec (.level .line0 s.line0.sync2)
          { s2 with
            inProgress :=
              some { total := clocksOf s.upc c.opClocks, done := 1, leds := s.ledsEnabled, border := s.borderVisible } })
          fun s3 =>
        andThen (exec (.level .line1 s.line1.sync2) s3) fun s4 =>
        andThen (if c.msTick then exec (.tick 1) s4 else .next s4) fun s5 =>
        .next { s5 with
          line0 := { s5.line0 with sync2 := s.line0.sync1, sync1 := c.btn0 }
          line1 := { s5.line1 with sync2 := s.line1.sync1, sync1 := c.btn1 } }) ∧
      ∃ (t : State) (answers : List Event), step s = .next t ∧ t.upc = s.upc ∧ t.sleeping = false ∧ t.fb = s.fb ∧
        t.dutyNext0 = s.dutyNext0 ∧ t.dutyNext1 = s.dutyNext1 ∧ t.dutyOut0 = s.dutyOut0 ∧ t.dutyOut1 = s.dutyOut1 ∧
        t.smpX = s.smpX ∧ t.smpY = s.smpY ∧ t.curX = s.curX ∧ t.curY = s.curY ∧
        t.out = s.out ++ answers ∧ withoutRdata answers = [] ∧
        t.inProgress =
          some { total := clocksOf s.upc c.opClocks, done := 1, leds := s.ledsEnabled, border := s.borderVisible })) ∧
  (∀ (s : State) (c : ClockIn) (m : MicroOp) (rest : List Input), configValid s.cfg = true →
    s.inputs = .clock c :: rest → c.rst = false → s.inProgress = some m → m.done + 1 < m.total →
    step s =
      andThen (exec (.adc c.adcX c.adcY)
        { s with
          inputs := rest, inProgress := some { m with done := m.done + 1 }
          waiting := s.waiting ++ c.dbgReq.toList }) fun s1 =>
      andThen (exec (.level .line0 s.line0.sync2) s1) fun s2 =>
      andThen (exec (.level .line1 s.line1.sync2) s2) fun s3 =>
      andThen (if c.msTick then exec (.tick 1) s3 else .next s3) fun s4 =>
      .next { s4 with
        line0 := { s4.line0 with sync2 := s.line0.sync1, sync1 := c.btn0 }
        line1 := { s4.line1 with sync2 := s.line1.sync1, sync1 := c.btn1 } }) ∧
  ∀ (s t : State) (c : ClockIn) (cs : List ClockIn) (rest : List Input), configValid s.cfg = true →
    s.inputs = .clock c :: (cs.map .clock ++ rest) → s.inProgress = none → s.sleeping = false → c.seqStep = true →
    c.rst = false → (∀ d ∈ cs, d.rst = false) → cs.length + 1 = clocksOf s.upc c.opClocks →
    (Runs (cs.length + 1) s t ↔
      andThen (clockWith (debugClock c) (exec .step) c { s with inputs := rest }) (idleClocks cs) = .next t)

/-- R351: a `SLEEP` in a clock with `ms_tick` leaves `sleep_cnt = 99`, and a `STEP` in the clock of a sleep's last tick
is still a hold: the sequencer wakes at `upc = 0` with no sample taken. -/
def Obligations.SleepAndTickInOneClock : Prop :=
  ∀ (s : State) (c : ClockIn) (rest : List Input), configValid s.cfg = true → s.inputs = .clock c :: rest →
    c.rst = false → c.seqStep = true → c.msTick = true → s.inProgress = none →
    (s.sleeping = false → s.upc = 9 → ∃ t, step s = .next t ∧ t.sleeping = true ∧ t.sleepCnt = 99 ∧ t.upc = 9) ∧
    (s.sleeping = true → s.sleepCnt = 1 →
      ∃ t, step s = .next t ∧ t.sleeping = false ∧ t.upc = 0 ∧ t.smpX = s.smpX ∧ t.smpY = s.smpY)

/-- R353: a level that `sync1` captures in one clock reaches `sync2` in the next and `lvl` in the one after. -/
def Obligations.SynchroniserTakesTwoClocks : Prop :=
  ∀ (s t : State) (c1 c2 c3 : ClockIn) (rest : List Input),
    s.inputs = .clock c1 :: .clock c2 :: .clock c3 :: rest →
    c1.rst = false → c2.rst = false → c3.rst = false → Runs 3 s t →
    (t.line0.lvl = c1.btn0 ∧ t.line0.sync2 = c2.btn0 ∧ t.line0.sync1 = c3.btn0) ∧
    (t.line1.lvl = c1.btn1 ∧ t.line1.sync2 = c2.btn1 ∧ t.line1.sync1 = c3.btn1)

/-- R340: a clock with `rst` performs no transaction, resets the block, and drives the outputs low. A micro-op in
progress is abandoned: nothing of it is written, and a stream it cuts short leaves no `FRAME`. -/
def Obligations.ResetClockPerformsNoTransaction : Prop :=
  ∀ (s : State) (c : ClockIn) (rest : List Input), configValid s.cfg = true → s.inputs = .clock c :: rest →
    c.rst = true →
    ∃ t, step s = .next t ∧ step { s with inputs := .reset :: rest } = .next t ∧
      clockOut s c t = { pwmDuty0 := 0, pwmDuty1 := 0, disp := none, diag := none, dbg := none } ∧
      t.inProgress = none ∧ t.fb = s.fb ∧ t.out = s.out ∧ t.displayed = s.displayed

/-- R62, R352, R200: the 1024 clocks of `FB_FLUSH` carry bytes 0 to 1023 in order, `disp_sof` on byte 0 only, and the
duty ports carry `duty_out`; then the `FRAME` of these bytes is emitted. The clock input is log entry 11, the
clock in which a port shows its byte log entry 18. -/
def Obligations.FlushClockStreamsTheFrame : Prop :=
  ∀ (s : State) (cs : List ClockIn) (rest : List Input), configValid s.cfg = true →
    s.inputs = cs.map .clock ++ rest → cs.length = 1024 → (∀ c ∈ cs, c.rst = false) →
    (∀ c ∈ cs.head?, c.seqStep = true) → s.inProgress = none → s.sleeping = false → s.upc = 6 →
    ∃ (t : State) (bytes : List Byte) (answers : List Event), Runs 1024 s t ∧ t.inProgress = none ∧ t.upc = 7 ∧
      t.fb = s.fb ∧ t.out = s.out ++ answers ++ [.frame bytes] ∧ withoutRdata answers = [] ∧ bytes.length = 1024 ∧
      ∀ b, b < 1024 → bytes.getD b 0 = s.fb.readByte b ∧
        ∃ (c : ClockIn) (u v : State), cs[b]? = some c ∧ Runs b s u ∧ step u = .next v ∧
          (clockOut u c v).disp = some { data := bytes.getD b 0, sof := b == 0 } ∧
          (clockOut u c v).pwmDuty0 = s.dutyOut0 ∧ (clockOut u c v).pwmDuty1 = s.dutyOut1

/-! ### Whole iterations and the assembler (30_encoding.md R92, R93) -/

/-- R93: `ITER` from `upc = 0`, awake, performs one whole iteration and ends with `upc = 0`, awake, 100 ms later. The
iteration takes the presented pair, delivers duties that are 0 where the LEDs were disabled, and emits one frame with
the border that the flag selects and the cursor at the position of the pair; its diagnostic record may be lost. -/
def Obligations.IterPerformsOneWholeIteration : Prop :=
  ∀ (s : State) (ws : List Word) (rest : List Input) (x y : Sample), BlockInv s → Quiet s → s.upc = 0 → s.sleeping = false →
    s.adcIn = some (x, y) → assemble .iter = some ws → s.inputs = ws.map .txn ++ rest →
    ∃ t, Runs ws.length s t ∧ t.inputs = rest ∧ t.upc = 0 ∧ t.sleeping = false ∧ t.sleepCnt = 0 ∧
      t.nowMs.toNat = (s.nowMs.toNat + 100) % 2 ^ s.cfg.tsWidth ∧
      t.line0 = s.line0 ∧ t.line1 = s.line1 ∧ t.ledsEnabled = s.ledsEnabled ∧ t.borderVisible = s.borderVisible ∧
      t.smpX = x ∧ t.smpY = y ∧
      t.curX.toNat = columnByRule x.toNat ∧ t.curY.toNat = rowByRule y.toNat ∧
      t.dutyOut0.toNat = (if s.ledsEnabled then dutyByRule s.cfg x.toNat else 0) ∧
      t.dutyOut1.toNat = (if s.ledsEnabled then dutyByRule s.cfg y.toNat else 0) ∧
      ∃ bytes, bytes.length = 1024 ∧
        (∀ px py, px ≤ 127 → py ≤ 63 → (bytes.getD (py / 8 * 128 + px) 0).getLsbD (py % 8) =
          (borderLit s.borderVisible px py || cursorLit (columnByRule x.toNat) (rowByRule y.toNat) px py)) ∧
        (t.out = s.out ++ [.frame bytes] ∨
          t.out = s.out ++ [.frame bytes, .diag (x ++ y ++ t.dutyOut0 ++ t.dutyOut1)])

/-- R93: `WAIT n` lets exactly `n` milliseconds pass and, while the sequencer is awake, changes nothing else. -/
def Obligations.WaitLetsExactlyItsMillisecondsPass : Prop :=
  ∀ (s : State) (n : Nat) (ws : List Word) (rest : List Input), BlockInv s → Quiet s → s.sleeping = false →
    assemble (.wait n) = some ws → s.inputs = ws.map .txn ++ rest →
    ∃ now : Word, now.toNat = (s.nowMs.toNat + n) % 2 ^ s.cfg.tsWidth ∧
      Runs ws.length s { s with nowMs := now, inputs := rest }

/-- R92: the word of each assembler line, and no word for an operand outside its range. -/
def Obligations.AssemblerWords : Prop :=
  (∀ l v, assemble (.level l v) =
    if l ≤ 1 ∧ v ≤ 1 then some [BitVec.ofNat 32 (0x10000000 + l * 2 ^ 8 + v)] else none) ∧
  (∀ n, assemble (.tick n) = if n ≤ 65535 then some [BitVec.ofNat 32 (0x20000000 + n)] else none) ∧
  (∀ x y, assemble (.adc x y) =
    if x ≤ 4095 ∧ y ≤ 4095 then some [BitVec.ofNat 32 (0x30000000 + x * 2 ^ 12 + y)] else none) ∧
  assemble .step = some [0x40000000] ∧
  ∀ a, assemble (.read a) = if a ≤ 0x3FF then some [BitVec.ofNat 32 (0x50000000 + a)] else none
end

