-- ==== Sys2Proof/Laws/State.lean ====
section
/-! SUPPORT. Each field after each named update of the state, so that no later proof unfolds one. -/

namespace Sys2Proof.Machine

/-! ### `emit` -/

@[simp] theorem State.emit_nowMs (s : State) (e : Event) : (s.emit e).nowMs = s.nowMs := rfl
@[simp] theorem State.emit_line0 (s : State) (e : Event) : (s.emit e).line0 = s.line0 := rfl
@[simp] theorem State.emit_line1 (s : State) (e : Event) : (s.emit e).line1 = s.line1 := rfl
@[simp] theorem State.emit_ledsEnabled (s : State) (e : Event) : (s.emit e).ledsEnabled = s.ledsEnabled := rfl
@[simp] theorem State.emit_borderVisible (s : State) (e : Event) : (s.emit e).borderVisible = s.borderVisible := rfl
@[simp] theorem State.emit_smpX (s : State) (e : Event) : (s.emit e).smpX = s.smpX := rfl
@[simp] theorem State.emit_smpY (s : State) (e : Event) : (s.emit e).smpY = s.smpY := rfl
@[simp] theorem State.emit_dutyNext0 (s : State) (e : Event) : (s.emit e).dutyNext0 = s.dutyNext0 := rfl
@[simp] theorem State.emit_dutyNext1 (s : State) (e : Event) : (s.emit e).dutyNext1 = s.dutyNext1 := rfl
@[simp] theorem State.emit_dutyOut0 (s : State) (e : Event) : (s.emit e).dutyOut0 = s.dutyOut0 := rfl
@[simp] theorem State.emit_dutyOut1 (s : State) (e : Event) : (s.emit e).dutyOut1 = s.dutyOut1 := rfl
@[simp] theorem State.emit_curX (s : State) (e : Event) : (s.emit e).curX = s.curX := rfl
@[simp] theorem State.emit_curY (s : State) (e : Event) : (s.emit e).curY = s.curY := rfl
@[simp] theorem State.emit_fb (s : State) (e : Event) : (s.emit e).fb = s.fb := rfl
@[simp] theorem State.emit_upc (s : State) (e : Event) : (s.emit e).upc = s.upc := rfl
@[simp] theorem State.emit_sleeping (s : State) (e : Event) : (s.emit e).sleeping = s.sleeping := rfl
@[simp] theorem State.emit_sleepCnt (s : State) (e : Event) : (s.emit e).sleepCnt = s.sleepCnt := rfl
@[simp] theorem State.emit_adcIn (s : State) (e : Event) : (s.emit e).adcIn = s.adcIn := rfl
@[simp] theorem State.emit_out (s : State) (e : Event) : (s.emit e).out = s.out ++ [e] := rfl
@[simp] theorem State.emit_refusedMark (s : State) (e : Event) : (s.emit e).refusedMark = s.refusedMark := rfl
@[simp] theorem State.emit_inProgress (s : State) (e : Event) : (s.emit e).inProgress = s.inProgress := rfl
@[simp] theorem State.emit_waiting (s : State) (e : Event) : (s.emit e).waiting = s.waiting := rfl
@[simp] theorem State.emit_cfg (s : State) (e : Event) : (s.emit e).cfg = s.cfg := rfl
@[simp] theorem State.emit_inputs (s : State) (e : Event) : (s.emit e).inputs = s.inputs := rfl
@[simp] theorem State.emit_draws (s : State) (e : Event) : (s.emit e).draws = s.draws := rfl

/-! ### `markRefused` -/

@[simp] theorem State.markRefused_nowMs (s : State) (r : Reject) : (s.markRefused r).nowMs = s.nowMs := rfl
@[simp] theorem State.markRefused_line0 (s : State) (r : Reject) : (s.markRefused r).line0 = s.line0 := rfl
@[simp] theorem State.markRefused_line1 (s : State) (r : Reject) : (s.markRefused r).line1 = s.line1 := rfl
@[simp] theorem State.markRefused_ledsEnabled (s : State) (r : Reject) : (s.markRefused r).ledsEnabled = s.ledsEnabled := rfl
@[simp] theorem State.markRefused_borderVisible (s : State) (r : Reject) : (s.markRefused r).borderVisible = s.borderVisible := rfl
@[simp] theorem State.markRefused_smpX (s : State) (r : Reject) : (s.markRefused r).smpX = s.smpX := rfl
@[simp] theorem State.markRefused_smpY (s : State) (r : Reject) : (s.markRefused r).smpY = s.smpY := rfl
@[simp] theorem State.markRefused_dutyNext0 (s : State) (r : Reject) : (s.markRefused r).dutyNext0 = s.dutyNext0 := rfl
@[simp] theorem State.markRefused_dutyNext1 (s : State) (r : Reject) : (s.markRefused r).dutyNext1 = s.dutyNext1 := rfl
@[simp] theorem State.markRefused_dutyOut0 (s : State) (r : Reject) : (s.markRefused r).dutyOut0 = s.dutyOut0 := rfl
@[simp] theorem State.markRefused_dutyOut1 (s : State) (r : Reject) : (s.markRefused r).dutyOut1 = s.dutyOut1 := rfl
@[simp] theorem State.markRefused_curX (s : State) (r : Reject) : (s.markRefused r).curX = s.curX := rfl
@[simp] theorem State.markRefused_curY (s : State) (r : Reject) : (s.markRefused r).curY = s.curY := rfl
@[simp] theorem State.markRefused_fb (s : State) (r : Reject) : (s.markRefused r).fb = s.fb := rfl
@[simp] theorem State.markRefused_upc (s : State) (r : Reject) : (s.markRefused r).upc = s.upc := rfl
@[simp] theorem State.markRefused_sleeping (s : State) (r : Reject) : (s.markRefused r).sleeping = s.sleeping := rfl
@[simp] theorem State.markRefused_sleepCnt (s : State) (r : Reject) : (s.markRefused r).sleepCnt = s.sleepCnt := rfl
@[simp] theorem State.markRefused_adcIn (s : State) (r : Reject) : (s.markRefused r).adcIn = s.adcIn := rfl
@[simp] theorem State.markRefused_out (s : State) (r : Reject) : (s.markRefused r).out = s.out := rfl
@[simp] theorem State.markRefused_refusedMark (s : State) (r : Reject) : (s.markRefused r).refusedMark = some (s.refusedMark.getD r) := rfl
@[simp] theorem State.markRefused_inProgress (s : State) (r : Reject) : (s.markRefused r).inProgress = s.inProgress := rfl
@[simp] theorem State.markRefused_waiting (s : State) (r : Reject) : (s.markRefused r).waiting = s.waiting := rfl
@[simp] theorem State.markRefused_cfg (s : State) (r : Reject) : (s.markRefused r).cfg = s.cfg := rfl
@[simp] theorem State.markRefused_inputs (s : State) (r : Reject) : (s.markRefused r).inputs = s.inputs := rfl
@[simp] theorem State.markRefused_draws (s : State) (r : Reject) : (s.markRefused r).draws = s.draws := rfl

/-! ### `setChan` -/

@[simp] theorem State.setChan_nowMs (s : State) (l : Line) (c : Channel) : (s.setChan l c).nowMs = s.nowMs := by cases l <;> rfl
@[simp] theorem State.setChan_ledsEnabled (s : State) (l : Line) (c : Channel) : (s.setChan l c).ledsEnabled = s.ledsEnabled := by cases l <;> rfl
@[simp] theorem State.setChan_borderVisible (s : State) (l : Line) (c : Channel) : (s.setChan l c).borderVisible = s.borderVisible := by cases l <;> rfl
@[simp] theorem State.setChan_smpX (s : State) (l : Line) (c : Channel) : (s.setChan l c).smpX = s.smpX := by cases l <;> rfl
@[simp] theorem State.setChan_smpY (s : State) (l : Line) (c : Channel) : (s.setChan l c).smpY = s.smpY := by cases l <;> rfl
@[simp] theorem State.setChan_dutyNext0 (s : State) (l : Line) (c : Channel) : (s.setChan l c).dutyNext0 = s.dutyNext0 := by cases l <;> rfl
@[simp] theorem State.setChan_dutyNext1 (s : State) (l : Line) (c : Channel) : (s.setChan l c).dutyNext1 = s.dutyNext1 := by cases l <;> rfl
@[simp] theorem State.setChan_dutyOut0 (s : State) (l : Line) (c : Channel) : (s.setChan l c).dutyOut0 = s.dutyOut0 := by cases l <;> rfl
@[simp] theorem State.setChan_dutyOut1 (s : State) (l : Line) (c : Channel) : (s.setChan l c).dutyOut1 = s.dutyOut1 := by cases l <;> rfl
@[simp] theorem State.setChan_curX (s : State) (l : Line) (c : Channel) : (s.setChan l c).curX = s.curX := by cases l <;> rfl
@[simp] theorem State.setChan_curY (s : State) (l : Line) (c : Channel) : (s.setChan l c).curY = s.curY := by cases l <;> rfl
@[simp] theorem State.setChan_fb (s : State) (l : Line) (c : Channel) : (s.setChan l c).fb = s.fb := by cases l <;> rfl
@[simp] theorem State.setChan_upc (s : State) (l : Line) (c : Channel) : (s.setChan l c).upc = s.upc := by cases l <;> rfl
@[simp] theorem State.setChan_sleeping (s : State) (l : Line) (c : Channel) : (s.setChan l c).sleeping = s.sleeping := by cases l <;> rfl
@[simp] theorem State.setChan_sleepCnt (s : State) (l : Line) (c : Channel) : (s.setChan l c).sleepCnt = s.sleepCnt := by cases l <;> rfl
@[simp] theorem State.setChan_adcIn (s : State) (l : Line) (c : Channel) : (s.setChan l c).adcIn = s.adcIn := by cases l <;> rfl
@[simp] theorem State.setChan_out (s : State) (l : Line) (c : Channel) : (s.setChan l c).out = s.out := by cases l <;> rfl
@[simp] theorem State.setChan_refusedMark (s : State) (l : Line) (c : Channel) : (s.setChan l c).refusedMark = s.refusedMark := by cases l <;> rfl
@[simp] theorem State.setChan_inProgress (s : State) (l : Line) (c : Channel) : (s.setChan l c).inProgress = s.inProgress := by cases l <;> rfl
@[simp] theorem State.setChan_waiting (s : State) (l : Line) (c : Channel) : (s.setChan l c).waiting = s.waiting := by cases l <;> rfl
@[simp] theorem State.setChan_cfg (s : State) (l : Line) (c : Channel) : (s.setChan l c).cfg = s.cfg := by cases l <;> rfl
@[simp] theorem State.setChan_inputs (s : State) (l : Line) (c : Channel) : (s.setChan l c).inputs = s.inputs := by cases l <;> rfl
@[simp] theorem State.setChan_draws (s : State) (l : Line) (c : Channel) : (s.setChan l c).draws = s.draws := by cases l <;> rfl

@[simp] theorem State.chan_line0 (s : State) : s.chan .line0 = s.line0 := rfl
@[simp] theorem State.chan_line1 (s : State) : s.chan .line1 = s.line1 := rfl
@[simp] theorem State.setChan_line0 (s : State) (c : Channel) : s.setChan .line0 c = { s with line0 := c } := rfl
@[simp] theorem State.setChan_line1 (s : State) (c : Channel) : s.setChan .line1 c = { s with line1 := c } := rfl

theorem State.chan_setChan (s : State) (l k : Line) (c : Channel) :
    (s.setChan l c).chan k = if k = l then c else s.chan k := by
  cases l <;> cases k <;> rfl

/-! ### `setLvl` -/

@[simp] theorem State.setLvl_nowMs (s : State) (l : Line) (v : Bool) : (s.setLvl l v).nowMs = s.nowMs := by cases l <;> rfl
@[simp] theorem State.setLvl_ledsEnabled (s : State) (l : Line) (v : Bool) : (s.setLvl l v).ledsEnabled = s.ledsEnabled := by cases l <;> rfl
@[simp] theorem State.setLvl_borderVisible (s : State) (l : Line) (v : Bool) : (s.setLvl l v).borderVisible = s.borderVisible := by cases l <;> rfl
@[simp] theorem State.setLvl_smpX (s : State) (l : Line) (v : Bool) : (s.setLvl l v).smpX = s.smpX := by cases l <;> rfl
@[simp] theorem State.setLvl_smpY (s : State) (l : Line) (v : Bool) : (s.setLvl l v).smpY = s.smpY := by cases l <;> rfl
@[simp] theorem State.setLvl_dutyNext0 (s : State) (l : Line) (v : Bool) : (s.setLvl l v).dutyNext0 = s.dutyNext0 := by cases l <;> rfl
@[simp] theorem State.setLvl_dutyNext1 (s : State) (l : Line) (v : Bool) : (s.setLvl l v).dutyNext1 = s.dutyNext1 := by cases l <;> rfl
@[simp] theorem State.setLvl_dutyOut0 (s : State) (l : Line) (v : Bool) : (s.setLvl l v).dutyOut0 = s.dutyOut0 := by cases l <;> rfl
@[simp] theorem State.setLvl_dutyOut1 (s : State) (l : Line) (v : Bool) : (s.setLvl l v).dutyOut1 = s.dutyOut1 := by cases l <;> rfl
@[simp] theorem State.setLvl_curX (s : State) (l : Line) (v : Bool) : (s.setLvl l v).curX = s.curX := by cases l <;> rfl
@[simp] theorem State.setLvl_curY (s : State) (l : Line) (v : Bool) : (s.setLvl l v).curY = s.curY := by cases l <;> rfl
@[simp] theorem State.setLvl_fb (s : State) (l : Line) (v : Bool) : (s.setLvl l v).fb = s.fb := by cases l <;> rfl
@[simp] theorem State.setLvl_upc (s : State) (l : Line) (v : Bool) : (s.setLvl l v).upc = s.upc := by cases l <;> rfl
@[simp] theorem State.setLvl_sleeping (s : State) (l : Line) (v : Bool) : (s.setLvl l v).sleeping = s.sleeping := by cases l <;> rfl
@[simp] theorem State.setLvl_sleepCnt (s : State) (l : Line) (v : Bool) : (s.setLvl l v).sleepCnt = s.sleepCnt := by cases l <;> rfl
@[simp] theorem State.setLvl_adcIn (s : State) (l : Line) (v : Bool) : (s.setLvl l v).adcIn = s.adcIn := by cases l <;> rfl
@[simp] theorem State.setLvl_out (s : State) (l : Line) (v : Bool) : (s.setLvl l v).out = s.out := by cases l <;> rfl
@[simp] theorem State.setLvl_refusedMark (s : State) (l : Line) (v : Bool) : (s.setLvl l v).refusedMark = s.refusedMark := by cases l <;> rfl
@[simp] theorem State.setLvl_inProgress (s : State) (l : Line) (v : Bool) : (s.setLvl l v).inProgress = s.inProgress := by cases l <;> rfl
@[simp] theorem State.setLvl_waiting (s : State) (l : Line) (v : Bool) : (s.setLvl l v).waiting = s.waiting := by cases l <;> rfl
@[simp] theorem State.setLvl_cfg (s : State) (l : Line) (v : Bool) : (s.setLvl l v).cfg = s.cfg := by cases l <;> rfl
@[simp] theorem State.setLvl_inputs (s : State) (l : Line) (v : Bool) : (s.setLvl l v).inputs = s.inputs := by cases l <;> rfl
@[simp] theorem State.setLvl_draws (s : State) (l : Line) (v : Bool) : (s.setLvl l v).draws = s.draws := by cases l <;> rfl

theorem State.chan_setLvl (s : State) (l k : Line) (v : Bool) :
    (s.setLvl l v).chan k = if k = l then { s.chan l with lvl := v } else s.chan k := by
  cases l <;> cases k <;> rfl

/-! ### `toggleFlag` -/

@[simp] theorem State.toggleFlag_nowMs (s : State) (l : Line) : (s.toggleFlag l).nowMs = s.nowMs := by cases l <;> rfl
@[simp] theorem State.toggleFlag_line0 (s : State) (l : Line) : (s.toggleFlag l).line0 = s.line0 := by cases l <;> rfl
@[simp] theorem State.toggleFlag_line1 (s : State) (l : Line) : (s.toggleFlag l).line1 = s.line1 := by cases l <;> rfl
@[simp] theorem State.toggleFlag_smpX (s : State) (l : Line) : (s.toggleFlag l).smpX = s.smpX := by cases l <;> rfl
@[simp] theorem State.toggleFlag_smpY (s : State) (l : Line) : (s.toggleFlag l).smpY = s.smpY := by cases l <;> rfl
@[simp] theorem State.toggleFlag_dutyNext0 (s : State) (l : Line) : (s.toggleFlag l).dutyNext0 = s.dutyNext0 := by cases l <;> rfl
@[simp] theorem State.toggleFlag_dutyNext1 (s : State) (l : Line) : (s.toggleFlag l).dutyNext1 = s.dutyNext1 := by cases l <;> rfl
@[simp] theorem State.toggleFlag_dutyOut0 (s : State) (l : Line) : (s.toggleFlag l).dutyOut0 = s.dutyOut0 := by cases l <;> rfl
@[simp] theorem State.toggleFlag_dutyOut1 (s : State) (l : Line) : (s.toggleFlag l).dutyOut1 = s.dutyOut1 := by cases l <;> rfl
@[simp] theorem State.toggleFlag_curX (s : State) (l : Line) : (s.toggleFlag l).curX = s.curX := by cases l <;> rfl
@[simp] theorem State.toggleFlag_curY (s : State) (l : Line) : (s.toggleFlag l).curY = s.curY := by cases l <;> rfl
@[simp] theorem State.toggleFlag_fb (s : State) (l : Line) : (s.toggleFlag l).fb = s.fb := by cases l <;> rfl
@[simp] theorem State.toggleFlag_upc (s : State) (l : Line) : (s.toggleFlag l).upc = s.upc := by cases l <;> rfl
@[simp] theorem State.toggleFlag_sleeping (s : State) (l : Line) : (s.toggleFlag l).sleeping = s.sleeping := by cases l <;> rfl
@[simp] theorem State.toggleFlag_sleepCnt (s : State) (l : Line) : (s.toggleFlag l).sleepCnt = s.sleepCnt := by cases l <;> rfl
@[simp] theorem State.toggleFlag_adcIn (s : State) (l : Line) : (s.toggleFlag l).adcIn = s.adcIn := by cases l <;> rfl
@[simp] theorem State.toggleFlag_out (s : State) (l : Line) : (s.toggleFlag l).out = s.out := by cases l <;> rfl
@[simp] theorem State.toggleFlag_refusedMark (s : State) (l : Line) : (s.toggleFlag l).refusedMark = s.refusedMark := by cases l <;> rfl
@[simp] theorem State.toggleFlag_inProgress (s : State) (l : Line) : (s.toggleFlag l).inProgress = s.inProgress := by cases l <;> rfl
@[simp] theorem State.toggleFlag_waiting (s : State) (l : Line) : (s.toggleFlag l).waiting = s.waiting := by cases l <;> rfl
@[simp] theorem State.toggleFlag_cfg (s : State) (l : Line) : (s.toggleFlag l).cfg = s.cfg := by cases l <;> rfl
@[simp] theorem State.toggleFlag_inputs (s : State) (l : Line) : (s.toggleFlag l).inputs = s.inputs := by cases l <;> rfl
@[simp] theorem State.toggleFlag_draws (s : State) (l : Line) : (s.toggleFlag l).draws = s.draws := by cases l <;> rfl

/-! ### `takeEdge` -/

@[simp] theorem State.takeEdge_nowMs (s : State) (l : Line) : (s.takeEdge l).nowMs = s.nowMs := by cases l <;> rfl
@[simp] theorem State.takeEdge_smpX (s : State) (l : Line) : (s.takeEdge l).smpX = s.smpX := by cases l <;> rfl
@[simp] theorem State.takeEdge_smpY (s : State) (l : Line) : (s.takeEdge l).smpY = s.smpY := by cases l <;> rfl
@[simp] theorem State.takeEdge_dutyNext0 (s : State) (l : Line) : (s.takeEdge l).dutyNext0 = s.dutyNext0 := by cases l <;> rfl
@[simp] theorem State.takeEdge_dutyNext1 (s : State) (l : Line) : (s.takeEdge l).dutyNext1 = s.dutyNext1 := by cases l <;> rfl
@[simp] theorem State.takeEdge_dutyOut0 (s : State) (l : Line) : (s.takeEdge l).dutyOut0 = s.dutyOut0 := by cases l <;> rfl
@[simp] theorem State.takeEdge_dutyOut1 (s : State) (l : Line) : (s.takeEdge l).dutyOut1 = s.dutyOut1 := by cases l <;> rfl
@[simp] theorem State.takeEdge_curX (s : State) (l : Line) : (s.takeEdge l).curX = s.curX := by cases l <;> rfl
@[simp] theorem State.takeEdge_curY (s : State) (l : Line) : (s.takeEdge l).curY = s.curY := by cases l <;> rfl
@[simp] theorem State.takeEdge_fb (s : State) (l : Line) : (s.takeEdge l).fb = s.fb := by cases l <;> rfl
@[simp] theorem State.takeEdge_upc (s : State) (l : Line) : (s.takeEdge l).upc = s.upc := by cases l <;> rfl
@[simp] theorem State.takeEdge_sleeping (s : State) (l : Line) : (s.takeEdge l).sleeping = s.sleeping := by cases l <;> rfl
@[simp] theorem State.takeEdge_sleepCnt (s : State) (l : Line) : (s.takeEdge l).sleepCnt = s.sleepCnt := by cases l <;> rfl
@[simp] theorem State.takeEdge_adcIn (s : State) (l : Line) : (s.takeEdge l).adcIn = s.adcIn := by cases l <;> rfl
@[simp] theorem State.takeEdge_out (s : State) (l : Line) : (s.takeEdge l).out = s.out := by cases l <;> rfl
@[simp] theorem State.takeEdge_refusedMark (s : State) (l : Line) : (s.takeEdge l).refusedMark = s.refusedMark := by cases l <;> rfl
@[simp] theorem State.takeEdge_inProgress (s : State) (l : Line) : (s.takeEdge l).inProgress = s.inProgress := by cases l <;> rfl
@[simp] theorem State.takeEdge_waiting (s : State) (l : Line) : (s.takeEdge l).waiting = s.waiting := by cases l <;> rfl
@[simp] theorem State.takeEdge_cfg (s : State) (l : Line) : (s.takeEdge l).cfg = s.cfg := by cases l <;> rfl
@[simp] theorem State.takeEdge_inputs (s : State) (l : Line) : (s.takeEdge l).inputs = s.inputs := by cases l <;> rfl
@[simp] theorem State.takeEdge_draws (s : State) (l : Line) : (s.takeEdge l).draws = s.draws := by cases l <;> rfl

theorem State.chan_takeEdge (s : State) (l k : Line) :
    (s.takeEdge l).chan k = if k = l then { s.chan l with lastTs := s.nowMs } else s.chan k := by
  cases l <;> cases k <;> rfl

/-! ### `advanceUpc` -/

@[simp] theorem State.advanceUpc_nowMs (s : State) (code : BitVec 4) : (s.advanceUpc code).nowMs = s.nowMs := by unfold State.advanceUpc; split <;> rfl
@[simp] theorem State.advanceUpc_line0 (s : State) (code : BitVec 4) : (s.advanceUpc code).line0 = s.line0 := by unfold State.advanceUpc; split <;> rfl
@[simp] theorem State.advanceUpc_line1 (s : State) (code : BitVec 4) : (s.advanceUpc code).line1 = s.line1 := by unfold State.advanceUpc; split <;> rfl
@[simp] theorem State.advanceUpc_ledsEnabled (s : State) (code : BitVec 4) : (s.advanceUpc code).ledsEnabled = s.ledsEnabled := by unfold State.advanceUpc; split <;> rfl
@[simp] theorem State.advanceUpc_borderVisible (s : State) (code : BitVec 4) : (s.advanceUpc code).borderVisible = s.borderVisible := by unfold State.advanceUpc; split <;> rfl
@[simp] theorem State.advanceUpc_smpX (s : State) (code : BitVec 4) : (s.advanceUpc code).smpX = s.smpX := by unfold State.advanceUpc; split <;> rfl
@[simp] theorem State.advanceUpc_smpY (s : State) (code : BitVec 4) : (s.advanceUpc code).smpY = s.smpY := by unfold State.advanceUpc; split <;> rfl
@[simp] theorem State.advanceUpc_dutyNext0 (s : State) (code : BitVec 4) : (s.advanceUpc code).dutyNext0 = s.dutyNext0 := by unfold State.advanceUpc; split <;> rfl
@[simp] theorem State.advanceUpc_dutyNext1 (s : State) (code : BitVec 4) : (s.advanceUpc code).dutyNext1 = s.dutyNext1 := by unfold State.advanceUpc; split <;> rfl
@[simp] theorem State.advanceUpc_dutyOut0 (s : State) (code : BitVec 4) : (s.advanceUpc code).dutyOut0 = s.dutyOut0 := by unfold State.advanceUpc; split <;> rfl
@[simp] theorem State.advanceUpc_dutyOut1 (s : State) (code : BitVec 4) : (s.advanceUpc code).dutyOut1 = s.dutyOut1 := by unfold State.advanceUpc; split <;> rfl
@[simp] theorem State.advanceUpc_curX (s : State) (code : BitVec 4) : (s.advanceUpc code).curX = s.curX := by unfold State.advanceUpc; split <;> rfl
@[simp] theorem State.advanceUpc_curY (s : State) (code : BitVec 4) : (s.advanceUpc code).curY = s.curY := by unfold State.advanceUpc; split <;> rfl
@[simp] theorem State.advanceUpc_fb (s : State) (code : BitVec 4) : (s.advanceUpc code).fb = s.fb := by unfold State.advanceUpc; split <;> rfl
@[simp] theorem State.advanceUpc_sleeping (s : State) (code : BitVec 4) : (s.advanceUpc code).sleeping = s.sleeping := by unfold State.advanceUpc; split <;> rfl
@[simp] theorem State.advanceUpc_sleepCnt (s : State) (code : BitVec 4) : (s.advanceUpc code).sleepCnt = s.sleepCnt := by unfold State.advanceUpc; split <;> rfl
@[simp] theorem State.advanceUpc_adcIn (s : State) (code : BitVec 4) : (s.advanceUpc code).adcIn = s.adcIn := by unfold State.advanceUpc; split <;> rfl
@[simp] theorem State.advanceUpc_out (s : State) (code : BitVec 4) : (s.advanceUpc code).out = s.out := by unfold State.advanceUpc; split <;> rfl
@[simp] theorem State.advanceUpc_refusedMark (s : State) (code : BitVec 4) : (s.advanceUpc code).refusedMark = s.refusedMark := by unfold State.advanceUpc; split <;> rfl
@[simp] theorem State.advanceUpc_inProgress (s : State) (code : BitVec 4) : (s.advanceUpc code).inProgress = s.inProgress := by unfold State.advanceUpc; split <;> rfl
@[simp] theorem State.advanceUpc_waiting (s : State) (code : BitVec 4) : (s.advanceUpc code).waiting = s.waiting := by unfold State.advanceUpc; split <;> rfl
@[simp] theorem State.advanceUpc_cfg (s : State) (code : BitVec 4) : (s.advanceUpc code).cfg = s.cfg := by unfold State.advanceUpc; split <;> rfl
@[simp] theorem State.advanceUpc_inputs (s : State) (code : BitVec 4) : (s.advanceUpc code).inputs = s.inputs := by unfold State.advanceUpc; split <;> rfl
@[simp] theorem State.advanceUpc_draws (s : State) (code : BitVec 4) : (s.advanceUpc code).draws = s.draws := by unfold State.advanceUpc; split <;> rfl

theorem State.advanceUpc_upc (s : State) (code : BitVec 4) :
    (s.advanceUpc code).upc = if code = 9 then s.upc else s.upc + 1 := by
  unfold State.advanceUpc
  split <;> rfl

/-! ### `tickBy` -/

@[simp] theorem State.tickBy_nowMs (s : State) (n : Nat) : (s.tickBy n).nowMs = s.timeAfter n := by unfold State.tickBy; dsimp only; split <;> (try split) <;> rfl
@[simp] theorem State.tickBy_line0 (s : State) (n : Nat) : (s.tickBy n).line0 = s.line0 := by unfold State.tickBy; dsimp only; split <;> (try split) <;> rfl
@[simp] theorem State.tickBy_line1 (s : State) (n : Nat) : (s.tickBy n).line1 = s.line1 := by unfold State.tickBy; dsimp only; split <;> (try split) <;> rfl
@[simp] theorem State.tickBy_ledsEnabled (s : State) (n : Nat) : (s.tickBy n).ledsEnabled = s.ledsEnabled := by unfold State.tickBy; dsimp only; split <;> (try split) <;> rfl
@[simp] theorem State.tickBy_borderVisible (s : State) (n : Nat) : (s.tickBy n).borderVisible = s.borderVisible := by unfold State.tickBy; dsimp only; split <;> (try split) <;> rfl
@[simp] theorem State.tickBy_smpX (s : State) (n : Nat) : (s.tickBy n).smpX = s.smpX := by unfold State.tickBy; dsimp only; split <;> (try split) <;> rfl
@[simp] theorem State.tickBy_smpY (s : State) (n : Nat) : (s.tickBy n).smpY = s.smpY := by unfold State.tickBy; dsimp only; split <;> (try split) <;> rfl
@[simp] theorem State.tickBy_dutyNext0 (s : State) (n : Nat) : (s.tickBy n).dutyNext0 = s.dutyNext0 := by unfold State.tickBy; dsimp only; split <;> (try split) <;> rfl
@[simp] theorem State.tickBy_dutyNext1 (s : State) (n : Nat) : (s.tickBy n).dutyNext1 = s.dutyNext1 := by unfold State.tickBy; dsimp only; split <;> (try split) <;> rfl
@[simp] theorem State.tickBy_dutyOut0 (s : State) (n : Nat) : (s.tickBy n).dutyOut0 = s.dutyOut0 := by unfold State.tickBy; dsimp only; split <;> (try split) <;> rfl
@[simp] theorem State.tickBy_dutyOut1 (s : State) (n : Nat) : (s.tickBy n).dutyOut1 = s.dutyOut1 := by unfold State.tickBy; dsimp only; split <;> (try split) <;> rfl
@[simp] theorem State.tickBy_curX (s : State) (n : Nat) : (s.tickBy n).curX = s.curX := by unfold State.tickBy; dsimp only; split <;> (try split) <;> rfl
@[simp] theorem State.tickBy_curY (s : State) (n : Nat) : (s.tickBy n).curY = s.curY := by unfold State.tickBy; dsimp only; split <;> (try split) <;> rfl
@[simp] theorem State.tickBy_fb (s : State) (n : Nat) : (s.tickBy n).fb = s.fb := by unfold State.tickBy; dsimp only; split <;> (try split) <;> rfl
@[simp] theorem State.tickBy_adcIn (s : State) (n : Nat) : (s.tickBy n).adcIn = s.adcIn := by unfold State.tickBy; dsimp only; split <;> (try split) <;> rfl
@[simp] theorem State.tickBy_out (s : State) (n : Nat) : (s.tickBy n).out = s.out := by unfold State.tickBy; dsimp only; split <;> (try split) <;> rfl
@[simp] theorem State.tickBy_refusedMark (s : State) (n : Nat) : (s.tickBy n).refusedMark = s.refusedMark := by unfold State.tickBy; dsimp only; split <;> (try split) <;> rfl
@[simp] theorem State.tickBy_inProgress (s : State) (n : Nat) : (s.tickBy n).inProgress = s.inProgress := by unfold State.tickBy; dsimp only; split <;> (try split) <;> rfl
@[simp] theorem State.tickBy_waiting (s : State) (n : Nat) : (s.tickBy n).waiting = s.waiting := by unfold State.tickBy; dsimp only; split <;> (try split) <;> rfl
@[simp] theorem State.tickBy_cfg (s : State) (n : Nat) : (s.tickBy n).cfg = s.cfg := by unfold State.tickBy; dsimp only; split <;> (try split) <;> rfl
@[simp] theorem State.tickBy_inputs (s : State) (n : Nat) : (s.tickBy n).inputs = s.inputs := by unfold State.tickBy; dsimp only; split <;> (try split) <;> rfl
@[simp] theorem State.tickBy_draws (s : State) (n : Nat) : (s.tickBy n).draws = s.draws := by unfold State.tickBy; dsimp only; split <;> (try split) <;> rfl

/-- What `tickBy` does to the sequencer: nothing while it is awake, a count down while the sleep goes on, a wake-up
where it ends (R128). -/
theorem State.tickBy_cases (s : State) (n : Nat) :
    (s.sleeping = false ∧ s.tickBy n = { s with nowMs := s.timeAfter n }) ∨
    (s.sleeping = true ∧ (n = 0 ∨ n < s.sleepCnt.toNat) ∧
      s.tickBy n = { s with nowMs := s.timeAfter n, sleepCnt := s.sleepCnt - BitVec.ofNat 7 n }) ∨
    (s.sleeping = true ∧ 0 < n ∧ s.sleepCnt.toNat ≤ n ∧
      s.tickBy n = { s with nowMs := s.timeAfter n, sleepCnt := 0, sleeping := false, upc := 0 }) := by
  unfold State.tickBy
  cases hs : s.sleeping
  · exact .inl ⟨rfl, by simp⟩
  · by_cases hn : n = 0 ∨ n < s.sleepCnt.toNat
    · exact .inr (.inl ⟨rfl, hn, by simp [hn]⟩)
    · exact .inr (.inr ⟨rfl, by omega, by omega, by simp [hn]⟩)

theorem State.timeAfter_toNat (s : State) (n : Nat) (hts : s.cfg.tsWidth ≤ 32) :
    (s.timeAfter n).toNat = (s.nowMs.toNat + n) % 2 ^ s.cfg.tsWidth := by
  have hlt : (s.nowMs.toNat + n) % 2 ^ s.cfg.tsWidth < 2 ^ 32 :=
    (Nat.mod_lt _ (Nat.two_pow_pos _)).trans_le (Nat.pow_le_pow_right (by decide) hts)
  rw [State.timeAfter, BitVec.toNat_ofNat, Nat.mod_eq_of_lt hlt]

/-! ### `doReset` -/

@[simp] theorem State.doReset_nowMs (s : State) : (s.doReset).nowMs = 0 := rfl
@[simp] theorem State.doReset_line0 (s : State) : (s.doReset).line0 = Channel.reset := rfl
@[simp] theorem State.doReset_line1 (s : State) : (s.doReset).line1 = Channel.reset := rfl
@[simp] theorem State.doReset_ledsEnabled (s : State) : (s.doReset).ledsEnabled = s.cfg.resetLeds := rfl
@[simp] theorem State.doReset_borderVisible (s : State) : (s.doReset).borderVisible = s.cfg.resetBorder := rfl
@[simp] theorem State.doReset_smpX (s : State) : (s.doReset).smpX = 0 := rfl
@[simp] theorem State.doReset_smpY (s : State) : (s.doReset).smpY = 0 := rfl
@[simp] theorem State.doReset_dutyNext0 (s : State) : (s.doReset).dutyNext0 = 0 := rfl
@[simp] theorem State.doReset_dutyNext1 (s : State) : (s.doReset).dutyNext1 = 0 := rfl
@[simp] theorem State.doReset_dutyOut0 (s : State) : (s.doReset).dutyOut0 = 0 := rfl
@[simp] theorem State.doReset_dutyOut1 (s : State) : (s.doReset).dutyOut1 = 0 := rfl
@[simp] theorem State.doReset_curX (s : State) : (s.doReset).curX = 0 := rfl
@[simp] theorem State.doReset_curY (s : State) : (s.doReset).curY = 0 := rfl
@[simp] theorem State.doReset_fb (s : State) : (s.doReset).fb = s.fb := rfl
@[simp] theorem State.doReset_upc (s : State) : (s.doReset).upc = 0 := rfl
@[simp] theorem State.doReset_sleeping (s : State) : (s.doReset).sleeping = false := rfl
@[simp] theorem State.doReset_sleepCnt (s : State) : (s.doReset).sleepCnt = 0 := rfl
@[simp] theorem State.doReset_adcIn (s : State) : (s.doReset).adcIn = s.adcIn := rfl
@[simp] theorem State.doReset_out (s : State) : (s.doReset).out = s.out := rfl
@[simp] theorem State.doReset_refusedMark (s : State) : (s.doReset).refusedMark = s.refusedMark := rfl
@[simp] theorem State.doReset_inProgress (s : State) : (s.doReset).inProgress = none := rfl
@[simp] theorem State.doReset_waiting (s : State) : (s.doReset).waiting = [] := rfl
@[simp] theorem State.doReset_cfg (s : State) : (s.doReset).cfg = s.cfg := rfl
@[simp] theorem State.doReset_inputs (s : State) : (s.doReset).inputs = s.inputs := rfl
@[simp] theorem State.doReset_draws (s : State) : (s.doReset).draws = s.draws := rfl

end Sys2Proof.Machine
end

