-- ==== Sys2Proof/Laws/Step.lean ====
section
/-! SUPPORT. What a step can do, said once: the step, an input, a clock and `STEP` taken apart, and the induction
that carries an invariant through every kind of input. -/

namespace Sys2Proof.Machine

/-! ### Going on after an answer -/

@[simp] theorem andThen_next (s : State) (f : State → Result) : andThen (.next s) f = f s := rfl

theorem andThen_eq_next {r : Result} {f : State → Result} {t : State} (h : andThen r f = .next t) :
    ∃ s, r = .next s ∧ f s = .next t := by
  cases r with
  | next s => exact ⟨s, rfl, h⟩
  | fault e => cases h
  | refused e => cases h

theorem runInstrs_cons (i : Instr) (is : List Instr) (s : State) :
    runInstrs (i :: is) s = andThen (exec i s) (runInstrs is) := rfl

theorem runInstrs_append (is js : List Instr) (s : State) :
    runInstrs (is ++ js) s = andThen (runInstrs is s) (runInstrs js) := by
  induction is generalizing s with
  | nil => rfl
  | cons i is ih =>
    rw [List.cons_append, runInstrs_cons, runInstrs_cons]
    cases exec i s with
    | next t => exact ih t
    | fault e => rfl
    | refused e => rfl

/-! ### The step -/

/-- A step that answers a next state has a valid instantiation and took the oldest input, or found none. -/
theorem step_cases {s t : State} (h : step s = .next t) :
    configValid s.cfg = true ∧
      ((s.inputs = [] ∧ t = s) ∨
        ∃ i rest, s.inputs = i :: rest ∧ runInput i { s with inputs := rest } = .next t) := by
  unfold step at h
  split at h
  · rename_i hc
    refine ⟨hc, ?_⟩
    unfold takeInput at h
    split at h
    · rename_i hi
      cases h
      exact .inl ⟨hi, rfl⟩
    · rename_i i rest hi
      exact .inr ⟨i, rest, hi, h⟩
  · cases h

/-- A step with an input to take. -/
theorem step_of_inputs {s : State} {i : Input} {rest : List Input} (hc : configValid s.cfg = true)
    (hi : s.inputs = i :: rest) : step s = runInput i { s with inputs := rest } := by
  unfold step takeInput
  rw [if_pos hc, hi]

/-- A transaction word either runs its instruction, once the clocked hardware is settled, or marks the run. -/
theorem runWord_of_ok {w : Word} {i : Instr} (h : decodeWord w = .ok i) (s : State) :
    runWord w s = andThen (settle s) (exec i) := by
  unfold runWord
  rw [h]

theorem runWord_of_error {w : Word} {r : Reject} (h : decodeWord w = .error r) (s : State) :
    runWord w s = .next (s.markRefused r) := by
  unfold runWord
  rw [h]

theorem runWord_cases {w : Word} {s t : State} (h : runWord w s = .next t) :
    (∃ i u, decodeWord w = .ok i ∧ settle s = .next u ∧ exec i u = .next t) ∨
      ∃ r, decodeWord w = .error r ∧ t = s.markRefused r := by
  unfold runWord at h
  split at h
  · rename_i i hi
    obtain ⟨u, hu, ht⟩ := andThen_eq_next h
    exact .inl ⟨i, u, hi, hu, ht⟩
  · rename_i r hr
    cases h
    exact .inr ⟨r, hr, rfl⟩

/-- In a run of words only there is nothing to settle. -/
theorem settle_of_quiet {s : State} (hp : s.inProgress = none) (hw : s.waiting = []) : settle s = .next s := by
  cases s
  simp_all [settle, runInstrs]

/-- What settling did: the micro-op in progress completed, if there was one, and the waiting requests were answered. -/
theorem settle_cases {s t : State} (h : settle s = .next t) :
    ∃ u, ((s.inProgress = none ∧ u = s) ∨ ∃ m, s.inProgress = some m ∧ completeMicroOp m s = .next u) ∧
      runInstrs (u.waiting.map Instr.read) { u with waiting := [] } = .next t := by
  unfold settle at h
  obtain ⟨u, hu, ht⟩ := andThen_eq_next h
  refine ⟨u, ?_, ht⟩
  split at hu
  · rename_i m hm
    exact .inr ⟨m, hm, hu⟩
  · rename_i hm
    cases hu
    exact .inl ⟨hm, rfl⟩

/-- A run's word decodes to a transaction only (R89). -/
theorem decodeWord_transaction {w : Word} {i : Instr} (h : decodeWord w = .ok i) :
    (∃ l v, i = .level l v) ∨ (∃ n, i = .tick n) ∨ (∃ x y, i = .adc x y) ∨ i = .step ∨ ∃ a, i = .read a := by
  unfold decodeWord unlessReserved at h
  split at h
  all_goals (try split at h)
  all_goals (first | (cases h; done) | skip)
  all_goals (injection h with h; subst h)
  · exact .inl ⟨_, _, rfl⟩
  · exact .inr (.inl ⟨_, rfl⟩)
  · exact .inr (.inr (.inl ⟨_, _, rfl⟩))
  · exact .inr (.inr (.inr (.inl rfl)))
  · exact .inr (.inr (.inr (.inr ⟨_, rfl⟩)))

/-! ### A clock -/

/-- What a micro-op did in its last clock: its `STEP`, with the flags of its first clock. -/
theorem completeMicroOp_cases {m : MicroOp} {s t : State} (h : completeMicroOp m s = .next t) :
    ∃ u, exec .step { s with inProgress := none, ledsEnabled := m.leds, borderVisible := m.border } = .next u ∧
      t = { u with ledsEnabled := s.ledsEnabled, borderVisible := s.borderVisible } := by
  obtain ⟨u, hu, ht⟩ := andThen_eq_next h
  cases ht
  exact ⟨u, hu, rfl⟩

/-- What the sequencer did in a clock: its micro-op went on, or completed; or, with none in progress, one of several
clocks began, `STEP` was performed, or nothing was asked. -/
theorem sequencerClock_cases {c : ClockIn} {s t : State} (h : sequencerClock c s = .next t) :
    (∃ m, s.inProgress = some m ∧ m.done + 1 < m.total ∧
        t = { s with inProgress := some { m with done := m.done + 1 } }) ∨
      (∃ m, s.inProgress = some m ∧ m.total ≤ m.done + 1 ∧ completeMicroOp m s = .next t) ∨
      (s.inProgress = none ∧ c.seqStep = true ∧ s.sleeping = false ∧ 1 < clocksOf s.upc c.opClocks ∧
        t = { s with
          inProgress := some
            { total := clocksOf s.upc c.opClocks, done := 1, leds := s.ledsEnabled, border := s.borderVisible } }) ∨
      (s.inProgress = none ∧ c.seqStep = true ∧ (s.sleeping = true ∨ clocksOf s.upc c.opClocks ≤ 1) ∧
        exec .step s = .next t) ∨
      (s.inProgress = none ∧ c.seqStep = false ∧ t = s) := by
  unfold sequencerClock at h
  split at h
  · rename_i m hm
    split at h
    · rename_i hlt
      cases h
      exact .inl ⟨m, hm, hlt, rfl⟩
    · exact .inr (.inl ⟨m, hm, by omega, h⟩)
  · rename_i hm
    split at h
    · rename_i hb
      simp only [Bool.and_eq_true, Bool.not_eq_true', decide_eq_true_eq] at hb
      cases h
      exact .inr (.inr (.inl ⟨hm, hb.1.1, hb.1.2, hb.2, rfl⟩))
    · rename_i hb
      split at h
      · rename_i hq
        refine .inr (.inr (.inr (.inl ⟨hm, hq, ?_, h⟩)))
        cases hs : s.sleeping
        · exact .inr (by simpa [hq, hs] using hb)
        · exact .inl rfl
      · rename_i hq
        cases h
        exact .inr (.inr (.inr (.inr ⟨hm, by simpa using hq, rfl⟩)))

/-- What the debug port did in a clock: it answered one request, with no micro-op in progress, or only let them wait. -/
theorem debugClock_cases {c : ClockIn} {s t : State} (h : debugClock c s = .next t) :
    (∃ a later, s.inProgress = none ∧ s.waiting ++ c.dbgReq.toList = a :: later ∧
        exec (.read a) { s with waiting := later } = .next t) ∨
      t = { s with waiting := s.waiting ++ c.dbgReq.toList } := by
  unfold debugClock at h
  dsimp only at h
  split at h
  · rename_i a later hp hr
    exact .inl ⟨a, later, hp, hr, h⟩
  · cases h
    exact .inr rfl

/-- A clock that answers a next state reset the block, or was the debug port, the analog pins, the sequencer, the lines
and the tick one after another, and moved its synchronisers. -/
theorem runClock_cases {c : ClockIn} {s t : State} (h : runClock c s = .next t) :
    (c.rst = true ∧ t = s.doReset) ∨
      (c.rst = false ∧ ∃ s1 s2 s3 s4, debugClock c s = .next s1 ∧ exec (.adc c.adcX c.adcY) s1 = .next s2 ∧
        sequencerClock c s2 = .next s3 ∧ runInstrs (clockTail c s) s3 = .next s4 ∧
        t = { s4 with line0 := s4.line0.shift c.btn0, line1 := s4.line1.shift c.btn1 }) := by
  unfold runClock at h
  split at h
  · rename_i hr
    cases h
    exact .inl ⟨hr, rfl⟩
  · rename_i hr
    obtain ⟨s1, h1, h⟩ := andThen_eq_next h
    obtain ⟨s2, h2, h⟩ := andThen_eq_next h
    obtain ⟨s3, h3, h⟩ := andThen_eq_next h
    obtain ⟨s4, h4, h⟩ := andThen_eq_next h
    cases h
    exact .inr ⟨by simpa using hr, s1, s2, s3, s4, h1, h2, h3, h4, rfl⟩

/-! ### `STEP` -/

/-- The ROM is the identity on [0, 9] and has nothing above (R88, R89). -/
theorem rom_eq (upc : BitVec 4) : rom upc = if upc.toNat ≤ 9 then some upc else none := by
  revert upc
  decide

/-- A micro-op of the ROM, as `STEP` performs it, is its instruction's own meaning. -/
theorem performMicroOp_eq_exec {code : BitVec 4} {i : Instr} (h : decodeUop code = .ok i) (s : State) :
    performMicroOp code s = exec i s := by
  unfold decodeUop at h
  unfold performMicroOp
  split at h
  all_goals (first | (cases h; done) | (injection h with h; subst h; rename_i hc; first | rfl | (rw [hc]; rfl)))

/-- Every code of the ROM is a micro-op. -/
theorem decodeUop_of_le (code : BitVec 4) (h : code.toNat ≤ 9) : ∃ i, decodeUop code = .ok i := by
  have hsome : ∀ c : BitVec 4, c.toNat ≤ 9 → (decodeUop c).toOption.isSome = true := by decide
  cases hd : decodeUop code with
  | ok i => exact ⟨i, rfl⟩
  | error r => simpa [hd, Except.toOption] using hsome code h

/-- `STEP` while awake is the micro-op at `upc`, then the advance (R261). -/
theorem execStep_awake {s : State} {i : Instr} (hs : s.sleeping = false) (hu : s.upc.toNat ≤ 9)
    (hi : decodeUop s.upc = .ok i) :
    execStep s = andThen (exec i s) fun t => .next (t.advanceUpc s.upc) := by
  unfold execStep
  rw [rom_eq, if_pos hu]
  simp only [hs, Bool.false_eq_true, if_false]
  rw [performMicroOp_eq_exec hi]

/-- What a `STEP` that answers a next state did: it held, or it performed the micro-op at `upc` and advanced. -/
theorem execStep_cases {s t : State} (h : execStep s = .next t) :
    (s.sleeping = true ∧ t = s) ∨
      (s.sleeping = false ∧ s.upc.toNat ≤ 9 ∧
        ∃ i u, decodeUop s.upc = .ok i ∧ exec i s = .next u ∧ t = u.advanceUpc s.upc) := by
  cases hs : s.sleeping
  · refine .inr ⟨rfl, ?_⟩
    by_cases hu : s.upc.toNat ≤ 9
    · obtain ⟨i, hi⟩ := decodeUop_of_le s.upc hu
      rw [execStep_awake hs hu hi] at h
      obtain ⟨u, hu', ht⟩ := andThen_eq_next h
      cases ht
      exact ⟨hu, i, u, hi, hu', rfl⟩
    · unfold execStep at h
      rw [rom_eq, if_neg hu] at h
      simp [hs] at h
  · unfold execStep at h
    rw [hs] at h
    cases h
    exact .inl ⟨rfl, rfl⟩

/-! ### Carrying an invariant through a step -/

/-- What is kept by each instruction of a list is kept by running the list. -/
theorem runInstrs_keeps {P : State → Prop} {is : List Instr}
    (hexec : ∀ i ∈ is, ∀ s t, P s → exec i s = .next t → P t) :
    ∀ {s t : State}, P s → runInstrs is s = .next t → P t := by
  induction is with
  | nil =>
    intro s t hs h
    cases h
    exact hs
  | cons i is ih =>
    intro s t hs h
    obtain ⟨u, hu, ht⟩ := andThen_eq_next h
    exact ih (fun j hj => hexec j (List.mem_cons_of_mem _ hj)) (hexec i List.mem_cons_self s u hs hu) ht

/-- What follows the sequencer in a clock: levels and ticks. -/
theorem mem_clockTail {c : ClockIn} {s : State} {i : Instr} (h : i ∈ clockTail c s) :
    (∃ l v, i = .level l v) ∨ ∃ n, i = .tick n := by
  unfold clockTail at h
  simp only [List.mem_append, List.mem_cons, List.not_mem_nil, or_false] at h
  rcases h with (h | h) | h
  · exact .inl ⟨_, _, h⟩
  · exact .inl ⟨_, _, h⟩
  · split at h
    · simp at h
      exact .inr ⟨_, h⟩
    · cases h

/-- What the five transactions, a micro-op over its clocks, a refused word's mark, a reset and the synchronisers keep,
and what does not depend on the rest of the run or on waiting requests, every step keeps. -/
theorem step_keeps {P : State → Prop}
    (hlevel : ∀ l v s t, P s → exec (.level l v) s = .next t → P t)
    (htick : ∀ n s t, P s → exec (.tick n) s = .next t → P t)
    (hadc : ∀ x y s t, P s → exec (.adc x y) s = .next t → P t)
    (hstep : ∀ s t, P s → s.inProgress = none → exec .step s = .next t → P t)
    (hread : ∀ a s t, P s → exec (.read a) s = .next t → P t)
    (hbegin : ∀ s n, P s → s.inProgress = none → s.sleeping = false → 1 < clocksOf s.upc n →
      P { s with
        inProgress := some { total := clocksOf s.upc n, done := 1, leds := s.ledsEnabled, border := s.borderVisible } })
    (hgoOn : ∀ m s, P s → s.inProgress = some m → m.done + 1 < m.total →
      P { s with inProgress := some { m with done := m.done + 1 } })
    (hcomplete : ∀ m s t, P s → s.inProgress = some m → completeMicroOp m s = .next t → P t ∧ t.inProgress = none)
    (hmark : ∀ r s, P s → P (s.markRefused r))
    (hreset : ∀ s, P s → P s.doReset)
    (hshift : ∀ s b0 b1, P s → P { s with line0 := s.line0.shift b0, line1 := s.line1.shift b1 })
    (hwaiting : ∀ s as, P s → P { s with waiting := as })
    (hinputs : ∀ s is, P s → P { s with inputs := is })
    {s t : State} (hs : P s) (h : step s = .next t) : P t := by
  obtain ⟨_, ⟨_, rfl⟩ | ⟨i, rest, _, h⟩⟩ := step_cases h
  · exact hs
  · have hs' := hinputs s rest hs
    cases i with
    | txn w =>
      obtain ⟨i, u, hi, hu, hx⟩ | ⟨r, _, rfl⟩ := runWord_cases h
      · obtain ⟨v, hv, hr⟩ := settle_cases hu
        have hPv : P v ∧ v.inProgress = none := by
          obtain ⟨hn, rfl⟩ | ⟨m, hm, hc⟩ := hv
          · exact ⟨hs', hn⟩
          · exact hcomplete m _ _ hs' hm hc
        have hPu : P u ∧ u.inProgress = none :=
          runInstrs_keeps (P := fun u => P u ∧ u.inProgress = none) (fun i hi a b ha hx => by
            obtain ⟨ad, _, rfl⟩ := List.mem_map.mp hi
            refine ⟨hread ad _ _ ha.1 hx, ?_⟩
            cases hx
            exact ha.2) ⟨hwaiting v [] hPv.1, hPv.2⟩ hr
        obtain ⟨l, v, rfl⟩ | ⟨n, rfl⟩ | ⟨x, y, rfl⟩ | rfl | ⟨a, rfl⟩ := decodeWord_transaction hi
        · exact hlevel _ _ _ _ hPu.1 hx
        · exact htick _ _ _ hPu.1 hx
        · exact hadc _ _ _ _ hPu.1 hx
        · exact hstep _ _ hPu.1 hPu.2 hx
        · exact hread _ _ _ hPu.1 hx
      · exact hmark r _ hs'
    | reset =>
      cases h
      exact hreset _ hs'
    | clock c =>
      obtain ⟨_, rfl⟩ | ⟨_, s1, s2, s3, s4, h1, h2, h3, h4, rfl⟩ := runClock_cases h
      · exact hreset _ hs'
      · have hP1 : P s1 := by
          obtain ⟨a, later, _, _, hx⟩ | rfl := debugClock_cases h1
          · exact hread _ _ _ (hwaiting _ _ hs') hx
          · exact hwaiting _ _ hs'
        have hP2 := hadc _ _ _ _ hP1 h2
        have hP3 : P s3 := by
          obtain ⟨m, hm, hlt, rfl⟩ | ⟨m, hm, _, hc⟩ | ⟨hn, _, hsl, hlt, rfl⟩ | ⟨hn, _, _, hx⟩ | ⟨_, _, rfl⟩ :=
            sequencerClock_cases h3
          · exact hgoOn m _ hP2 hm hlt
          · exact (hcomplete m _ _ hP2 hm hc).1
          · exact hbegin _ _ hP2 hn hsl hlt
          · exact hstep _ _ hP2 hn hx
          · exact hP2
        refine hshift _ _ _ (runInstrs_keeps (fun i hi a b ha hx => ?_) hP3 h4)
        obtain ⟨l, v, rfl⟩ | ⟨n, rfl⟩ := mem_clockTail hi
        · exact hlevel _ _ _ _ ha hx
        · exact htick _ _ _ ha hx

end Sys2Proof.Machine
end

