-- ==== Sys2Proof/Laws/Exec.lean ====
section
/-! SUPPORT. What each instruction does, said once as a function of the state, and the parts of an edge and of the
configuration check. -/

namespace Sys2Proof.Machine

/-- The configuration check by its parts (R5, R311). -/
theorem configValid_iff (c : Config) :
    configValid c = true ↔
      0 < c.deadzone ∧ c.deadzone < c.center ∧ c.center + c.deadzone < 4095 ∧ c.wrap ≤ 65535 ∧
        9 ≤ c.tsWidth ∧ c.tsWidth ≤ 32 := by
  simp [configValid, adcMax, and_assoc]

/-- An accepted edge by its parts (R123, R124). -/
theorem State.accepts_iff (s : State) (l : Line) (v : Bool) :
    s.accepts l v = true ↔ (s.chan l).lvl = true ∧ v = false ∧ 250 < s.gap l := by
  simp [State.accepts, State.fall, debounceMs, and_assoc]

theorem State.gap_eq (s : State) (l : Line) :
    s.gap l = (s.nowMs - (s.chan l).lastTs).toNat % 2 ^ s.cfg.tsWidth := rfl

theorem State.accepts_true (s : State) (l : Line) : s.accepts l true = false := by
  simp [State.accepts, State.fall]

/-- The flag of a line after an edge of a line. -/
theorem State.flag_takeEdge (s : State) (l k : Line) :
    (s.takeEdge l).flag k = if k = l then !s.flag k else s.flag k := by
  cases l <;> cases k <;> rfl

@[simp] theorem State.flag_setLvl (s : State) (l k : Line) (v : Bool) : (s.setLvl l v).flag k = s.flag k := by
  cases l <;> cases k <;> rfl

/-- The state after each instruction but `STEP`. -/
def effect (i : Instr) (s : State) : State :=
  match i with
  | .level l v => if s.accepts l v then (s.setLvl l v).takeEdge l else s.setLvl l v
  | .tick n => s.tickBy n.toNat
  | .adc x y => { s with adcIn := some (x, y) }
  | .step => s
  | .read a => s.emit (.rdata a (memRead s a))
  | .sample => { s with smpX := s.adcPair.1, smpY := s.adcPair.2, draws := s.drawsAfterAdc }
  | .duty =>
    { s with
      dutyNext0 := if s.ledsEnabled then dutyOf s.cfg s.smpX else 0
      dutyNext1 := if s.ledsEnabled then dutyOf s.cfg s.smpY else 0 }
  | .coord =>
    { s with
      curX := BitVec.ofInt 7 (ovx (mapX s.smpX.toNat)), curY := BitVec.ofInt 6 (ovy (mapY s.smpY.toNat)) }
  | .fbClear => { s with fb := s.fb.clear }
  | .fbBorder => { s with fb := s.fb.setPixels (borderPixels s.borderVisible) }
  | .fbCursor => { s with fb := s.fb.setPixels (fillBlock s.curX.toNat s.curY.toNat cursorSize) }
  | .fbFlush => s.emit (.frame s.fb.frameBytes)
  | .apply => { s with dutyOut0 := s.dutyNext0, dutyOut1 := s.dutyNext1 }
  | .diag =>
    { s with
      draws := s.draws + 1
      out := if Config.diagDelivered s.draws then s.out ++ [.diag s.diagRecord] else s.out }
  | .sleep => { s with sleeping := true, sleepCnt := 100 }

/-- Every instruction but `STEP` answers a next state, in every state. -/
theorem exec_eq_effect {i : Instr} (hi : i ≠ .step) (s : State) : exec i s = .next (effect i s) := by
  cases i with
  | step => exact absurd rfl hi
  | duty => cases h : s.ledsEnabled <;> simp [exec, execDuty, effect, h]
  | diag => cases h : Config.diagDelivered s.draws <;> simp [exec, execDiag, effect, h, State.emit]
  | _ => rfl

/-- A micro-op is not `STEP`. -/
theorem ne_step_of_decodeUop {code : BitVec 4} {i : Instr} (h : decodeUop code = .ok i) : i ≠ .step := by
  rintro rfl
  revert h code
  decide

/-- The code that names a micro-op. -/
theorem decodeUop_eq_ok {code : BitVec 4} {i : Instr} (h : decodeUop code = .ok i) :
    (code = 0 ∧ i = .sample) ∨ (code = 1 ∧ i = .duty) ∨ (code = 2 ∧ i = .coord) ∨ (code = 3 ∧ i = .fbClear) ∨
      (code = 4 ∧ i = .fbBorder) ∨ (code = 5 ∧ i = .fbCursor) ∨ (code = 6 ∧ i = .fbFlush) ∨
      (code = 7 ∧ i = .apply) ∨ (code = 8 ∧ i = .diag) ∨ (code = 9 ∧ i = .sleep) := by
  unfold decodeUop at h
  split at h
  all_goals (first | (cases h; done) | (injection h with h; subst h; rename_i hc))
  all_goals (simp [BitVec.toNat_eq, hc])

/-- What an instruction that answers a next state did: its effect, or for `STEP` a hold or the effect of the micro-op
at `upc` and the advance. -/
theorem exec_cases {i : Instr} {s t : State} (h : exec i s = .next t) :
    (i ≠ .step ∧ t = effect i s) ∨
      (i = .step ∧ s.sleeping = true ∧ t = s) ∨
      (i = .step ∧ s.sleeping = false ∧ s.upc.toNat ≤ 9 ∧
        ∃ j, j ≠ .step ∧ decodeUop s.upc = .ok j ∧ t = (effect j s).advanceUpc s.upc) := by
  by_cases hi : i = .step
  · subst hi
    obtain ⟨hs, rfl⟩ | ⟨hs, hu, j, u, hj, hx, rfl⟩ := execStep_cases h
    · exact .inr (.inl ⟨rfl, hs, rfl⟩)
    · have hne := ne_step_of_decodeUop hj
      rw [exec_eq_effect hne] at hx
      injection hx with hx
      exact .inr (.inr ⟨rfl, hs, hu, j, hne, hj, by rw [hx]⟩)
  · rw [exec_eq_effect hi] at h
    injection h with h
    exact .inl ⟨hi, h.symm⟩

/-- An awake `STEP` with `upc` in the ROM: the micro-op's effect and the advance. -/
theorem exec_step_awake {s : State} {j : Instr} (hs : s.sleeping = false) (hu : s.upc.toNat ≤ 9)
    (hj : decodeUop s.upc = .ok j) : exec .step s = .next ((effect j s).advanceUpc s.upc) := by
  show execStep s = _
  rw [execStep_awake hs hu hj, exec_eq_effect (ne_step_of_decodeUop hj)]
  rfl

theorem exec_step_asleep {s : State} (hs : s.sleeping = true) : exec .step s = .next s := by
  show execStep s = _
  unfold execStep
  rw [if_pos hs]

/-! ### What no instruction changes -/

theorem effect_cfg (i : Instr) (s : State) : (effect i s).cfg = s.cfg := by
  cases i <;> simp only [effect] <;> (try split) <;> simp

theorem effect_inputs (i : Instr) (s : State) : (effect i s).inputs = s.inputs := by
  cases i <;> simp only [effect] <;> (try split) <;> simp

theorem effect_refusedMark (i : Instr) (s : State) : (effect i s).refusedMark = s.refusedMark := by
  cases i <;> simp only [effect] <;> (try split) <;> simp

theorem effect_inProgress (i : Instr) (s : State) : (effect i s).inProgress = s.inProgress := by
  cases i <;> simp only [effect] <;> (try split) <;> simp

theorem effect_waiting (i : Instr) (s : State) : (effect i s).waiting = s.waiting := by
  cases i <;> simp only [effect] <;> (try split) <;> simp

/-- An instruction never changes the configuration, the rest of the run, the refused mark, or what belongs to the
clocked hardware. -/
theorem exec_model_fields {i : Instr} {s t : State} (h : exec i s = .next t) :
    t.cfg = s.cfg ∧ t.inputs = s.inputs ∧ t.refusedMark = s.refusedMark ∧ t.inProgress = s.inProgress ∧
      t.waiting = s.waiting := by
  have heff (j : Instr) (u : State) : (effect j u).cfg = u.cfg ∧ (effect j u).inputs = u.inputs ∧
      (effect j u).refusedMark = u.refusedMark ∧ (effect j u).inProgress = u.inProgress ∧
      (effect j u).waiting = u.waiting :=
    ⟨effect_cfg j u, effect_inputs j u, effect_refusedMark j u, effect_inProgress j u, effect_waiting j u⟩
  obtain ⟨_, rfl⟩ | ⟨_, _, rfl⟩ | ⟨_, _, _, j, _, _, rfl⟩ := exec_cases h
  · exact heff _ _
  · exact ⟨rfl, rfl, rfl, rfl, rfl⟩
  · simp only [State.advanceUpc_cfg, State.advanceUpc_inputs, State.advanceUpc_refusedMark,
      State.advanceUpc_inProgress, State.advanceUpc_waiting]
    exact heff _ _

/-- A completed micro-op is over, and keeps the configuration, the flags, the requests and the rest of the run. -/
theorem completeMicroOp_model_fields {m : MicroOp} {s t : State} (h : completeMicroOp m s = .next t) :
    t.inProgress = none ∧ t.cfg = s.cfg ∧ t.inputs = s.inputs ∧ t.refusedMark = s.refusedMark ∧
      t.waiting = s.waiting ∧ t.ledsEnabled = s.ledsEnabled ∧ t.borderVisible = s.borderVisible := by
  obtain ⟨u, hu, rfl⟩ := completeMicroOp_cases h
  obtain ⟨h1, h2, h3, h4, h5⟩ := exec_model_fields hu
  exact ⟨h4, h1, h2, h3, h5, rfl, rfl⟩

/-- An awake micro-op in its last clock: the effect of `ROM[upc]` with the flags of its first clock, and the advance. -/
theorem completeMicroOp_awake {m : MicroOp} {s : State} {j : Instr} (hs : s.sleeping = false)
    (hu : s.upc.toNat ≤ 9) (hj : decodeUop s.upc = .ok j) :
    completeMicroOp m s = .next
      { (effect j { s with inProgress := none, ledsEnabled := m.leds, borderVisible := m.border }).advanceUpc s.upc with
        ledsEnabled := s.ledsEnabled, borderVisible := s.borderVisible } := by
  have hx := exec_step_awake (s := { s with inProgress := none, ledsEnabled := m.leds, borderVisible := m.border })
    hs hu hj
  unfold completeMicroOp
  rw [hx]
  rfl

/-- The configuration stays through a step. -/
theorem step_cfg {s t : State} (h : step s = .next t) : t.cfg = s.cfg :=
  step_keeps (P := fun u => u.cfg = s.cfg)
    (fun _ _ _ _ hu hx => (exec_model_fields hx).1.trans hu)
    (fun _ _ _ hu hx => (exec_model_fields hx).1.trans hu)
    (fun _ _ _ _ hu hx => (exec_model_fields hx).1.trans hu)
    (fun _ _ hu _ hx => (exec_model_fields hx).1.trans hu)
    (fun _ _ _ hu hx => (exec_model_fields hx).1.trans hu)
    (fun _ _ hu _ _ _ => hu) (fun _ _ hu _ _ => hu)
    (fun _ _ _ hu _ hx =>
      ⟨(completeMicroOp_model_fields hx).2.1.trans hu, (completeMicroOp_model_fields hx).1⟩)
    (fun _ _ hu => hu) (fun _ hu => hu) (fun _ _ _ hu => hu) (fun _ _ hu => hu) (fun _ _ hu => hu) rfl h

end Sys2Proof.Machine
end

