-- ==== Sys2Proof/Laws/Runs.lean ====
section
/-! SUPPORT. Runs taken apart step by step, and a run of transaction words as its instructions one after another. -/

namespace Sys2Proof.Machine

@[simp] theorem runs_zero {s t : State} : Runs 0 s t ↔ t = s := by
  constructor
  · intro h
    cases h
    rfl
  · rintro rfl
    rfl

theorem runs_succ {k : Nat} {s t : State} : Runs (k + 1) s t ↔ ∃ u, step s = .next u ∧ Runs k u t := by
  have hstep : Sys2Proof.core.step s = step s := rfl
  unfold Runs
  simp only [Host.Core.run]
  rw [hstep]
  cases step s <;> simp

theorem runs_add {j k : Nat} {s t : State} : Runs (j + k) s t ↔ ∃ u, Runs j s u ∧ Runs k u t := by
  induction j generalizing s with
  | zero => simp
  | succ j ih =>
    rw [Nat.succ_add, runs_succ]
    constructor
    · rintro ⟨v, hv, h⟩
      obtain ⟨u, hu, ht⟩ := ih.mp h
      exact ⟨u, runs_succ.mpr ⟨v, hv, hu⟩, ht⟩
    · rintro ⟨u, hu, ht⟩
      obtain ⟨v, hv, h⟩ := runs_succ.mp hu
      exact ⟨v, hv, ih.mpr ⟨u, h, ht⟩⟩

/-- No effect depends on the rest of the run. -/
theorem effect_withInputs (i : Instr) (s : State) (is : List Input) :
    effect i { s with inputs := is } = { effect i s with inputs := is } := by
  cases i with
  | level l v =>
    have hacc : ({ s with inputs := is } : State).accepts l v = s.accepts l v := by cases l <;> rfl
    simp only [effect, hacc]
    split <;> cases l <;> rfl
  | tick n =>
    simp only [effect, State.tickBy]
    split
    · split <;> rfl
    · rfl
  | _ => rfl

/-- No instruction depends on the rest of the run. -/
theorem exec_withInputs (i : Instr) (s : State) (is : List Input) :
    exec i { s with inputs := is } = andThen (exec i s) fun t => .next { t with inputs := is } := by
  by_cases hi : i = .step
  · subst hi
    by_cases hs : s.sleeping = true
    · rw [exec_step_asleep hs, exec_step_asleep (s := { s with inputs := is }) hs]
      rfl
    · have hs' : s.sleeping = false := by simpa using hs
      by_cases hu : s.upc.toNat ≤ 9
      · obtain ⟨m, hm⟩ := decodeUop_of_le s.upc hu
        rw [exec_step_awake hs' hu hm, exec_step_awake (s := { s with inputs := is }) hs' hu hm, effect_withInputs]
        unfold State.advanceUpc
        simp only [andThen_next]
        split <;> rfl
      · have hrom : rom s.upc = none := by rw [rom_eq, if_neg hu]
        simp [exec, execStep, hs, hrom, andThen]
  · rw [exec_eq_effect hi, exec_eq_effect hi, effect_withInputs]
    rfl

theorem runInstrs_withInputs (is : List Instr) (s : State) (rest : List Input) :
    runInstrs is { s with inputs := rest } = andThen (runInstrs is s) fun t => .next { t with inputs := rest } := by
  induction is generalizing s with
  | nil => rfl
  | cons i is ih =>
    rw [runInstrs_cons, runInstrs_cons, exec_withInputs]
    cases exec i s with
    | fault e => rfl
    | refused e => rfl
    | next t => exact ih t

/-- One transaction word of a run, in a state that is about to take it. -/
theorem runs_cons {k : Nat} {s t : State} {w : Word} {i : Instr} {rest : List Input} (hc : configValid s.cfg = true)
    (hq : Quiet s) (hi : s.inputs = .txn w :: rest) (hd : decodeWord w = .ok i) :
    Runs (k + 1) s t ↔ ∃ u, exec i { s with inputs := rest } = .next u ∧ Runs k u t := by
  rw [runs_succ, step_of_inputs hc hi]
  show (∃ u, runWord w _ = .next u ∧ _) ↔ _
  rw [runWord_of_ok hd, settle_of_quiet (s := { s with inputs := rest }) hq.1 hq.2]
  rfl

/-- Instructions keep a quiet state quiet. -/
theorem quiet_exec {i : Instr} {s t : State} (hq : Quiet s) (h : exec i s = .next t) : Quiet t :=
  have hm := exec_model_fields h
  ⟨hm.2.2.2.1.trans hq.1, hm.2.2.2.2.trans hq.2⟩

/-- A run of the words of `is` in a quiet state is the instructions `is` one after another. -/
theorem runs_of_instrs {is : List Instr} : ∀ {ws : List Word} {s : State} {rest : List Input},
    configValid s.cfg = true → Quiet s → List.Forall₂ (fun w i => decodeWord w = .ok i) ws is →
    s.inputs = ws.map Input.txn ++ rest → ∀ {t : State},
    Runs ws.length s { t with inputs := rest } ↔
      ∃ u, runInstrs is s = .next u ∧ { u with inputs := rest } = { t with inputs := rest } := by
  induction is with
  | nil =>
    intro ws s rest hc hq hw hi t
    cases hw
    have hs : s.inputs = rest := hi
    subst hs
    constructor
    · intro h
      exact ⟨s, rfl, (runs_zero.mp h).symm⟩
    · rintro ⟨u, hu, h⟩
      cases hu
      exact runs_zero.mpr h.symm
  | cons i is ih =>
    intro ws s rest hc hq hw hi t
    cases hw with
    | @cons w _ ws _ hd hw =>
      rw [List.length_cons, runs_cons hc hq hi hd, exec_withInputs, runInstrs_cons]
      cases hx : exec i s with
      | fault e => simp [andThen]
      | refused e => simp [andThen]
      | next v =>
        have hv := (exec_model_fields hx).1
        have hqv := quiet_exec hq hx
        simp only [andThen_next, Host.Outcome.next.injEq, exists_eq_left']
        rw [show (List.map Input.txn ws).append rest = ws.map Input.txn ++ rest from rfl, ih (s := { v with inputs := ws.map Input.txn ++ rest }) (by exact hv ▸ hc) hqv hw rfl]
        rw [runInstrs_withInputs]
        cases hr : runInstrs is v with
        | fault e => simp [andThen]
        | refused e => simp [andThen]
        | next u => simp

end Sys2Proof.Machine
end

