-- ==== Sys2Proof/Laws/Clock.lean ====
section
/-! SUPPORT. A micro-op of several clocks: its commit does not see what the other agents do in the clocks before it, so
it can be taken as done in its first clock (R352). -/

namespace Sys2Proof.Machine

/-- A micro-op that can take several clocks is one of `DUTY` to `FB_FLUSH` (R358). -/
theorem upc_of_clocksOf {upc : BitVec 4} {n : Nat} (h : 1 < clocksOf upc n) : 1 ≤ upc.toNat ∧ upc.toNat ≤ 6 := by
  have hmax : ∀ u : BitVec 4, u ≠ 6 → 1 < maxClocks u → 1 ≤ u.toNat ∧ u.toNat ≤ 6 := by decide
  unfold clocksOf at h
  split at h
  · rename_i hu
    rw [hu]
    decide
  · rename_i hu
    exact hmax upc hu (by omega)

/-- The codes of the micro-ops that can take several clocks. -/
theorem upc_cases : ∀ u : BitVec 4, 1 ≤ u.toNat ∧ u.toNat ≤ 6 → u = 1 ∨ u = 2 ∨ u = 3 ∨ u = 4 ∨ u = 5 ∨ u = 6 := by
  decide

theorem clocksOf_le (upc : BitVec 4) (n : Nat) : clocksOf upc n ≤ maxClocks upc := by
  have hmax : ∀ u : BitVec 4, 1 ≤ maxClocks u := by decide
  have := hmax upc
  unfold clocksOf
  split
  · rename_i hu
    rw [hu]
    decide
  · omega

/-- The micro-op that `upc` selects, with the flags of its first clock, as done (R352). -/
def completed (m : MicroOp) (s : State) : State :=
  match decodeUop s.upc with
  | .ok j =>
    { (effect j { s with inProgress := none, ledsEnabled := m.leds, borderVisible := m.border }).advanceUpc s.upc with
      ledsEnabled := s.ledsEnabled, borderVisible := s.borderVisible }
  | .error _ => s

theorem completeMicroOp_eq_completed {m : MicroOp} {s : State} (hs : s.sleeping = false) (hu : s.upc.toNat ≤ 9) :
    completeMicroOp m s = .next (completed m s) := by
  obtain ⟨j, hj⟩ := decodeUop_of_le s.upc hu
  rw [completeMicroOp_awake hs hu hj, completed, hj]

/-- A transaction of another agent that a clock holds commutes with the commit of a micro-op of several clocks. -/
theorem effect_completed {m : MicroOp} {s : State} {i : Instr} (hs : s.sleeping = false)
    (hu : 1 ≤ s.upc.toNat ∧ s.upc.toNat ≤ 6)
    (hi : (∃ x y, i = .adc x y) ∨ (∃ l v, i = .level l v) ∨ ∃ n, i = .tick n) :
    effect i (completed m s) = completed m (effect i s) := by
  cases s
  rename_i _ sleeping _ _ _ _ _ _ _ _ _
  dsimp only at hs hu
  subst hs
  obtain rfl | rfl | rfl | rfl | rfl | rfl := upc_cases _ hu
  all_goals
    obtain ⟨x, y, rfl⟩ | ⟨l, v, rfl⟩ | ⟨n, rfl⟩ := hi
    · rfl
    · cases l
      all_goals
        simp only [effect]
        split
        · rw [if_pos ‹_›]
          rfl
        · rw [if_neg ‹_›]
          rfl
    · rfl

/-- No transaction of another agent but a wake-up moves the sequencer: an awake one stays awake where it is. -/
theorem effect_awake {s : State} {i : Instr} (hs : s.sleeping = false)
    (hi : (∃ x y, i = .adc x y) ∨ (∃ l v, i = .level l v) ∨ ∃ n, i = .tick n) :
    (effect i s).sleeping = false ∧ (effect i s).upc = s.upc := by
  obtain ⟨x, y, rfl⟩ | ⟨l, v, rfl⟩ | ⟨n, rfl⟩ := hi
  · exact ⟨hs, rfl⟩
  · simp only [effect]
    split <;> simp [hs]
  · simp [effect, State.tickBy, hs]

/-- What follows the sequencer in a clock commutes with a commit. -/
theorem runInstrs_completed {m : MicroOp} {is : List Instr} (hi : ∀ i ∈ is, (∃ l v, i = .level l v) ∨ ∃ n, i = .tick n) :
    ∀ {s : State}, s.sleeping = false → 1 ≤ s.upc.toNat ∧ s.upc.toNat ≤ 6 →
      ∃ t, runInstrs is s = .next t ∧ runInstrs is (completed m s) = .next (completed m t) ∧ t.sleeping = false ∧
        t.upc = s.upc := by
  induction is with
  | nil => exact fun {s} hs _ => ⟨s, rfl, rfl, hs, rfl⟩
  | cons i is ih =>
    intro s hs hu
    have hi0 := Or.inr (a := ∃ x y, i = .adc x y) (hi i List.mem_cons_self)
    have hne : i ≠ .step := by
      obtain ⟨_, _, rfl⟩ | ⟨_, rfl⟩ := hi i List.mem_cons_self <;> exact Instr.noConfusion
    obtain ⟨ha, hp⟩ := effect_awake hs hi0
    obtain ⟨t, h1, h2, h3, h4⟩ := ih (fun j hj => hi j (List.mem_cons_of_mem _ hj)) ha (hp ▸ hu)
    refine ⟨t, ?_, ?_, h3, h4.trans hp⟩
    · rw [runInstrs_cons, exec_eq_effect hne, andThen_next, h1]
    · rw [runInstrs_cons, exec_eq_effect hne, andThen_next, effect_completed hs hu hi0, h2]

/-- A commit neither reads nor writes the pins, the waiting requests, the lines and the rest of the run. -/
theorem completed_withPins {m : MicroOp} {s : State} (hu : 1 ≤ s.upc.toNat ∧ s.upc.toNat ≤ 6) (as : List DebugAddr)
    (a : Option (Sample × Sample)) :
    completed m { s with waiting := as, adcIn := a } = { completed m s with waiting := as, adcIn := a } := by
  cases s
  obtain rfl | rfl | rfl | rfl | rfl | rfl := upc_cases _ hu <;> rfl

theorem completed_withLines {m : MicroOp} {s : State} (hu : 1 ≤ s.upc.toNat ∧ s.upc.toNat ≤ 6) (l0 l1 : Channel) :
    completed m { s with line0 := l0, line1 := l1 } = { completed m s with line0 := l0, line1 := l1 } := by
  cases s
  obtain rfl | rfl | rfl | rfl | rfl | rfl := upc_cases _ hu <;> rfl

theorem completed_withInputs {m : MicroOp} {s : State} (hu : 1 ≤ s.upc.toNat ∧ s.upc.toNat ≤ 6) (p : Option MicroOp)
    (is : List Input) :
    completed m { s with inProgress := p, inputs := is } = { completed m s with inputs := is } := by
  cases s
  obtain rfl | rfl | rfl | rfl | rfl | rfl := upc_cases _ hu <;> rfl

theorem completed_fields {m : MicroOp} {s : State} (hs : s.sleeping = false) (hu : 1 ≤ s.upc.toNat ∧ s.upc.toNat ≤ 6) :
    (completed m s).line0 = s.line0 ∧ (completed m s).line1 = s.line1 ∧ (completed m s).waiting = s.waiting ∧
      (completed m s).inputs = s.inputs ∧ (completed m s).inProgress = none ∧ (completed m s).sleeping = false ∧
      (completed m s).upc = s.upc + 1 := by
  cases s
  rename_i _ sleeping _ _ _ _ _ _ _ _ _
  dsimp only at hs
  subst hs
  obtain rfl | rfl | rfl | rfl | rfl | rfl := upc_cases _ hu <;> exact ⟨rfl, rfl, rfl, rfl, rfl, rfl, rfl⟩

/-- A clock in which the sequencer does nothing commutes with the commit of a micro-op of several clocks. -/
theorem idleClock_completed (c : ClockIn) (m : MicroOp) {s : State} (hs : s.sleeping = false)
    (hu : 1 ≤ s.upc.toNat ∧ s.upc.toNat ≤ 6) :
    ∃ t, idleClock c s = .next t ∧ idleClock c (completed m s) = .next (completed m t) ∧ t.sleeping = false ∧
      t.upc = s.upc := by
  obtain ⟨t, h1, h2, h3, h4⟩ := runInstrs_completed (m := m) (is := clockTail c s) (fun _ => mem_clockTail)
    (s := { s with waiting := s.waiting ++ c.dbgReq.toList, adcIn := some (c.adcX, c.adcY) }) hs hu
  obtain ⟨f0, f1, fw, fi, _, _, _⟩ := completed_fields (m := m) hs hu
  have htail : clockTail c (completed m s) = clockTail c s := by
    unfold clockTail
    rw [f0, f1]
  obtain ⟨g0, g1, gw, gi, _, _, _⟩ := completed_fields (m := m) h3 (h4 ▸ hu)
  refine ⟨{ t with line0 := t.line0.shift c.btn0, line1 := t.line1.shift c.btn1 }, ?_, ?_, h3, h4⟩
  · unfold idleClock clockWith
    rw [andThen_next, exec_eq_effect (by exact Instr.noConfusion), andThen_next, andThen_next]
    simp only [effect]
    rw [h1, andThen_next]
  · unfold idleClock clockWith
    rw [andThen_next, exec_eq_effect (by exact Instr.noConfusion), andThen_next, andThen_next, htail, fw]
    simp only [effect]
    rw [← completed_withPins hu, h2, andThen_next,
      completed_withLines (s := t) (h4 ▸ hu) (t.line0.shift c.btn0) (t.line1.shift c.btn1), ← g0, ← g1]

/-- The clock in which a micro-op of several clocks begins: the sequencer takes the flags and does nothing else. -/
theorem runClock_begins {c : ClockIn} {s : State} (hr : c.rst = false) (hn : s.inProgress = none)
    (hq : c.seqStep = true) (hs : s.sleeping = false) (hlt : 1 < clocksOf s.upc c.opClocks) :
    runClock c s = clockWith (debugClock c) (fun u => .next { u with
      inProgress := some
        { total := clocksOf s.upc c.opClocks, done := 1, leds := s.ledsEnabled, border := s.borderVisible } }) c s := by
  have hseq {v : State} (h : v.inProgress = none ∧ v.sleeping = false ∧ v.upc = s.upc ∧
      v.ledsEnabled = s.ledsEnabled ∧ v.borderVisible = s.borderVisible) :
      sequencerClock c v = .next { v with
        inProgress := some
          { total := clocksOf s.upc c.opClocks, done := 1, leds := s.ledsEnabled, border := s.borderVisible } } := by
    obtain ⟨h1, h2, h3, h4, h5⟩ := h
    unfold sequencerClock
    split
    · rename_i m hm
      cases h1.symm.trans hm
    · rw [h3, if_pos (by simp [hq, h2, hlt]), h4, h5]
  unfold runClock
  rw [hr, if_neg Bool.false_ne_true]
  unfold clockWith
  cases hd : debugClock c s with
  | fault e => rfl
  | refused e => rfl
  | next u =>
    rw [andThen_next, andThen_next, exec_eq_effect (by exact Instr.noConfusion), andThen_next, andThen_next, hseq]
    obtain ⟨a, later, _, _, hx⟩ | rfl := debugClock_cases hd
    · cases hx
      exact ⟨hn, hs, rfl, rfl, rfl⟩
    · exact ⟨hn, hs, rfl, rfl, rfl⟩

/-- With no micro-op in progress the debug port answers the oldest request there is. -/
theorem debugClock_idle {c : ClockIn} {s : State} (hn : s.inProgress = none) :
    debugClock c s =
      match s.waiting ++ c.dbgReq.toList with
      | a :: later => exec (.read a) { s with waiting := later }
      | [] => .next { s with waiting := [] } := by
  unfold debugClock
  simp only [hn]
  cases s.waiting ++ c.dbgReq.toList <;> rfl
/-- A clock in which a micro-op goes on is one in which the sequencer does nothing but count. -/
theorem runClock_goesOn {c : ClockIn} {m : MicroOp} {s : State} (hr : c.rst = false) (hm : s.inProgress = some m)
    (hlt : m.done + 1 < m.total) :
    runClock c s = idleClock c { s with inProgress := some { m with done := m.done + 1 } } := by
  have hd : debugClock c s = .next { s with waiting := s.waiting ++ c.dbgReq.toList } := by
    unfold debugClock
    rw [hm]
  unfold runClock
  rw [hr, if_neg Bool.false_ne_true]
  unfold idleClock clockWith
  rw [hd, andThen_next, andThen_next, exec_eq_effect (by exact Instr.noConfusion),
    exec_eq_effect (by exact Instr.noConfusion), andThen_next, andThen_next, andThen_next]
  unfold sequencerClock
  simp only [effect, hm, if_pos hlt, andThen_next]
  rfl

/-- The clock in which a micro-op of several clocks ends is one in which the sequencer does nothing, after the commit. -/
theorem runClock_ends {c : ClockIn} {m : MicroOp} {s : State} (hr : c.rst = false) (hm : s.inProgress = some m)
    (hlt : m.total ≤ m.done + 1) (hs : s.sleeping = false) (hu : 1 ≤ s.upc.toNat ∧ s.upc.toNat ≤ 6) :
    runClock c s = idleClock c (completed m s) := by
  have hd : debugClock c s = .next { s with waiting := s.waiting ++ c.dbgReq.toList } := by
    unfold debugClock
    rw [hm]
  obtain ⟨f0, f1, fw, _, _, _, _⟩ := completed_fields (m := m) hs hu
  have htail : clockTail c (completed m s) = clockTail c s := by
    unfold clockTail
    rw [f0, f1]
  have hq : sequencerClock c { s with waiting := s.waiting ++ c.dbgReq.toList, adcIn := some (c.adcX, c.adcY) } =
      .next (completed m { s with waiting := s.waiting ++ c.dbgReq.toList, adcIn := some (c.adcX, c.adcY) }) := by
    rw [← completeMicroOp_eq_completed
      (s := { s with waiting := s.waiting ++ c.dbgReq.toList, adcIn := some (c.adcX, c.adcY) }) hs
      (by show s.upc.toNat ≤ 9; omega)]
    unfold sequencerClock
    split
    · rename_i m' hm'
      cases hm.symm.trans hm'
      rw [if_neg (by omega)]
    · rename_i hn
      cases hm.symm.trans hn
  unfold runClock
  rw [hr, if_neg Bool.false_ne_true]
  unfold idleClock clockWith
  rw [hd, andThen_next, andThen_next, exec_eq_effect (by exact Instr.noConfusion),
    exec_eq_effect (by exact Instr.noConfusion), andThen_next, andThen_next, andThen_next, htail, fw]
  simp only [effect]
  rw [hq, andThen_next, completed_withPins hu]

/-! ### The clocks of a whole micro-op -/

/-- A clock in which the sequencer does nothing neither reads nor writes the rest of the run. -/
theorem idleClock_withInputs (c : ClockIn) (s : State) (is : List Input) :
    idleClock c { s with inputs := is } = andThen (idleClock c s) fun t => .next { t with inputs := is } := by
  unfold idleClock clockWith
  rw [andThen_next, andThen_next, exec_eq_effect (by exact Instr.noConfusion),
    exec_eq_effect (by exact Instr.noConfusion), andThen_next, andThen_next, andThen_next, andThen_next]
  have hrun := runInstrs_withInputs (clockTail c s)
    { s with waiting := s.waiting ++ c.dbgReq.toList, adcIn := some (c.adcX, c.adcY) } is
  have htail : clockTail c { s with inputs := is } = clockTail c s := rfl
  simp only [effect]
  rw [htail, hrun]
  cases runInstrs (clockTail c s) { s with waiting := s.waiting ++ c.dbgReq.toList, adcIn := some (c.adcX, c.adcY) } <;>
    rfl

theorem runInstrs_model_fields {is : List Instr} {s t : State} (h : runInstrs is s = .next t) :
    t.cfg = s.cfg ∧ t.inputs = s.inputs ∧ t.refusedMark = s.refusedMark ∧ t.inProgress = s.inProgress ∧
      t.waiting = s.waiting :=
  runInstrs_keeps (P := fun t => t.cfg = s.cfg ∧ t.inputs = s.inputs ∧ t.refusedMark = s.refusedMark ∧
      t.inProgress = s.inProgress ∧ t.waiting = s.waiting)
    (fun _ _ a b ha hx => by
      obtain ⟨h1, h2, h3, h4, h5⟩ := exec_model_fields hx
      exact ⟨h1.trans ha.1, h2.trans ha.2.1, h3.trans ha.2.2.1, h4.trans ha.2.2.2.1, h5.trans ha.2.2.2.2⟩)
    ⟨rfl, rfl, rfl, rfl, rfl⟩ h

theorem idleClock_model_fields {c : ClockIn} {s t : State} (h : idleClock c s = .next t) :
    t.cfg = s.cfg ∧ t.inputs = s.inputs ∧ t.inProgress = s.inProgress := by
  unfold idleClock clockWith at h
  rw [andThen_next, exec_eq_effect (by exact Instr.noConfusion), andThen_next, andThen_next] at h
  obtain ⟨u, hu, ht⟩ := andThen_eq_next h
  obtain ⟨h1, h2, _, h4, _⟩ := runInstrs_model_fields hu
  cases ht
  exact ⟨h1, h2, h4⟩

/-- The clocks of a micro-op in progress to its end are clocks in which the sequencer does nothing, after the commit. -/
theorem runs_micro_op {rest : List Input} : ∀ {cs : List ClockIn} {s t : State} {m : MicroOp},
    configValid s.cfg = true → s.inputs = cs.map .clock ++ rest → (∀ c ∈ cs, c.rst = false) → s.inProgress = some m →
    m.done < m.total → m.done + cs.length = m.total → s.sleeping = false → 1 ≤ s.upc.toNat ∧ s.upc.toNat ≤ 6 →
    (Runs cs.length s t ↔ idleClocks cs (completed m { s with inputs := rest }) = .next t) := by
  intro cs
  induction cs with
  | nil => exact fun _ _ _ _ hlt hlen => absurd hlen (by simpa using Nat.ne_of_lt hlt)
  | cons c cs ih =>
    intro s t m hc hi hr hm hlt hlen hs hu
    have hr0 := hr c List.mem_cons_self
    have hi' : s.inputs = .clock c :: (cs.map .clock ++ rest) := hi
    rw [List.length_cons, runs_succ, step_of_inputs hc hi']
    show (∃ u, runClock c _ = .next u ∧ _) ↔ andThen _ _ = _
    rw [List.length_cons] at hlen
    by_cases hend : cs = []
    · subst hend
      rw [runClock_ends (m := m) (s := { s with inputs := [].map .clock ++ rest }) hr0 hm (by simp at hlen; omega) hs hu]
      show (∃ u, idleClock c (completed m { s with inputs := rest }) = .next u ∧ Runs 0 u t) ↔ _
      simp only [runs_zero]
      cases idleClock c (completed m { s with inputs := rest }) <;> simp [andThen, idleClocks, eq_comm]
    · have hlen' : 0 < cs.length := List.length_pos_iff.mpr hend
      rw [runClock_goesOn (m := m) (s := { s with inputs := cs.map .clock ++ rest }) hr0 hm (by omega)]
      obtain ⟨u, h1, h2, h3, h4⟩ := idleClock_completed c m (s := { s with
        inputs := cs.map .clock ++ rest, inProgress := some { m with done := m.done + 1 } }) hs hu
      obtain ⟨g1, g2, g3⟩ := idleClock_model_fields h1
      have hw := idleClock_withInputs c (completed m { s with
        inputs := cs.map .clock ++ rest, inProgress := some { m with done := m.done + 1 } }) rest
      rw [h2, andThen_next] at hw
      have hcomp : completed m { s with inputs := rest } = { completed m { s with
          inputs := cs.map .clock ++ rest, inProgress := some { m with done := m.done + 1 } } with inputs := rest } := by
        have hany := completed_withInputs (m := m) (s := s) hu (some { m with done := m.done + 1 }) (cs.map .clock ++ rest)
        rw [hany]
        exact completed_withInputs (m := m) (s := s) hu s.inProgress rest
      have hu' : 1 ≤ u.upc.toNat ∧ u.upc.toNat ≤ 6 := by rw [h4]; exact hu
      rw [hcomp, hw, andThen_next, ← completed_withInputs (m := m) hu' u.inProgress rest]
      have hrest := ih (s := u) (t := t) (m := { m with done := m.done + 1 }) (by rw [g1]; exact hc) g2
        (fun d hd => hr d (List.mem_cons_of_mem _ hd)) g3 (by show m.done + 1 < m.total; omega)
        (by show m.done + 1 + cs.length = m.total; omega) h3 hu'
      constructor
      · rintro ⟨v, hv, ht⟩
        cases h1.symm.trans hv
        exact hrest.mp ht
      · intro h
        exact ⟨u, h1, hrest.mpr h⟩

end Sys2Proof.Machine
end

