-- ==== Sys2Proof/Laws/Encoding.lean ====
section
/-! SUPPORT. The fields of a transaction word bit by bit: the operation field as a number, what the reserved-bit test
says, and decoding taken apart by operation. -/

namespace Sys2Proof.Machine

/-- The operation field is `w[31:28]` as a number (R80). -/
theorem opField_toNat (w : Word) : (opField w).toNat = opOf w := by
  have := w.isLt
  rw [opField, BitVec.extractLsb'_toNat, opOf, Nat.shiftRight_eq_div_pow]
  omega

/-- A mask test by bits. -/
theorem and_eq_zero_iff (w r : Word) :
    w &&& r = 0 ↔ ∀ k, k < 32 → r.getLsbD k = true → w.getLsbD k = false := by
  constructor
  · intro h k hk hr
    have := congrArg (·.getLsbD k) h
    simpa [hr] using this
  · intro h
    apply BitVec.eq_of_getLsbD_eq
    intro k hk
    rw [BitVec.getLsbD_and]
    cases hr : r.getLsbD k
    · simp
    · simp [h k hk hr]

/-- A word whose reserved bits are 0 decodes to its operation's instruction; a word with one at 1 is RSVD_BITS. -/
theorem unlessReserved_eq_ok {w r : Word} {i j : Instr} :
    unlessReserved w r i = .ok j ↔ w &&& r = 0 ∧ i = j := by
  unfold unlessReserved
  split <;> simp_all

theorem unlessReserved_eq_error {w r : Word} {i : Instr} {e : Reject} :
    unlessReserved w r i = .error e ↔ w &&& r ≠ 0 ∧ e = .rsvdBits := by
  unfold unlessReserved
  split <;> simp_all [eq_comm]

/-- Bit `k` of a word with operation field `op`, for the four top bits. -/
theorem getLsbD_of_opOf {w : Word} {op : Nat} (h : opOf w = op) (k : Nat) (hk : k < 4) :
    w.getLsbD (28 + k) = op.testBit k := by
  have hf : (opField w).toNat = op := (opField_toNat w).trans h
  have hb : (opField w).getLsbD k = w.getLsbD (28 + k) := by
    simp [opField, hk]
  rw [← hb, BitVec.getLsbD, hf]

end Sys2Proof.Machine
end

