-- ==== Sys2Proof/Laws/Memory.lean ====
section
/-! SUPPORT. The framebuffer RAM: read after write, the canonical form, and what drawing does to a pixel. -/

namespace Sys2Proof.Machine

@[simp] theorem Memory.readByte_nil (b : Nat) : Memory.readByte [] b = Memory.unlisted := rfl

theorem Memory.readByte_cons (a : Nat) (v : Byte) (m : Memory) (b : Nat) :
    Memory.readByte ((a, v) :: m) b = if a = b then v else Memory.readByte m b := rfl

theorem Memory.wfFrom_cons (lo a : Nat) (v : Byte) (m : Memory) :
    Memory.wfFrom lo ((a, v) :: m) = true ↔
      lo ≤ a ∧ a < fbBytes ∧ v ≠ Memory.unlisted ∧ Memory.wfFrom (a + 1) m = true := by
  simp [Memory.wfFrom, and_assoc]

/-- Lowering the bound keeps the form. -/
theorem Memory.wfFrom_mono {lo hi : Nat} (h : lo ≤ hi) :
    ∀ {m : Memory}, Memory.wfFrom hi m = true → Memory.wfFrom lo m = true
  | [], _ => rfl
  | (a, v) :: m, hm => by
    rw [Memory.wfFrom_cons] at hm ⊢
    exact ⟨h.trans hm.1, hm.2⟩

/-- Below the first listed address everything reads as unlisted. -/
theorem Memory.readByte_below {lo b : Nat} (hb : b < lo) :
    ∀ {m : Memory}, Memory.wfFrom lo m = true → Memory.readByte m b = Memory.unlisted
  | [], _ => rfl
  | (a, v) :: m, hm => by
    rw [Memory.wfFrom_cons] at hm
    rw [Memory.readByte_cons, if_neg (by omega)]
    exact Memory.readByte_below (lo := a + 1) (by omega) hm.2.2.2

/-- Read after write, in every framebuffer that has the canonical form. -/
theorem Memory.readByte_writeByte (b : Nat) (v : Byte) (c : Nat) :
    ∀ {lo : Nat} {m : Memory}, Memory.wfFrom lo m = true →
      Memory.readByte (Memory.writeByte m b v) c = if c = b then v else Memory.readByte m c
  | lo, [], _ => by
    unfold Memory.writeByte
    split <;> rename_i hv
    · split <;> simp [hv]
    · by_cases hc : c = b
      · simp [Memory.readByte_cons, hc]
      · simp [Memory.readByte_cons, hc, Ne.symm hc]
  | lo, (a, u) :: m, hm => by
    rw [Memory.wfFrom_cons] at hm
    obtain ⟨_, _, _, hm⟩ := hm
    unfold Memory.writeByte
    by_cases hab : a < b
    · rw [if_pos hab, Memory.readByte_cons, Memory.readByte_cons, Memory.readByte_writeByte b v c hm]
      by_cases hac : a = c
      · rw [if_pos hac, if_pos hac, if_neg (by omega)]
      · rw [if_neg hac, if_neg hac]
    · rw [if_neg hab]
      by_cases heq : a = b
      · subst heq
        simp only [if_true]
        split <;> rename_i hv
        · by_cases hc : c = a
          · subst hc
            rw [if_pos rfl, hv, Memory.readByte_below (lo := c + 1) (by omega) hm]
          · rw [if_neg hc, Memory.readByte_cons, if_neg (Ne.symm hc)]
        · by_cases hc : c = a
          · rw [Memory.readByte_cons, if_pos hc.symm, if_pos hc]
          · rw [Memory.readByte_cons, if_neg (Ne.symm hc), if_neg hc, Memory.readByte_cons, if_neg (Ne.symm hc)]
      · simp only [if_neg heq]
        split <;> rename_i hv
        · by_cases hc : c = b
          · subst hc
            rw [if_pos rfl, hv, Memory.readByte_cons, if_neg heq,
              Memory.readByte_below (lo := a + 1) (by omega) hm]
          · rw [if_neg hc]
        · by_cases hc : c = b
          · rw [Memory.readByte_cons, if_pos hc.symm, if_pos hc]
          · rw [Memory.readByte_cons, if_neg (Ne.symm hc), if_neg hc]

/-- A write inside the framebuffer keeps the canonical form. -/
theorem Memory.wfFrom_writeByte {b : Nat} (v : Byte) (hb : b < fbBytes) :
    ∀ {lo : Nat} {m : Memory}, lo ≤ b → Memory.wfFrom lo m = true →
      Memory.wfFrom lo (Memory.writeByte m b v) = true
  | lo, [], hlo, _ => by
    unfold Memory.writeByte
    split <;> rename_i hv
    · rfl
    · rw [Memory.wfFrom_cons]
      exact ⟨hlo, hb, hv, rfl⟩
  | lo, (a, u) :: m, hlo, hm => by
    rw [Memory.wfFrom_cons] at hm
    obtain ⟨hla, hab', hu, hm⟩ := hm
    unfold Memory.writeByte
    by_cases hab : a < b
    · rw [if_pos hab, Memory.wfFrom_cons]
      exact ⟨hla, hab', hu, Memory.wfFrom_writeByte v hb hab hm⟩
    · rw [if_neg hab]
      by_cases heq : a = b
      · subst heq
        simp only [if_true]
        split <;> rename_i hv
        · exact Memory.wfFrom_mono (by omega) hm
        · rw [Memory.wfFrom_cons]
          exact ⟨hla, hab', hv, hm⟩
      · have hrest : Memory.wfFrom (b + 1) ((a, u) :: m) = true := by
          rw [Memory.wfFrom_cons]
          exact ⟨by omega, hab', hu, hm⟩
        simp only [if_neg heq]
        split <;> rename_i hv
        · exact Memory.wfFrom_mono (by omega) hrest
        · rw [Memory.wfFrom_cons]
          exact ⟨hlo, hb, hv, hrest⟩

/-- Two framebuffers of the canonical form that read the same are the same list. -/
theorem Memory.ext_of_wfFrom :
    ∀ {lo : Nat} {m n : Memory}, Memory.wfFrom lo m = true → Memory.wfFrom lo n = true →
      (∀ b, Memory.readByte m b = Memory.readByte n b) → m = n
  | _, [], [], _, _, _ => rfl
  | lo, [], (a, v) :: n, _, hn, h => by
    rw [Memory.wfFrom_cons] at hn
    have := h a
    rw [Memory.readByte_cons, if_pos rfl] at this
    exact absurd this.symm hn.2.2.1
  | lo, (a, v) :: m, [], hm, _, h => by
    rw [Memory.wfFrom_cons] at hm
    have := h a
    rw [Memory.readByte_cons, if_pos rfl] at this
    exact absurd this hm.2.2.1
  | lo, (a, v) :: m, (c, w) :: n, hm, hn, h => by
    rw [Memory.wfFrom_cons] at hm hn
    obtain ⟨hla, hab, hv, hm⟩ := hm
    obtain ⟨hlc, hcb, hw, hn⟩ := hn
    have hac : a = c := by
      by_contra hne
      rcases Nat.lt_or_gt_of_ne hne with hlt | hgt
      · have ha := h a
        rw [Memory.readByte_cons, if_pos rfl, Memory.readByte_cons, if_neg (by omega),
          Memory.readByte_below (lo := c + 1) (by omega) hn] at ha
        exact hv ha
      · have hc := h c
        rw [Memory.readByte_cons, if_neg (by omega), Memory.readByte_below (lo := a + 1) (by omega) hm,
          Memory.readByte_cons, if_pos rfl] at hc
        exact hw hc.symm
    subst hac
    have hvw : v = w := by simpa [Memory.readByte_cons] using h a
    subst hvw
    have hrest : ∀ b, Memory.readByte m b = Memory.readByte n b := fun b => by
      by_cases hb : a = b
      · subst hb
        rw [Memory.readByte_below (lo := a + 1) (by omega) hm, Memory.readByte_below (lo := a + 1) (by omega) hn]
      · simpa [Memory.readByte_cons, hb] using h b
    rw [Memory.ext_of_wfFrom hm hn hrest]

theorem Memory.ext_of_wf {m n : Memory} (hm : m.wf = true) (hn : n.wf = true)
    (h : ∀ b, m.readByte b = n.readByte b) : m = n := Memory.ext_of_wfFrom hm hn h

/-- Nothing is listed beyond the framebuffer. -/
theorem Memory.readByte_beyond {b : Nat} (hb : fbBytes ≤ b) :
    ∀ {lo : Nat} {m : Memory}, Memory.wfFrom lo m = true → Memory.readByte m b = Memory.unlisted
  | _, [], _ => rfl
  | lo, (a, v) :: m, hm => by
    rw [Memory.wfFrom_cons] at hm
    rw [Memory.readByte_cons, if_neg (by omega)]
    exact Memory.readByte_beyond hb hm.2.2.2

/-! ### Pixels -/

theorem inCanvas_iff {x y : Nat} : inCanvas x y = true ↔ x ≤ 127 ∧ y ≤ 63 := by
  simp only [inCanvas, fbWidth, fbHeight, Bool.and_eq_true, decide_eq_true_eq]
  omega

theorem byteIndex_lt {x y : Nat} (h : inCanvas x y = true) : byteIndex x y < fbBytes := by
  rw [inCanvas_iff] at h
  simp only [byteIndex, fbWidth, fbBytes]
  omega

/-- A pixel's byte and bit name it alone. -/
theorem byteIndex_bitIndex_inj {x y x' y' : Nat} (hx : x ≤ 127) (hx' : x' ≤ 127)
    (hb : byteIndex x y = byteIndex x' y') (hk : bitIndex y = bitIndex y') : x = x' ∧ y = y' := by
  simp only [byteIndex, bitIndex, fbWidth] at hb hk
  omega

theorem Memory.wf_setPix {m : Memory} (hm : m.wf = true) (x y : Nat) : (m.setPix x y).wf = true := by
  unfold Memory.setPix
  split <;> rename_i h
  · exact Memory.wfFrom_writeByte _ (byteIndex_lt h) (Nat.zero_le _) hm
  · exact hm

/-- `SetPix` sets one pixel of the canvas and no other. -/
theorem Memory.pix_setPix {m : Memory} (hm : m.wf = true) (x y x' y' : Nat) (hx' : x' ≤ 127) (hy' : y' ≤ 63) :
    (m.setPix x y).pix x' y' = (m.pix x' y' || decide (x = x' ∧ y = y')) := by
  have hk' : bitIndex y' < 8 := Nat.mod_lt _ (by decide)
  unfold Memory.setPix
  split <;> rename_i h
  · have hc := inCanvas_iff.mp h
    unfold Memory.pix
    rw [Memory.readByte_writeByte _ _ _ hm]
    by_cases hb : byteIndex x' y' = byteIndex x y
    · have hbit : (BitVec.twoPow 8 (bitIndex y)).getLsbD (bitIndex y') = decide (x = x' ∧ y = y') := by
        rw [Bool.eq_iff_iff, BitVec.getLsbD_twoPow]
        simp only [Bool.and_eq_true, decide_eq_true_eq]
        constructor
        · rintro ⟨_, hk⟩
          obtain ⟨h1, h2⟩ := byteIndex_bitIndex_inj hx' hc.1 hb hk.symm
          exact ⟨h1.symm, h2.symm⟩
        · rintro ⟨rfl, rfl⟩
          exact ⟨hk', rfl⟩
      rw [if_pos hb, BitVec.getLsbD_or, hbit, hb]
    · have hne : ¬(x = x' ∧ y = y') := by rintro ⟨rfl, rfl⟩; exact hb rfl
      simp [hb, hne]
  · have hne : ¬(x = x' ∧ y = y') := by
      rintro ⟨rfl, rfl⟩
      exact h (inCanvas_iff.mpr ⟨hx', hy'⟩)
    simp [hne]

theorem Memory.wf_setPixels : ∀ {m : Memory} (ps : List (Nat × Nat)), m.wf = true → (m.setPixels ps).wf = true
  | _, [], hm => hm
  | _, (x, y) :: ps, hm => Memory.wf_setPixels ps (Memory.wf_setPix hm x y)

/-- Drawing sets the pixels of the list and no other. -/
theorem Memory.pix_setPixels (x' y' : Nat) (hx' : x' ≤ 127) (hy' : y' ≤ 63) :
    ∀ {m : Memory} (ps : List (Nat × Nat)), m.wf = true →
      (m.setPixels ps).pix x' y' = (m.pix x' y' || decide ((x', y') ∈ ps))
  | _, [], _ => by simp [Memory.setPixels]
  | m, (x, y) :: ps, hm => by
    rw [Memory.setPixels, Memory.pix_setPixels x' y' hx' hy' ps (Memory.wf_setPix hm x y),
      Memory.pix_setPix hm x y x' y' hx' hy', Bool.or_assoc]
    congr 1
    rw [Bool.eq_iff_iff]
    simp only [Bool.or_eq_true, decide_eq_true_eq, List.mem_cons, Prod.mk.injEq]
    tauto

@[simp] theorem Memory.wf_clear (m : Memory) : m.clear.wf = true := rfl

@[simp] theorem Memory.pix_clear (m : Memory) (x y : Nat) : m.clear.pix x y = false := by
  simp [Memory.clear, Memory.pix, Memory.unlisted]

/-! ### The drawing primitives as sets of pixels -/

theorem mem_between {a b x : Nat} : x ∈ between a b ↔ min a b ≤ x ∧ x ≤ max a b := by
  simp only [between, List.mem_range'_1]
  omega

theorem mem_hLine {x0 x1 y x' y' : Nat} : (x', y') ∈ hLine x0 x1 y ↔ y' = y ∧ min x0 x1 ≤ x' ∧ x' ≤ max x0 x1 := by
  simp only [hLine, List.mem_map, mem_between, Prod.mk.injEq]
  constructor
  · rintro ⟨x, hx, rfl, rfl⟩
    exact ⟨rfl, hx⟩
  · rintro ⟨rfl, hx⟩
    exact ⟨x', hx, rfl, rfl⟩

theorem mem_vLine {x y0 y1 x' y' : Nat} : (x', y') ∈ vLine x y0 y1 ↔ x' = x ∧ min y0 y1 ≤ y' ∧ y' ≤ max y0 y1 := by
  simp only [vLine, List.mem_map, mem_between, Prod.mk.injEq]
  constructor
  · rintro ⟨y, hy, rfl, rfl⟩
    exact ⟨rfl, hy⟩
  · rintro ⟨rfl, hy⟩
    exact ⟨y', hy, rfl, rfl⟩

theorem mem_fillBlock {x y n x' y' : Nat} :
    (x', y') ∈ fillBlock x y n ↔ x ≤ x' ∧ x' < x + n ∧ y ≤ y' ∧ y' < y + n := by
  simp only [fillBlock, List.mem_flatMap, List.mem_map, List.mem_range, Prod.mk.injEq]
  constructor
  · rintro ⟨j, hj, i, hi, rfl, rfl⟩
    omega
  · intro h
    exact ⟨y' - y, by omega, x' - x, by omega, by omega, by omega⟩

/-! ### The frame's bytes (R61, R62) -/

@[simp] theorem Memory.length_frameBytes (m : Memory) : m.frameBytes.length = 1024 := by
  simp [Memory.frameBytes, fbBytes]

theorem Memory.getD_frameBytes (m : Memory) {b : Nat} (hb : b < 1024) (d : Byte) :
    m.frameBytes.getD b d = m.readByte b := by
  simp [Memory.frameBytes, fbBytes, List.getD, hb]

end Sys2Proof.Machine
end

