-- ==== Sys2Proof/Laws/Frame.lean ====
section
/-! SUPPORT. The pixels of the borders and of the cursor block, as the pictures of Safety.lean say them. -/

namespace Sys2Proof.Machine

/-- A pixel of the canvas is in the border's list iff the border lights it (R226, R227). -/
theorem mem_borderPixels {visible : Bool} {x y : Nat} (hx : x ≤ 127) (hy : y ≤ 63) :
    decide ((x, y) ∈ borderPixels visible) = borderLit visible x y := by
  rw [Bool.eq_iff_iff, decide_eq_true_iff]
  cases visible <;>
    simp [borderPixels, plainBorder, segmentedBorder, rect, mem_hLine, mem_vLine, borderLit] <;> omega

/-- A pixel is in the cursor's list iff the cursor block lights it (R229). -/
theorem mem_cursorPixels {cx cy x y : Nat} :
    decide ((x, y) ∈ fillBlock cx cy cursorSize) = cursorLit cx cy x y := by
  rw [Bool.eq_iff_iff, decide_eq_true_iff, mem_fillBlock]
  simp only [cursorLit, cursorSize, Bool.and_eq_true, decide_eq_true_eq]
  omega

end Sys2Proof.Machine
end

