-- ==== Sys2Proof/Laws/Mapper.lean ====
section
/-! SUPPORT. The mapper's functions on natural numbers: truncated division, the two directions of `remap`, and the
closed forms of R161, R163, R164 and R165. -/

namespace Sys2Proof.Machine

/-- On natural numbers `tdiv` is division (R9). -/
theorem tdiv_natCast (a b : Nat) : tdiv (a : Int) (b : Int) = ((a / b : Nat) : Int) := by
  unfold tdiv
  rcases Nat.eq_zero_or_pos a with rfl | ha
  · simp
  rcases Nat.eq_zero_or_pos b with rfl | hb
  · simp
  rw [Int.sign_natCast_of_ne_zero (by omega), Int.sign_natCast_of_ne_zero (by omega), Int.natAbs_natCast,
    Int.natAbs_natCast, one_mul, one_mul]

/-- A negative dividend: the quotient of the magnitudes, negated (R9). -/
theorem tdiv_neg_natCast (a b : Nat) : tdiv (-(a : Int)) (b : Int) = -((a / b : Nat) : Int) := by
  have h := tdiv_natCast a b
  unfold tdiv at h ⊢
  rw [Int.sign_neg, Int.natAbs_neg, ← h, neg_mul, neg_mul]

/-- `remap` of a rising range from 0 (R160). -/
theorem remap_rising {a b r : Nat} (d : Nat) (ha : a ≤ r) (hb : a ≤ b) :
    remap r a b 0 d = (((r - a) * d / (b - a) : Nat) : Int) := by
  rw [← tdiv_natCast]
  unfold remap
  push_cast [ha, hb]
  ring_nf

/-- `remap` of a falling range to 0 (R160): the quotient is subtracted, so the value rounds up. -/
theorem remap_falling {a b r : Nat} (c : Nat) (ha : a ≤ r) (hb : a ≤ b) :
    remap r a b c 0 = (c : Int) - (((r - a) * c / (b - a) : Nat) : Int) := by
  have hnum : ((r : Int) - a) * (0 - c) = -(((r - a) * c : Nat) : Int) := by
    push_cast [ha]
    ring
  have hden : ((b : Int) - a) = ((b - a : Nat) : Int) := by push_cast [hb]; rfl
  unfold remap
  rw [hnum, hden, tdiv_neg_natCast]
  ring

/-- The falling branch never goes below 0. -/
theorem falling_le {r lo : Nat} (w : Nat) (h : r ≤ lo) : r * w / lo ≤ w := by
  rcases Nat.eq_zero_or_pos lo with rfl | hlo
  · simp
  · exact Nat.div_le_of_le_mul (Nat.mul_le_mul_right w h)

/-- `mapAxis` is the closed form of R161 on every sample. -/
theorem mapAxis_eq {c : Config} (hc : configValid c = true) (r : Nat) :
    mapAxis c (r : Int) = (dutyByRule c r : Int) := by
  obtain ⟨_, h1, h2, _⟩ := (configValid_iff c).mp hc
  have hlo : ((c.center : Int) - c.deadzone) = ((c.center - c.deadzone : Nat) : Int) := by omega
  have hhi : ((c.center : Int) + c.deadzone) = ((c.center + c.deadzone : Nat) : Int) := by omega
  unfold mapAxis dutyByRule
  rw [hlo, hhi]
  dsimp only
  by_cases hl : r < c.center - c.deadzone
  · have hle := falling_le c.wrap hl.le
    have h := remap_falling c.wrap (Nat.zero_le r) (Nat.zero_le (c.center - c.deadzone))
    rw [Nat.sub_zero, Nat.sub_zero, Nat.cast_zero] at h
    rw [if_pos (by exact_mod_cast hl), if_pos hl, h]
    omega
  · rw [if_neg (by exact_mod_cast hl), if_neg hl]
    by_cases hh : c.center + c.deadzone < r
    · rw [if_pos (by exact_mod_cast hh), if_pos hh, remap_rising _ hh.le (by show _ ≤ 4095; omega)]
    · rw [if_neg (by simp only [gt_iff_lt]; exact_mod_cast hh), if_neg hh]
      rfl

/-- `mapX` is the closed form of R163. -/
theorem mapX_eq (r : Nat) : mapX (r : Int) = ((119 * r / 4095 : Nat) : Int) := by
  unfold mapX
  rw [show (0 : Int) = ((0 : Nat) : Int) from rfl, show (119 : Int) = ((119 : Nat) : Int) from rfl]
  have h := remap_rising (a := 0) (b := adcMax) (r := r) 119 (Nat.zero_le _) (Nat.zero_le _)
  rw [Nat.sub_zero, Nat.sub_zero, Nat.mul_comm r] at h
  exact h

/-- `mapY` is the closed form of R164. -/
theorem mapY_eq {r : Nat} (hr : r ≤ 4095) : mapY (r : Int) = ((55 - 55 * r / 4095 : Nat) : Int) := by
  unfold mapY
  have h := remap_falling (a := 0) (b := adcMax) (r := r) 55 (Nat.zero_le _) (Nat.zero_le _)
  rw [Nat.sub_zero, Nat.sub_zero, Nat.mul_comm r] at h
  refine Eq.trans h ?_
  have : 55 * r / adcMax ≤ 55 := Nat.div_le_of_le_mul (by show 55 * r ≤ 4095 * 55; omega)
  show _ = ((55 - 55 * r / adcMax : Nat) : Int)
  omega

/-- The column `COORD` writes (R163, R165). -/
theorem column_eq (r : Nat) : ovx (mapX (r : Int)) = (columnByRule r : Int) := by
  rw [mapX_eq]
  unfold ovx columnByRule
  split_ifs <;> omega

/-- The row `COORD` writes (R164, R165). -/
theorem row_eq {r : Nat} (hr : r ≤ 4095) : ovy (mapY (r : Int)) = (rowByRule r : Int) := by
  rw [mapY_eq hr]
  unfold ovy rowByRule
  split_ifs <;> omega

/-- The duty of a sample never exceeds `WRAP` (R162). -/
theorem dutyByRule_le {c : Config} {r : Nat} (hr : r ≤ 4095) : dutyByRule c r ≤ c.wrap := by
  unfold dutyByRule
  split_ifs with _ hh
  · exact Nat.sub_le _ _
  · exact Nat.div_le_of_le_mul (Nat.mul_le_mul_right _ (by omega))
  · omega

/-- The duty register's value is the closed form, without loss (R161, R162). -/
theorem dutyOf_toNat {c : Config} (hc : configValid c = true) (r : Sample) :
    (dutyOf c r).toNat = dutyByRule c r.toNat := by
  have hr : r.toNat ≤ 4095 := by have := r.isLt; omega
  have hw : c.wrap ≤ 65535 := ((configValid_iff c).mp hc).2.2.2.1
  have hle := dutyByRule_le (c := c) hr
  unfold dutyOf
  rw [mapAxis_eq hc, BitVec.ofInt_natCast, BitVec.toNat_ofNat, Nat.mod_eq_of_lt (by omega)]

theorem columnByRule_lt {r : Nat} (hr : r ≤ 4095) : columnByRule r < 128 := by
  unfold columnByRule
  split_ifs <;> omega

theorem rowByRule_lt (r : Nat) : rowByRule r < 64 := by
  unfold rowByRule
  split_ifs <;> omega

/-- The cursor registers' values are the closed forms, without loss (R163 to R165, R169). -/
theorem column_toNat (r : Sample) : (BitVec.ofInt 7 (ovx (mapX r.toNat))).toNat = columnByRule r.toNat := by
  rw [column_eq, BitVec.ofInt_natCast, BitVec.toNat_ofNat,
    Nat.mod_eq_of_lt (columnByRule_lt (by have := r.isLt; omega))]

theorem row_toNat (r : Sample) : (BitVec.ofInt 6 (ovy (mapY r.toNat))).toNat = rowByRule r.toNat := by
  rw [row_eq (by have := r.isLt; omega), BitVec.ofInt_natCast, BitVec.toNat_ofNat, Nat.mod_eq_of_lt (rowByRule_lt _)]

end Sys2Proof.Machine
end

