-- ==== Sys2Proof/Laws/PerInstr.lean ====
section
/-! SUPPORT. Statements for all instructions, one lemma per constructor. The family `TableRow`: an instruction's
encoding meets the mask and match of its row of spec/opcode_table.json, whatever its operands. -/

namespace Sys2Proof.Laws.TableRow

open Sys2Proof Sys2Proof.Machine

/-- The mask and the match of the instruction's row, a micro-op code zero-extended. -/
def row : Instr → Word × Word
  | .level _ _ => (0xFFFFFEFE, 0x10000000)
  | .tick _ => (0xFFFF0000, 0x20000000)
  | .adc _ _ => (0xFF000000, 0x30000000)
  | .step => (0xFFFFFFFF, 0x40000000)
  | .read _ => (0xFFFFFC00, 0x50000000)
  | .sample => (0xF, 0x0)
  | .duty => (0xF, 0x1)
  | .coord => (0xF, 0x2)
  | .fbClear => (0xF, 0x3)
  | .fbBorder => (0xF, 0x4)
  | .fbCursor => (0xF, 0x5)
  | .fbFlush => (0xF, 0x6)
  | .apply => (0xF, 0x7)
  | .diag => (0xF, 0x8)
  | .sleep => (0xF, 0x9)

/-- The bits of an encoding, a micro-op code zero-extended. -/
def bits : Code → Word
  | .txn32 w => w
  | .uop4 c => c.setWidth 32

/-- The encoding lies in the row of the opcode table. -/
def Statement (i : Instr) : Prop := bits (encode i) &&& (row i).1 = (row i).2

/-- A masked word by bits. -/
theorem and_eq_iff (w m v : Word) :
    w &&& m = v ↔ ∀ k, k < 32 → (w.getLsbD k && m.getLsbD k) = v.getLsbD k := by
  constructor
  · rintro rfl k _
    rw [BitVec.getLsbD_and]
  · intro h
    apply BitVec.eq_of_getLsbD_eq
    intro k hk
    rw [BitVec.getLsbD_and]
    exact h k hk

theorem level (l : Line) (v : Bool) : Statement (.level l v) := by
  unfold Statement
  cases l <;> cases v <;> decide

theorem tick (n : BitVec 16) : Statement (.tick n) := by
  refine (and_eq_iff _ _ _).mpr fun k hk => ?_
  show ((0x2#4 ++ 0#12 ++ n : BitVec (4 + 12 + 16)).getLsbD k && _) = _
  simp only [BitVec.getLsbD_append]
  interval_cases k <;> simp [row]

theorem adc (x y : Sample) : Statement (.adc x y) := by
  refine (and_eq_iff _ _ _).mpr fun k hk => ?_
  show ((0x3#4 ++ 0#4 ++ x ++ y : BitVec (4 + 4 + 12 + 12)).getLsbD k && _) = _
  simp only [BitVec.getLsbD_append]
  interval_cases k <;> simp [row]

theorem step : Statement .step := by
  unfold Statement
  decide

theorem read (a : DebugAddr) : Statement (.read a) := by
  refine (and_eq_iff _ _ _).mpr fun k hk => ?_
  show ((0x5#4 ++ 0#18 ++ a : BitVec (4 + 18 + 10)).getLsbD k && _) = _
  simp only [BitVec.getLsbD_append]
  interval_cases k <;> simp [row]

theorem sample : Statement .sample := by
  unfold Statement
  decide

theorem duty : Statement .duty := by
  unfold Statement
  decide

theorem coord : Statement .coord := by
  unfold Statement
  decide

theorem fbClear : Statement .fbClear := by
  unfold Statement
  decide

theorem fbBorder : Statement .fbBorder := by
  unfold Statement
  decide

theorem fbCursor : Statement .fbCursor := by
  unfold Statement
  decide

theorem fbFlush : Statement .fbFlush := by
  unfold Statement
  decide

theorem apply : Statement .apply := by
  unfold Statement
  decide

theorem diag : Statement .diag := by
  unfold Statement
  decide

theorem sleep : Statement .sleep := by
  unfold Statement
  decide

end Sys2Proof.Laws.TableRow
end

