-- ==== Sys2Proof/Laws/Tick.lean ====
section
/-! SUPPORT. The timebase: what `TICK` does to each field of the sequencer, and that ticks add up (R128). -/

namespace Sys2Proof.Machine

theorem State.tickBy_sleeping (s : State) (n : Nat) :
    (s.tickBy n).sleeping = (s.sleeping && decide (n = 0 ∨ n < s.sleepCnt.toNat)) := by
  obtain ⟨hs, h⟩ | ⟨hs, hn, h⟩ | ⟨hs, h0, hn, h⟩ := s.tickBy_cases n
  · rw [h, hs]; simp
  · rw [h, hs]; simp [hn]
  · rw [h, hs]; simp; omega

theorem State.tickBy_sleepCnt (s : State) (n : Nat) :
    (s.tickBy n).sleepCnt = if s.sleeping then (if n = 0 ∨ n < s.sleepCnt.toNat then s.sleepCnt - BitVec.ofNat 7 n else 0)
      else s.sleepCnt := by
  unfold State.tickBy
  cases s.sleeping
  · rfl
  · simp only [if_true]
    split <;> rfl

theorem State.tickBy_upc (s : State) (n : Nat) :
    (s.tickBy n).upc = if s.sleeping ∧ ¬(n = 0 ∨ n < s.sleepCnt.toNat) then 0 else s.upc := by
  obtain ⟨hs, h⟩ | ⟨hs, hn, h⟩ | ⟨hs, h0, hn, h⟩ := s.tickBy_cases n
  · rw [h]; simp [hs]
  · rw [h, if_neg (by tauto)]
  · rw [h, if_pos ⟨hs, by omega⟩]

/-- A sleep that goes on has counted down by the ticks. -/
theorem State.tickBy_sleepCnt_toNat {s : State} {n : Nat} (hs : s.sleeping = true) (hn : n = 0 ∨ n < s.sleepCnt.toNat) :
    (s.tickBy n).sleepCnt.toNat = s.sleepCnt.toNat - n := by
  have hlt := s.sleepCnt.isLt
  rw [State.tickBy_sleepCnt, if_pos hs, if_pos hn, BitVec.toNat_sub, BitVec.toNat_ofNat]
  omega

/-- Time adds up modulo 2^TS_WIDTH (R24). -/
theorem State.timeAfter_tickBy {s : State} (hts : s.cfg.tsWidth ≤ 32) (m n : Nat) :
    (s.tickBy m).timeAfter n = s.timeAfter (m + n) := by
  unfold State.timeAfter
  rw [State.tickBy_cfg, State.tickBy_nowMs, State.timeAfter_toNat _ _ hts, Nat.mod_add_mod, Nat.add_assoc]

theorem State.timeFits_tickBy {s : State} (hts : s.cfg.tsWidth ≤ 32) (n : Nat) :
    timeFits s.cfg (s.tickBy n).nowMs = true := by
  rw [timeFits, State.tickBy_nowMs, State.timeAfter_toNat _ _ hts, decide_eq_true_eq]
  exact Nat.mod_lt _ (Nat.two_pow_pos _)

/-- No time at all is a hold. -/
theorem State.tickBy_zero {s : State} (hts : s.cfg.tsWidth ≤ 32) (hfit : timeFits s.cfg s.nowMs = true) :
    s.tickBy 0 = s := by
  have hnow : s.timeAfter 0 = s.nowMs := by
    apply BitVec.eq_of_toNat_eq
    rw [State.timeAfter_toNat _ _ hts, Nat.add_zero, Nat.mod_eq_of_lt (by simpa [timeFits] using hfit)]
  apply State.ext <;> simp [State.tickBy_sleeping, State.tickBy_sleepCnt, State.tickBy_upc, hnow]

/-- Two stretches of ticks are one (R128), in a state whose sleep has a millisecond left (R42). -/
theorem State.tickBy_tickBy {s : State} (hts : s.cfg.tsWidth ≤ 32)
    (hcnt : s.sleeping = true → 1 ≤ s.sleepCnt.toNat) (m n : Nat) :
    (s.tickBy m).tickBy n = s.tickBy (m + n) := by
  have htime := State.timeAfter_tickBy hts m n
  cases hs : s.sleeping
  · apply State.ext <;> simp [State.tickBy_sleeping, State.tickBy_sleepCnt, State.tickBy_upc, hs, htime]
  · have h1 := hcnt hs
    by_cases hm : m = 0 ∨ m < s.sleepCnt.toNat
    · have hsub := State.tickBy_sleepCnt_toNat hs hm
      have hiff : (n = 0 ∨ n < s.sleepCnt.toNat - m) ↔ (m + n = 0 ∨ m + n < s.sleepCnt.toNat) := by omega
      have hslp : (s.tickBy m).sleeping = true := by simp [State.tickBy_sleeping, hs, hm]
      have hupc : (s.tickBy m).upc = s.upc := by rw [State.tickBy_upc, if_neg (by tauto)]
      apply State.ext
      case sleeping => simp [State.tickBy_sleeping, hs, hm, hsub, hiff]
      case sleepCnt =>
        rw [State.tickBy_sleepCnt, State.tickBy_sleepCnt s (m + n), hslp, hs, hsub]
        simp only [if_true, hiff]
        split
        · rw [State.tickBy_sleepCnt, hs, if_pos rfl, if_pos hm, BitVec.sub_sub, BitVec.ofNat_add]
        · rfl
      case upc => rw [State.tickBy_upc, State.tickBy_upc s (m + n), hslp, hs, hsub, hupc]; simp only [hiff]
      all_goals simp [htime]
    · have hslp : (s.tickBy m).sleeping = false := by simp [State.tickBy_sleeping, hs, hm]
      apply State.ext
      case sleeping => rw [State.tickBy_sleeping, hslp, State.tickBy_sleeping]; simp; omega
      case sleepCnt =>
        rw [State.tickBy_sleepCnt, hslp, State.tickBy_sleepCnt, State.tickBy_sleepCnt s (m + n), hs]
        simp [hm]; omega
      case upc =>
        rw [State.tickBy_upc, hslp, State.tickBy_upc, State.tickBy_upc s (m + n), hs]
        simp [hm]; omega
      all_goals simp [htime]

end Sys2Proof.Machine
end

