-- ==== Sys2Proof/Tests/Slice0.lean ====
section
/-! SUPPORT. Small tests, their expected results from 95_test_vectors.md or worked out by hand from the rule named, and
a witness for the hypotheses of every statement in Certificates. -/

namespace Sys2Proof.Tests

open Sys2Proof Sys2Proof.Machine

/-! ### Helpers -/

/-- The answer is a next state that passes the check. -/
def after (r : Result) (check : State → Bool) : Bool :=
  match r with
  | .next t => check t
  | _ => false

/-- The answer is a fault. -/
def isFault (r : Result) : Bool :=
  match r with
  | .fault .upcOutsideRom => true
  | _ => false

/-- The answer is CFG_INVALID. -/
def isCfgInvalid (r : Result) : Bool :=
  match r with
  | .refused .cfgInvalid => true
  | _ => false

/-- The example configuration with the narrowest timestamp (R129). -/
def narrow : Config := { Config.example with tsWidth := 9 }

/-- Reset, at a time, with a channel each. -/
def atTime (now : Word) (c0 c1 : Channel) : State := { State.reset with nowMs := now, line0 := c0, line1 := c1 }

/-- A channel with this level and this time of its last accepted edge. -/
def channel (lvl : Bool) (lastTs : Word) : Channel := { Channel.reset with lvl := lvl, lastTs := lastTs }

/-- Reset, with a sequencer in this condition. -/
def sequencer (now : Word) (upc : BitVec 4) (sleeping : Bool) (cnt : BitVec 7) : State :=
  { State.reset with nowMs := now, upc := upc, sleeping := sleeping, sleepCnt := cnt }

/-- The four sequencer values of the table of section 2.3. -/
def seqOf (t : State) : Word × BitVec 4 × Bool × BitVec 7 := (t.nowMs, t.upc, t.sleeping, t.sleepCnt)

/-- Reset, with a pair sampled. -/
def sampled (x y : Sample) (leds : Bool) : State := { State.reset with smpX := x, smpY := y, ledsEnabled := leds }

/-- Reset, with these words to come. -/
def running (ws : List Word) : State := State.reset.load ws

/-- A clock of the hardware with nothing in it but the given pins; the buttons are released, and a micro-op that begins
in it takes one clock where R358 lets it. -/
def clock (msTick seqStep : Bool) : ClockIn where
  rst := false
  msTick := msTick
  btn0 := true
  btn1 := true
  adcX := 0
  adcY := 0
  seqStep := seqStep
  dbgReq := none
  opClocks := 1

/-! ### WellFormed: each check refuses an ill-formed line (R92, R93), and a micro-op is no transaction (R89) -/

theorem test_wf_level_line : (AsmLine.level 2 0).wellFormed = false := by decide
theorem test_wf_level_value : (AsmLine.level 1 2).wellFormed = false := by decide
theorem test_wf_tick : (AsmLine.tick 65536).wellFormed = false := by decide
theorem test_wf_adc_x : (AsmLine.adc 4096 0).wellFormed = false := by decide
theorem test_wf_adc_y : (AsmLine.adc 0 4096).wellFormed = false := by decide
theorem test_wf_read : (AsmLine.read 0x400).wellFormed = false := by decide
theorem test_wf_press : (AsmLine.press 2).wellFormed = false := by decide
theorem test_wf_release : (AsmLine.release 2).wellFormed = false := by decide
theorem test_wf_click : (AsmLine.click 2).wellFormed = false := by decide
theorem test_wf_steps : (AsmLine.steps 0).wellFormed = false := by decide
theorem test_wf_assemble : assemble (.tick 65536) = none := by decide
theorem test_wf_legal_edges :
    (AsmLine.level 1 1).wellFormed && (AsmLine.tick 65535).wellFormed && (AsmLine.adc 4095 4095).wellFormed &&
      (AsmLine.read 0x3FF).wellFormed && (AsmLine.steps 1).wellFormed && (AsmLine.wait 0).wellFormed = true := by
  decide
theorem test_wf_microops_are_no_transactions :
    (romTable.map fun c => (decodeUop c).toOption.map Instr.isTransaction) = List.replicate 10 (some false) := by decide

/-! ### Decoding: the words of section 2.1 and the codes of R88 -/

theorem test_decode_level :
    decodeWord 0x10000000 = .ok (.level .line0 false) ∧ decodeWord 0x10000001 = .ok (.level .line0 true) ∧
      decodeWord 0x10000100 = .ok (.level .line1 false) ∧ decodeWord 0x10000101 = .ok (.level .line1 true) := by decide
theorem test_decode_tick : decodeWord 0x20000000 = .ok (.tick 0) ∧ decodeWord 0x2000FFFF = .ok (.tick 65535) := by
  decide
theorem test_decode_adc :
    decodeWord 0x30000FFF = .ok (.adc 0 4095) ∧ decodeWord 0x30800800 = .ok (.adc 2048 2048) := by decide
theorem test_decode_step : decodeWord 0x40000000 = .ok .step := by decide
theorem test_decode_read : decodeWord 0x50000000 = .ok (.read 0) ∧ decodeWord 0x500003FF = .ok (.read 0x3FF) := by
  decide
theorem test_decode_refused_op :
    ([0x00000000, 0x60000000, 0x70000000, 0xF0000000, 0xFFFFFFFF].map decodeWord) =
      List.replicate 5 (.error .rsvdOp) := by decide
theorem test_decode_refused_bits :
    ([0x10000002, 0x1FFFFFFF, 0x20010000, 0x31000000, 0x3F000000, 0x40000001, 0x50000400].map decodeWord) =
      List.replicate 7 (.error .rsvdBits) := by decide
theorem test_decode_microops :
    ([0x0, 0x1, 0x2, 0x3, 0x4, 0x5, 0x6, 0x7, 0x8, 0x9].map decodeUop) =
      [.ok .sample, .ok .duty, .ok .coord, .ok .fbClear, .ok .fbBorder, .ok .fbCursor, .ok .fbFlush, .ok .apply,
        .ok .diag, .ok .sleep] := by decide
theorem test_decode_unused_microop : decodeUop 0xA = .error .unusedUop ∧ decodeUop 0xF = .error .unusedUop := by decide

/-! ### The opcode table's rows, as the host asks for them -/

theorem test_table_words :
    decodeTableWord 32 0x10000000 = some (.level .line0 false) ∧ decodeTableWord 32 0x20000000 = some (.tick 0) ∧
      decodeTableWord 32 0x30000000 = some (.adc 0 0) ∧ decodeTableWord 32 0x40000000 = some .step ∧
      decodeTableWord 32 0x50000000 = some (.read 0) ∧ decodeTableWord 8 0x0 = some .sample ∧
      decodeTableWord 8 0x9 = some .sleep ∧ decodeTableWord 8 0xA = none ∧ decodeTableWord 32 0x10000002 = none := by
  decide
theorem test_fetch_runs_a_word :
    after (step (State.reset.withFetchWord 32 0x20000007)) (fun t => t.nowMs == 7 && t.inputs == []) = true := by
  decide
theorem test_fetch_runs_a_microop :
    after (step (State.reset.withFetchWord 8 0x9)) (fun t => seqOf t == (0, 9, true, 100)) = true := by decide

/-! ### LEVEL: V2, V3, V4, V6, V10, V11 of section 2.2, and R129's narrow counter -/

theorem test_level_accepts :
    after (exec (.level .line0 false) (atTime 251 (channel true 0) (channel true 0)))
        (fun t => t.line0 == channel false 251 && t.borderVisible == true && t.ledsEnabled == true) &&
      after (exec (.level .line1 false) (atTime 251 (channel true 0) (channel true 0)))
        (fun t => t.line1 == channel false 251 && t.ledsEnabled == false && t.line0 == channel true 0) &&
      after (exec (.level .line0 false) (atTime 5 (channel true 0xFFFFFF06) (channel true 0)))
        (fun t => t.line0 == channel false 5 && t.borderVisible == true) = true := by decide
theorem test_level_does_not_accept :
    after (exec (.level .line0 false) (atTime 250 (channel true 0) (channel true 0)))
        (fun t => t.line0 == channel false 0 && t.borderVisible == false) &&
      after (exec (.level .line0 true) (atTime 1000 (channel false 100) (channel true 0)))
        (fun t => t.line0 == channel true 100 && t.borderVisible == false) &&
      after (exec (.level .line0 false) (atTime 5 (channel true 0xFFFFFF10) (channel true 0)))
        (fun t => t.line0 == channel false 0xFFFFFF10 && t.borderVisible == false) = true := by decide
theorem test_gap_narrow_counter :
    (State.gap { atTime 100 (channel true 400) (channel true 0) with cfg := narrow } .line0) = 212 := by decide

/-! ### TICK, STEP and SLEEP: section 2.3 -/

theorem test_tick_time :
    after (exec (.tick 1000) (sequencer 0 3 false 0)) (fun t => seqOf t == (1000, 3, false, 0)) &&
      after (exec (.tick 1) (sequencer 0xFFFFFFFF 0 false 0)) (fun t => seqOf t == (0, 0, false, 0)) &&
      after (exec (.tick 2) { sequencer 511 0 false 0 with cfg := narrow }) (fun t => seqOf t == (1, 0, false, 0)) =
        true := by decide
theorem test_tick_sleep :
    after (exec (.tick 99) (sequencer 400 9 true 100)) (fun t => seqOf t == (499, 9, true, 1)) &&
      after (exec (.tick 1) (sequencer 499 9 true 1)) (fun t => seqOf t == (500, 0, false, 0)) &&
      after (exec (.tick 150) (sequencer 400 9 true 100)) (fun t => seqOf t == (550, 0, false, 0)) = true := by decide
theorem test_step_sleep :
    after (exec .step (sequencer 10 9 false 0)) (fun t => seqOf t == (10, 9, true, 100)) &&
      after (exec .step (sequencer 10 9 true 37)) (fun t => seqOf t == (10, 9, true, 37)) = true := by decide
theorem test_step_advances :
    after (exec .step { sequencer 0 0 false 0 with adcIn := some (7, 9) })
      (fun t => t.upc == 1 && t.smpX == 7 && t.smpY == 9) = true := by decide
theorem test_sleep : after (exec .sleep (sequencer 10 9 false 0)) (fun t => seqOf t == (10, 9, true, 100)) = true := by
  decide

/-! ### ADC, SAMPLE and DIAG (R263, R264, section 2.9) -/

theorem test_adc : after (exec (.adc 0 4095) State.reset) (fun t => t.adcIn == some (0, 4095) && t.smpY == 0) = true := by
  decide
theorem test_sample :
    after (exec .sample { State.reset with adcIn := some (0, 4095) }) (fun t => t.smpX == 0 && t.smpY == 4095) = true := by
  decide
theorem test_diag_record :
    State.diagRecord { State.reset with smpX := 0, smpY := 2048, dutyNext0 := 4095, dutyNext1 := 0 } =
      0x0008000FFF0000 := by decide
theorem test_diag_is_delivered_or_lost :
    ∃ t, exec .diag { State.reset with smpX := 2048, smpY := 2048 } = .next t ∧
      (t.out = [] ∨ t.out = [.diag 0x80080000000000]) := by
  refine ⟨_, exec_eq_effect (by decide) _, ?_⟩
  simp only [effect]
  split
  · exact .inr (by decide)
  · exact .inl rfl

/-! ### The mapper: sections 2.4, 2.5 and 2.6 -/

theorem test_mapAxis_ends :
    ([0, 1, 1847, 1848, 2248, 2249, 4094, 4095].map (mapAxis Config.example)) = [4095, 4093, 3, 0, 0, 2, 4092, 4095] := by
  decide
theorem test_mapAxis_wide :
    ([1, 1000, 3171].map (mapAxis { Config.example with wrap := 65535 })) = [65500, 30073, 32749] := by decide
theorem test_duty_enabled :
    after (exec .duty (sampled 3000 1000 true)) (fun t => t.dutyNext0 == 1667 && t.dutyNext1 == 1880) = true := by decide
theorem test_duty_disabled :
    after (exec .duty { sampled 0 4095 false with dutyNext0 := 5 }) (fun t => t.dutyNext0 == 0 && t.dutyNext1 == 0) = true := by
  decide
theorem test_coord : after (exec .coord (sampled 3000 1000 true)) (fun t => t.curX == 87 && t.curY == 42) = true := by decide
theorem test_coord_overrides :
    after (exec .coord (sampled 4094 4094 true)) (fun t => t.curX == 116 && t.curY == 4) &&
      after (exec .coord (sampled 4095 4095 true)) (fun t => t.curX == 119 && t.curY == 0) &&
      after (exec .coord (sampled 0 0 true)) (fun t => t.curX == 4 && t.curY == 52) = true := by decide

/-! ### APPLY (section 2.7) -/

theorem test_apply_reads_no_flag :
    after (exec .apply { State.reset with ledsEnabled := false, dutyNext0 := 4095, dutyNext1 := 7, dutyOut0 := 1 })
      (fun t => t.dutyOut0 == 4095 && t.dutyOut1 == 7) = true := by decide

/-! ### The compositor: section 2.8 -/

theorem test_fbClear : after (exec .fbClear { State.reset with fb := [(3, 5)] }) (fun t => t.fb == []) = true := by decide
theorem test_fbBorder_plain :
    ([(0, 0), (126, 0), (127, 62), (64, 63), (0, 33)].map fun p => decide (p ∈ borderPixels false)) =
        List.replicate 5 true ∧
      ([(1, 1), (126, 62), (64, 32), (128, 0), (0, 64)].map fun p => decide (p ∈ borderPixels false)) =
        List.replicate 5 false := by decide +kernel
theorem test_fbBorder_segmented :
    after (exec .fbBorder { State.reset with borderVisible := true })
      (fun t => ([13, 14, 40, 41, 84, 85, 114, 128, 255, 768, 896, 937, 1023].map t.fb.readByte) ==
        [1, 0, 0, 1, 1, 0, 1, 0x3F, 0x3F, 0xFC, 0xFF, 0x80, 0xFF]) = true := by decide +kernel
theorem test_fbCursor :
    after (exec .fbCursor { State.reset with curX := 59, curY := 28 })
      (fun t => ([442, 443, 450, 451, 571, 578].map t.fb.readByte) == [0, 0xF0, 0xF0, 0, 0x0F, 0x0F]) = true := by
  decide +kernel
theorem test_fbCursor_is_clipped :
    after (exec .fbCursor { State.reset with curX := 124, curY := 60 })
      (fun t => t.fb == [(1020, 0xF0), (1021, 0xF0), (1022, 0xF0), (1023, 0xF0)]) = true := by decide +kernel
theorem test_fbFlush :
    after (exec .fbFlush { State.reset with fb := [(1, 0x81)] })
      (fun t => match t.out with
        | [.frame bytes] => bytes.take 3 == [0, 0x81, 0] && bytes.length == 1024
        | _ => false) = true := by decide +kernel

/-! ### READ: section 2.10 -/

theorem test_read_seq :
    after (exec (.read 0x009) (sequencer 0 9 true 100)) (fun t => t.out == [.rdata 0x009 0x00006419]) = true := by decide
theorem test_read_window :
    after (exec (.read 0x16E) { State.reset with fb := [(443, 0xF0)] }) (fun t => t.out == [.rdata 0x16E 0xF0000000]) = true := by
  decide
theorem test_read_cfg :
    memRead State.reset 0x00A = 0x00C80800 ∧ memRead State.reset 0x00B = 0x00200FFF ∧
      memRead { State.reset with curX := 59, curY := 28 } 0x008 = 0x00001C3B := by decide

/-! ### The configuration check (section 2.11), refused words (program P4), reset, clocks and the assembler -/

theorem test_config :
    ([(2048, 200), (2, 1), (4093, 1), (2047, 2046), (2048, 0), (2048, 2048), (2048, 2047), (4094, 1), (1, 0)].map
      fun p => configValid { Config.example with center := p.1, deadzone := p.2 }) =
        [true, true, true, true, false, false, false, false, false] := by decide
theorem test_config_invalid_step :
    isCfgInvalid (step { running [0x40000000] with cfg := { Config.example with deadzone := 0 } }) = true := by decide
theorem test_refused_word :
    after (step (running [0x60000000, 0x10000002])) (fun t =>
      t == { running [0x10000002] with refusedMark := some .rsvdOp }) = true := by decide
theorem test_reset_keeps_fb_and_record :
    after (step { sequencer 9 5 false 0 with inputs := [.reset], fb := [(0, 1)], out := [.rdata 0 0] })
      (fun t => t == { State.reset with fb := [(0, 1)], out := [.rdata 0 0] }) = true := by decide
theorem test_clock_sleep_and_tick :
    after (step { sequencer 0 9 false 0 with inputs := [.clock (clock true true)] })
      (fun t => seqOf t == (1, 9, true, 99)) = true := by decide
/-! ### Micro-ops of several clocks, debug requests that wait, and the ports (R352, R294, R340, R62, R270) -/

/-- Reset, with the micro-op at `upc` in progress and the next clock to come. -/
def busy (upc : BitVec 4) (m : MicroOp) (c : ClockIn) : State :=
  { State.reset with upc := upc, inProgress := some m, inputs := [.clock c] }

theorem test_clock_micro_op_begins :
    after (step { sequencer 0 3 false 0 with fb := [(0, 1)], inputs := [.clock { clock false true with opClocks := 2 }] })
      (fun t => t.upc == 3 && t.fb == [(0, 1)] &&
        t.inProgress == some { total := 2, done := 1, leds := true, border := false }) = true := by decide
theorem test_clock_micro_op_ends_with_its_first_flags :
    after (step { busy 4 { total := 2, done := 1, leds := true, border := true } (clock false false) with
        borderVisible := false })
      (fun t => t.upc == 5 && t.inProgress == none && t.borderVisible == false && t.fb.readByte 20 == 0 &&
        t.fb.readByte 13 == 1) = true := by decide +kernel
theorem test_clock_step_ignored_in_progress :
    after (step (busy 6 { total := 1024, done := 5, leds := true, border := false } (clock true true)))
      (fun t => t.upc == 6 && t.inProgress == some { total := 1024, done := 6, leds := true, border := false } &&
        t.nowMs == 1 && t.out == []) = true := by decide
theorem test_clock_request_waits :
    after (step (busy 6 { total := 1024, done := 5, leds := true, border := false }
        { clock false false with dbgReq := some 0x00B }))
      (fun t => t.waiting == [0x00B] && t.out == []) &&
    after (step { State.reset with waiting := [0x00B], inputs := [.clock (clock false false)] })
      (fun t => t.waiting == [] && t.out == [.rdata 0x00B 0x00200FFF]) = true := by decide
theorem test_clock_reset_abandons :
    after (step { busy 6 { total := 1024, done := 1023, leds := true, border := false }
        { clock true true with rst := true } with fb := [(0, 1)] })
      (fun t => t.upc == 0 && t.inProgress == none && t.fb == [(0, 1)] && t.out == []) = true := by decide
theorem test_word_settles_first :
    after (step { busy 6 { total := 1024, done := 1, leds := true, border := false } (clock false false) with
        waiting := [0x00A], inputs := [.txn 0x5000000B] })
      (fun t => t.upc == 7 && t.inProgress == none && t.waiting == [] &&
        t.out.tail == [.rdata 0x00A 0x00C80800, .rdata 0x00B 0x00200FFF]) = true := by decide +kernel
theorem test_clocks_of : (clocksOf 6 1, clocksOf 0 9, clocksOf 5 99, clocksOf 3 0, clocksOf 2 7) = (1024, 1, 16, 1, 7) := by
  decide
theorem test_ports_diag :
    State.diagPulse { sampled 0 2048 true with upc := 8, dutyNext0 := 4095 } (clock false true) =
        some 0x0008000FFF0000 ∧
      State.diagPulse { sampled 0 2048 true with upc := 8 } (clock false false) = none := by decide
theorem test_ports_stream :
    State.dispBeat { sequencer 0 6 false 0 with fb := [(0, 7)] } (clock false true) = some { data := 7, sof := true } ∧
      State.dispBeat { busy 6 { total := 1024, done := 5, leds := true, border := false } (clock false false) with
        fb := [(5, 9)] } (clock false false) = some { data := 9, sof := false } := by decide

theorem test_assemble_wait : assemble (.wait 70000) = some [0x2000FFFF, 0x20001171] := by decide +kernel
theorem test_assemble_text :
    assembleLine "  level 1, 0x0 ; press".toList = some [0x10000100] ∧ assembleLine "FOO 1".toList = none := by
  decide +kernel

/-! ### Witnesses: for every statement with hypotheses, states and operands that meet them, each clause at a boundary -/

/-- The reset state meets the invariants. -/
theorem reset_blockInv : BlockInv State.reset := by
  refine ⟨?_, ?_, ?_, ?_, ?_, ?_, ?_, ?_, ?_, ?_, ?_, ?_, ?_, ?_, ?_⟩ <;> decide

theorem reset_frameInv : FrameInv State.reset := by
  refine ⟨?_, ?_, ?_, ?_⟩
  · intro h
    exact absurd h (by decide)
  · intro h
    exact absurd h (by decide)
  · intro h
    exact absurd h (by decide)
  · intro bytes h
    exact absurd h (List.not_mem_nil)

/-- The invariants do not look at the rest of the run. -/
theorem blockInv_withInputs {s : State} (h : BlockInv s) (is : List Input) : BlockInv { s with inputs := is } := by
  obtain ⟨h1, h2, h3, h4, h5, h6, h7, h8, h9, h10, h11, h12, h13, h14, h15⟩ := h
  exact ⟨h1, h2, h3, h4, h5, h6, h7, h8, h9, h10, h11, h12, h13, h14, h15⟩

theorem witness_EncodeOfDecodeIsTheCode :
    decode (.txn32 0x300FFFFF) = .ok (.adc 255 4095) ∧ decode (.uop4 0x9) = .ok .sleep := by decide

theorem witness_ReservedWords :
    (opOf 0x0FFFFFFF = 0 ∧ opOf 0x60000000 = 6 ∧ opOf 0xFFFFFFFF = 15) ∧
      (opOf 0x10000080 = 1 ∧ isReservedBit 1 7 = true ∧ (0x10000080 : Word).getLsbD 7 = true) ∧
      (opOf 0x58000000 = 5 ∧ isReservedBit 5 27 = true ∧ (0x58000000 : Word).getLsbD 27 = true) ∧
      (configValid (running [0x58000000]).cfg = true ∧ (running [0x58000000]).inputs = .txn 0x58000000 :: [] ∧
        decodeWord 0x58000000 = .error .rsvdBits) := by decide

theorem witness_ReservedWords_legal :
    opOf 0x500003FF = 5 ∧ ∀ k, isReservedBit (opOf 0x500003FF) k = true → (0x500003FF : Word).getLsbD k = false := by
  refine ⟨by decide, fun k hk => ?_⟩
  have h5 : opOf 0x500003FF = 5 := by decide
  rw [h5] at hk
  have hlt : k < 28 := by
    simp only [isReservedBit, Bool.and_eq_true, decide_eq_true_eq] at hk
    omega
  revert hk
  revert k
  decide

theorem witness_RomHolds : (9 : BitVec 4).toNat ≤ 9 ∧ 10 ≤ (10 : BitVec 4).toNat ∧ 10 ≤ (15 : BitVec 4).toNat := by
  decide

theorem witness_StepRuns :
    configValid (running [0x20000007]).cfg = true ∧ (running [0x20000007]).inputs = .txn 0x20000007 :: [] ∧
      decodeWord 0x20000007 = .ok (.tick 7) ∧ Quiet (running [0x20000007]) :=
  ⟨by decide, by decide, by decide, rfl, rfl⟩

theorem witness_StepWithoutInput : configValid State.reset.cfg = true ∧ State.reset.inputs = [] := by decide

theorem witness_Reset :
    configValid Config.example = true ∧ ({ State.reset with inputs := [.reset] } : State).inputs = .reset :: [] := by
  decide

theorem witness_Configurations :
    configValid { Config.example with center := 2, deadzone := 1, tsWidth := 9, wrap := 65535 } = true ∧
      configValid { Config.example with center := 4093, deadzone := 1 } = true ∧
      configValid { Config.example with tsWidth := 33 } = false ∧
      configValid { Config.example with tsWidth := 8 } = false ∧
      configValid { Config.example with wrap := 65536 } = false := by decide

theorem witness_Configurations_step :
    ∃ t, step (running [0x40000000]) = .next t := ⟨_, rfl⟩

theorem witness_NoStepStops : BlockInv State.reset := reset_blockInv

theorem witness_AcceptedEdge :
    (atTime 251 (channel true 0) (channel true 0)).line0.lvl = true ∧
      250 < ((251 : Word) - 0).toNat % 2 ^ Config.example.tsWidth ∧
      (atTime 251 (channel true 0) (channel true 0)).line1.lvl = true := by decide

theorem witness_RejectedEdge :
    (atTime 250 (channel true 0) (channel true 0)).line0.lvl = true ∧
      ((250 : Word) - 0).toNat % 2 ^ Config.example.tsWidth ≤ 250 ∧
      (atTime 250 (channel true 0) (channel true 0)).line1.lvl = true := by decide

theorem witness_NonEdges :
    (atTime 0 (channel false 0) (channel false 0)).line0.lvl = false ∧
      (atTime 0 (channel false 0) (channel false 0)).line1.lvl = false := by decide

/-- The premises about a state and a line in the statement on elapsed time. -/
def mayFall (l : Line) (s : State) : Bool :=
  configValid s.cfg && timeFits s.cfg s.nowMs && timeFits s.cfg (s.chan l).lastTs && (s.chan l).lvl

/-- Elapsed 250 and 251 without a wrap, and 250 and 251 across the wrap of a 9-bit counter. -/
theorem witness_Debounce :
    mayFall .line1 (atTime 250 (channel true 0) (channel true 0)) &&
      mayFall .line1 (atTime 251 (channel true 0) (channel true 0)) &&
      mayFall .line0 { atTime 138 (channel true 400) (channel true 0) with cfg := narrow } &&
      mayFall .line0 { atTime 139 (channel true 400) (channel true 0) with cfg := narrow } = true := by decide

theorem witness_FlagParity : ∃ t, allWords 2 (running [0x2000012C, 0x10000000]).inputs = true ∧
    Runs 2 (running [0x2000012C, 0x10000000]) t ∧
    acceptedEdges .line0 2 (running [0x2000012C, 0x10000000]) = 1 := ⟨_, by decide, rfl, by decide⟩

/-- Two accepted edges of line 0, 251 ms apart (words 1 to 10 of program P1 without the rejected ones). -/
theorem witness_EdgesApart :
    ∃ t u, nextAccepts .line0 { running [0x10000000, 0x10000001, 0x200000FB, 0x10000000] with nowMs := 300 } = true ∧
      step { running [0x10000000, 0x10000001, 0x200000FB, 0x10000000] with nowMs := 300 } = .next t ∧
      allWords 2 t.inputs = true ∧ Runs 2 t u ∧ acceptedEdges .line0 2 t = 0 ∧ nextAccepts .line0 u = true ∧
      ticksOf 2 t.inputs = 251 := ⟨_, _, by decide, rfl, by decide, rfl, by decide, by decide, by decide⟩

/-- One instruction for each writer the statement names. -/
theorem witness_FieldWriters :
    after (exec (.tick 1) State.reset) (fun t => t.nowMs != 0) &&
      after (exec (.level .line1 false) (atTime 251 (channel true 0) (channel true 0)))
        (fun t => t.line1.lvl != true && t.line1.lastTs != 0 && t.ledsEnabled != State.reset.ledsEnabled) &&
      after (exec .step { State.reset with adcIn := some (1, 2) }) (fun t => t.smpX != 0 && t.upc != 0) &&
      after (exec .duty (sampled 0 0 true)) (fun t => t.dutyNext0 != 0) &&
      after (exec .coord (sampled 0 0 true)) (fun t => t.curX != 0) &&
      after (exec .fbClear { State.reset with fb := [(0, 1)] }) (fun t => t.fb != [(0, 1)]) &&
      after (exec .apply { State.reset with dutyNext0 := 1 }) (fun t => t.dutyOut0 != 0) &&
      after (exec .sleep State.reset) (fun t => t.sleeping != false && t.sleepCnt != 0) &&
      after (exec (.adc 1 2) State.reset) (fun t => t.adcIn != none) &&
      after (exec (.read 0) State.reset) (fun t => t.out != []) = true := by decide

theorem witness_MicroOps : Instr.sleep ∈
    [Instr.sample, .coord, .fbClear, .fbCursor, .fbFlush, .apply, .diag, .sleep] := by decide

/-- A sleep with one millisecond more than the ticks, and one with as many; a single tick in each. -/
theorem witness_Tick :
    (sequencer 0 3 false 0).sleeping = false ∧
      ((sequencer 0 9 true 100).sleeping = true ∧ (99 : BitVec 16).toNat < (sequencer 0 9 true 100).sleepCnt.toNat) ∧
      ((sequencer 0 9 true 100).sleeping = true ∧ 1 ≤ (sequencer 0 9 true 100).sleepCnt.toNat ∧
        (sequencer 0 9 true 100).sleepCnt.toNat ≤ (100 : BitVec 16).toNat) := by decide

theorem witness_SingleTicks :
    configValid (sequencer 0 9 true 1).cfg = true ∧ timeFits Config.example (sequencer 0 9 true 1).nowMs = true ∧
      ((sequencer 0 9 true 1).sleeping = true → 1 ≤ (sequencer 0 9 true 1).sleepCnt.toNat) := by decide

theorem witness_StepPerforms :
    ((sequencer 0 0 false 0).sleeping = false ∧ (sequencer 0 0 false 0).upc.toNat ≤ 9) ∧
      ((sequencer 0 9 false 0).sleeping = false ∧ (sequencer 0 9 false 0).upc.toNat ≤ 9) := by decide

theorem witness_UpcWritten :
    ((sequencer 0 8 false 0).sleeping = false ∧ (sequencer 0 8 false 0).upc.toNat ≤ 8) ∧
      ((sequencer 0 9 false 0).sleeping = false ∧ (sequencer 0 9 false 0).upc = 9) ∧
      after (exec (.tick 1) (sequencer 0 9 true 1)) (fun t => t.upc != 9) = true ∧
      after (exec .step (sequencer 0 8 false 0)) (fun t => t.upc != 8) = true := by
  refine ⟨by decide, by decide, by decide, ?_⟩
  rw [exec_step_awake (j := .diag) (by decide) (by decide) (by decide)]
  simp [effect, after, sequencer, State.advanceUpc]

theorem witness_SleepHolds : (sequencer 0 9 true 1).sleeping = true ∧ 1 ≤ (sequencer 0 9 true 1).sleepCnt.toNat := by
  decide

theorem witness_OutsideTheRom :
    ((sequencer 0 10 false 0).sleeping = false ∧ 10 ≤ (sequencer 0 10 false 0).upc.toNat) ∧
      isFault (exec .step (sequencer 0 15 false 0)) = true := by decide

theorem witness_Sample : ({ State.reset with adcIn := some (1, 2) } : State).adcIn = some (1, 2) := by decide

theorem witness_SampleBeforeTheFirstAdc : State.reset.adcIn = none := by decide

theorem witness_EnabledDuty : configValid (sampled 0 4095 true).cfg = true ∧ (sampled 0 4095 true).ledsEnabled = true := by
  decide

theorem witness_DisabledDuty : (sampled 0 4095 false).ledsEnabled = false := by decide

/-- The smallest and the largest centre; a rise from `hi + 1` on and a fall up to `lo - 1` both have two samples. -/
theorem witness_MapAxis :
    configValid { Config.example with center := 2, deadzone := 1, wrap := 10 } = true ∧
      configValid { Config.example with center := 4093, deadzone := 1, wrap := 0 } = true ∧
      (Config.example.center - Config.example.deadzone = 1848 ∧ 1848 ≤ 2248 ∧ 1846 ≤ 1847 ∧ 1847 ≤ 1848 - 1) ∧
      (Config.example.center + Config.example.deadzone = 2248 ∧ 2248 + 1 ≤ 2249 ∧ 2249 ≤ 4095) ∧
      1 ≤ Config.example.wrap ∧ Config.example.wrap = 4095 ∧
      ({ Config.example with wrap := 1846 } : Config).wrap < 4095 - 2248 := by decide

theorem witness_CoordValues : ((1 ≤ 117 ∧ 117 ≤ 117) ∨ 117 = 119) ∧ (54 = 0 ∨ (2 ≤ 54 ∧ 54 ≤ 54)) := by decide

theorem witness_Border : State.reset.fb.wf = true ∧ Memory.wf [(0, 1), (1023, 0x80)] = true := by decide

theorem witness_BorderCounts : State.reset.fb.wf = true ∧ Shows State.reset.fb fun _ _ => false := by
  refine ⟨by decide, fun x y _ _ => ?_⟩
  show (0 : Byte).getLsbD (y % 8) = false
  simp

theorem witness_FramebufferBytes : (1023 : Nat) < 1024 ∧ (7 : Nat) < 8 ∧ (127 : Nat) ≤ 127 ∧ (63 : Nat) ≤ 63 := by decide

theorem witness_Registers : configValid (sequencer 0xFFFFFFFF 9 true 100).cfg = true := by decide

theorem witness_Window : (0 : Nat) ≤ 255 ∧ (255 : Nat) ≤ 255 ∧
    after (exec (.read 0x1FF) { State.reset with fb := [(1020, 1), (1023, 0x80)] })
      (fun t => t.out == [.rdata 0x1FF 0x80000001]) = true := by decide

theorem witness_ReadsRemoved :
    (∃ t, Quiet State.reset ∧ State.reset.inputs = [] ∧ Runs 2 (State.reset.load [0x50000000, 0x20000001]) t ∧
      withoutReads [0x50000000, 0x20000001] = [0x20000001]) ∧
    ∃ t, Runs 1 { State.reset with inputs := [.clock { clock true true with dbgReq := some 1 }] } t ∧
      t.out = [.rdata 1 0] := ⟨⟨_, ⟨rfl, rfl⟩, by decide, rfl, by decide⟩, ⟨_, rfl, by decide⟩⟩

theorem witness_PowerOn : configValid Config.example = true ∧ Memory.wf [(5, 1)] = true := by decide

theorem witness_StepKeeps : ∃ t, BlockInv (running [0x40000000]) ∧ FrameInv State.reset ∧
    step (running [0x40000000]) = .next t :=
  ⟨_, blockInv_withInputs reset_blockInv _, reset_frameInv, rfl⟩

/-- A tick that does not wrap, and a reset. -/
theorem witness_Timestamps :
    (∃ t, BlockInv (running [0x20000001]) ∧
      (running [0x20000001]).line0.lastTs.toNat ≤ (running [0x20000001]).nowMs.toNat ∧
      step (running [0x20000001]) = .next t ∧ (running [0x20000001]).nowMs.toNat ≤ t.nowMs.toNat) ∧
    ∃ t, BlockInv { State.reset with inputs := [.reset] } ∧ step { State.reset with inputs := [.reset] } = .next t :=
  ⟨⟨_, blockInv_withInputs reset_blockInv _, by decide, rfl, by decide⟩,
    ⟨_, blockInv_withInputs reset_blockInv _, rfl⟩⟩

/-- An iteration point at which the frame clauses say something: the clear is done. -/
theorem witness_StepEmits : ∃ t,
    BlockInv { State.reset with upc := 4, curX := 59, curY := 28, inputs := [.txn 0x40000000] } ∧
      FrameInv { State.reset with upc := 4, curX := 59, curY := 28, inputs := [.txn 0x40000000] } ∧
      step { State.reset with upc := 4, curX := 59, curY := 28, inputs := [.txn 0x40000000] } = .next t := by
  refine ⟨_, ?_, ⟨fun _ x y _ _ => ?_, ?_, ?_, ?_⟩, rfl⟩
  · refine ⟨?_, ?_, ?_, ?_, ?_, ?_, ?_, ?_, ?_, ?_, ?_, ?_, ?_, ?_, ?_⟩ <;> decide
  · show (0 : Byte).getLsbD (y % 8) = false
    simp
  · intro h
    exact absurd h (by decide)
  · intro h
    exact absurd h (by decide)
  · intro bytes h
    exact absurd h (List.not_mem_nil)

theorem witness_OutputRecord : ∃ t, step (running [0x50000000]) = .next t := ⟨_, rfl⟩

theorem witness_RefusedMark :
    (∃ t, step (running [0]) = .next t ∧ (running [0]).refusedMark = none ∧ t.refusedMark = some .rsvdOp) ∧
      ∃ t, step { running [0x10000002] with refusedMark := some .rsvdOp } = .next t ∧
        t.refusedMark = some .rsvdOp := ⟨⟨_, rfl, by decide, by decide⟩, ⟨_, rfl, by decide⟩⟩

theorem witness_DiagPort : BlockInv { sequencer 0 8 false 0 with curX := 59, curY := 28 } := by
  refine ⟨?_, ?_, ?_, ?_, ?_, ?_, ?_, ?_, ?_, ?_, ?_, ?_, ?_, ?_, ?_⟩ <;> decide

/-- A quiet clock of one `STEP`, a micro-op of several clocks that begins and one that goes on, and a whole one. -/
theorem witness_Clock :
    (configValid State.reset.cfg = true ∧ (clock true true).rst = false ∧ (clock true true).seqStep = true ∧
      State.reset.inProgress = none ∧ clocksOf State.reset.upc (clock true true).opClocks = 1) ∧
    (1 < clocksOf (sequencer 0 6 false 0).upc (clock true true).opClocks ∧ (sequencer 0 6 false 0).sleeping = false) ∧
    (busy 6 { total := 1024, done := 1022, leds := true, border := false } (clock true true)).inProgress =
      some { total := 1024, done := 1022, leds := true, border := false } ∧
    ([clock true true].length + 1 = clocksOf (sequencer 0 3 false 0).upc 2 ∧
      ∃ t, Runs 2 { sequencer 0 3 false 0 with
        inputs := [.clock { clock false true with opClocks := 2 }, .clock (clock true true)] } t ∧ t.upc = 4) :=
  ⟨by decide, by decide, by decide, by decide, _, rfl, by decide⟩

theorem witness_SleepAndTick :
    after (step { sequencer 0 9 true 1 with inputs := [.clock (clock true true)] }) (fun t => seqOf t == (1, 0, false, 0)) =
      true := by decide

theorem witness_Synchroniser :
    ∃ t, Runs 3 { State.reset with inputs := [.clock { clock false false with btn0 := false }, .clock (clock false false),
      .clock (clock false false)] } t ∧ t.line0.lvl = false := ⟨_, rfl, by decide⟩

theorem witness_FlushClock :
    (List.replicate 1024 (clock true true)).length = 1024 ∧
      (∀ c ∈ List.replicate 1024 (clock true true), c.rst = false) ∧
      (∀ c ∈ (List.replicate 1024 (clock true true)).head?, c.seqStep = true) ∧
      (sequencer 0 6 false 0).inProgress = none ∧ (clock true true).rst = false ∧ (clock true true).seqStep = true ∧ (sequencer 0 6 false 0).sleeping = false ∧
      (sequencer 0 6 false 0).upc = 6 ∧ configValid (sequencer 0 6 false 0).cfg = true :=
  ⟨List.length_replicate, fun _ hc => List.eq_of_mem_replicate hc ▸ rfl, fun _ hc => by
    cases hc
    rfl, by decide⟩

theorem witness_ResetClock : ({ clock true true with rst := true } : ClockIn).rst = true ∧
    ∃ t, step (busy 6 { total := 1024, done := 1023, leds := true, border := false }
      { clock true true with rst := true }) = .next t := ⟨by decide, _, rfl⟩

/-- A state from which the words of `ITER` run. -/
theorem witness_Iter : ∃ ws, assemble .iter = some ws ∧ ws.length = 11 ∧
    BlockInv { State.reset with adcIn := some (0, 4095), inputs := ws.map .txn ++ [] } ∧
    Quiet State.reset ∧ State.reset.upc = 0 ∧ State.reset.sleeping = false := by
  refine ⟨List.replicate 10 0x40000000 ++ [0x20000064], by decide +kernel, by decide, ?_, ⟨rfl, rfl⟩, by decide, by decide⟩
  refine ⟨?_, ?_, ?_, ?_, ?_, ?_, ?_, ?_, ?_, ?_, ?_, ?_, ?_, ?_, ?_⟩ <;> decide

theorem witness_Wait : assemble (.wait 0) = some [] ∧ Quiet State.reset ∧
    BlockInv { State.reset with inputs := ([0x2000FFFF, 0x20001171] : List Word).map .txn ++ [] } :=
  ⟨by decide, ⟨rfl, rfl⟩, blockInv_withInputs reset_blockInv _⟩

end Sys2Proof.Tests
end

section
/-! PROOFS. The scope of the model (00_scope.md): a word's step is its instruction's meaning (R7), and no step stops
(R13, R313). The one fault is a `STEP` outside the ROM, so what has to be kept is that `upc` stays in the ROM (R38). -/

namespace Sys2Proof.Machine

/-! ### A step on a word (R7, R90) -/

/-- Settles O6: the decoder's answer selects the instruction, and in a quiet state there is nothing to settle. -/
theorem stepRunsTheDecodedTransaction : Obligations.StepRunsTheDecodedTransaction := by
  intro s w i rest hc hi hd
  have hrun : step s = andThen (settle { s with inputs := rest }) (exec i) := by
    rw [step_of_inputs hc hi]
    exact runWord_of_ok hd _
  refine ⟨fun ⟨hprogress, hwaiting⟩ => ?_, hrun⟩
  rw [hrun, settle_of_quiet (s := { s with inputs := rest }) hprogress hwaiting, andThen_next]

/-! ### Where each part of a step leaves `upc` -/

/-- The part of a step that answers `r` goes on, and leaves `upc` in the ROM (R38). -/
def GoesOnInRom (r : Result) : Prop := ∃ t, r = .next t ∧ t.upc.toNat ≤ 9

theorem goesOnInRom_next {s : State} (hu : s.upc.toNat ≤ 9) : GoesOnInRom (.next s) := ⟨s, rfl, hu⟩

/-- Parts that each go on, go on one after another. -/
theorem goesOnInRom_andThen {r : Result} {f : State → Result} (hr : GoesOnInRom r)
    (hf : ∀ t : State, t.upc.toNat ≤ 9 → GoesOnInRom (f t)) : GoesOnInRom (andThen r f) := by
  obtain ⟨t, rfl, ht⟩ := hr
  exact hf t ht

/-- The effect of an instruction leaves `upc` alone, except that a wake-up sends it to 0 (R128, R262). -/
theorem effect_upc_cases (i : Instr) (s : State) : (effect i s).upc = s.upc ∨ (effect i s).upc = 0 := by
  cases i with
  | level l v =>
    left
    simp only [effect]
    split <;> simp
  | tick n =>
    simp only [effect, State.tickBy_upc]
    split
    · exact .inr rfl
    · exact .inl rfl
  | _ => exact .inl rfl

theorem effect_upc_le {s : State} (i : Instr) (hu : s.upc.toNat ≤ 9) : (effect i s).upc.toNat ≤ 9 := by
  obtain h | h := effect_upc_cases i s
  · rwa [h]
  · simp [h]

/-- The advance after the micro-op `code` does not leave the ROM: the last code stays (R262). -/
theorem State.advanceUpc_upc_le {s : State} {code : BitVec 4} (hcode : code.toNat ≤ 9)
    (hu : s.upc = code ∨ s.upc = 0) : (s.advanceUpc code).upc.toNat ≤ 9 := by
  rw [State.advanceUpc_upc]
  split
  · obtain h | h := hu
    · rwa [h]
    · simp [h]
  · rename_i hne
    obtain h | h := hu
    · rw [h]
      bv_omega
    · simp [h]

/-- An instruction never stops with `upc` in the ROM: only `STEP` looks there, and it finds a micro-op. -/
theorem exec_goesOnInRom {s : State} (i : Instr) (hu : s.upc.toNat ≤ 9) : GoesOnInRom (exec i s) := by
  by_cases hi : i = .step
  · subst hi
    cases hs : s.sleeping
    · obtain ⟨j, hj⟩ := decodeUop_of_le s.upc hu
      exact ⟨_, exec_step_awake hs hu hj, State.advanceUpc_upc_le hu (effect_upc_cases j s)⟩
    · exact ⟨s, exec_step_asleep hs, hu⟩
  · exact ⟨_, exec_eq_effect hi s, effect_upc_le i hu⟩

theorem runInstrs_goesOnInRom (is : List Instr) :
    ∀ {s : State}, s.upc.toNat ≤ 9 → GoesOnInRom (runInstrs is s) := by
  induction is with
  | nil => exact goesOnInRom_next
  | cons i is ih => exact fun hu => goesOnInRom_andThen (exec_goesOnInRom i hu) fun _ => ih

/-! ### The clocked hardware -/

theorem completeMicroOp_goesOnInRom {s : State} (m : MicroOp) (hu : s.upc.toNat ≤ 9) :
    GoesOnInRom (completeMicroOp m s) :=
  goesOnInRom_andThen (exec_goesOnInRom .step hu) fun _ ht => goesOnInRom_next ht

theorem settle_goesOnInRom {s : State} (hu : s.upc.toNat ≤ 9) : GoesOnInRom (settle s) := by
  refine goesOnInRom_andThen ?_ fun t ht => runInstrs_goesOnInRom _ ht
  split
  · exact completeMicroOp_goesOnInRom _ hu
  · exact goesOnInRom_next hu

theorem debugClock_goesOnInRom {s : State} (c : ClockIn) (hu : s.upc.toNat ≤ 9) : GoesOnInRom (debugClock c s) := by
  unfold debugClock
  dsimp only
  split
  · exact exec_goesOnInRom _ hu
  · exact goesOnInRom_next hu

theorem sequencerClock_goesOnInRom {s : State} (c : ClockIn) (hu : s.upc.toNat ≤ 9) :
    GoesOnInRom (sequencerClock c s) := by
  unfold sequencerClock
  split
  · split
    · exact goesOnInRom_next hu
    · exact completeMicroOp_goesOnInRom _ hu
  · split
    · exact goesOnInRom_next hu
    · split
      · exact exec_goesOnInRom .step hu
      · exact goesOnInRom_next hu

theorem runClock_goesOnInRom {s : State} (c : ClockIn) (hu : s.upc.toNat ≤ 9) : GoesOnInRom (runClock c s) := by
  unfold runClock
  split
  · exact goesOnInRom_next (by simp)
  · exact goesOnInRom_andThen (debugClock_goesOnInRom c hu) fun _ h1 =>
      goesOnInRom_andThen (exec_goesOnInRom _ h1) fun _ h2 =>
      goesOnInRom_andThen (sequencerClock_goesOnInRom c h2) fun _ h3 =>
      goesOnInRom_andThen (runInstrs_goesOnInRom _ h3) fun _ h4 => goesOnInRom_next h4

/-! ### Every input -/

/-- A refused word only marks the run, so a word goes on whether it decodes or not (R312). -/
theorem runWord_goesOnInRom {s : State} (w : Word) (hu : s.upc.toNat ≤ 9) : GoesOnInRom (runWord w s) := by
  cases hd : decodeWord w with
  | ok i =>
    rw [runWord_of_ok hd]
    exact goesOnInRom_andThen (settle_goesOnInRom hu) fun _ => exec_goesOnInRom i
  | error r =>
    rw [runWord_of_error hd]
    exact goesOnInRom_next hu

theorem runInput_goesOnInRom {s : State} (i : Input) (hu : s.upc.toNat ≤ 9) : GoesOnInRom (runInput i s) := by
  cases i with
  | txn w => exact runWord_goesOnInRom w hu
  | reset => exact goesOnInRom_next (by simp)
  | clock c => exact runClock_goesOnInRom c hu

/-- A step with no input to take is a hold (log entry 2). -/
theorem step_of_no_inputs {s : State} (hc : configValid s.cfg = true) (hi : s.inputs = []) : step s = .next s := by
  unfold step takeInput
  rw [if_pos hc, hi]

/-- A step of a valid instantiation with `upc` in the ROM goes on, and `upc` is in the ROM again. -/
theorem step_goesOnInRom {s : State} (hc : configValid s.cfg = true) (hu : s.upc.toNat ≤ 9) :
    GoesOnInRom (step s) := by
  cases hi : s.inputs with
  | nil =>
    rw [step_of_no_inputs hc hi]
    exact goesOnInRom_next hu
  | cons i rest =>
    rw [step_of_inputs hc hi]
    exact runInput_goesOnInRom i hu

/-- Settles O10: of the invariant of R42 it takes that the instantiation is valid and that `upc` is in the ROM. -/
theorem noStepStopsUnderTheInvariant : Obligations.NoStepStopsUnderTheInvariant := by
  intro s hinv
  obtain ⟨t, ht, _⟩ := step_goesOnInRom hinv.config hinv.upcInRom
  exact ⟨t, ht⟩

end Sys2Proof.Machine
end

section
/-! PROOFS. What reset gives each field of the block's state (R41), and who writes each field, through `STEP` too
(10_state.md R24 to R43). -/

namespace Sys2Proof.Machine

/-! ### Reset, and the two corner cases of R33 and R38 -/

/-- Settles O8: a reset input is `State.doReset`, once it has taken itself from the run. -/
theorem resetGivesTheResetValues : Obligations.ResetGivesTheResetValues := by
  refine ⟨fun s rest hc hi => ?_, fun c fb => ⟨rfl, rfl, rfl, rfl⟩⟩
  rw [step_of_inputs hc hi]
  rfl

/-- Settles O25: the ROM has no entry at 10 to 15 (R89). -/
theorem stepOutsideTheRomFaults : Obligations.StepOutsideTheRomFaults := by
  intro s hs hu
  have hrom : rom s.upc = none := by rw [rom_eq, if_neg (by omega)]
  simp [exec, execStep, hs, hrom]

/-- Settles O28: the pair is the one drawn (log entry 6). -/
theorem sampleBeforeTheFirstAdcDraws : Obligations.SampleBeforeTheFirstAdcDraws := by
  intro s ha
  refine ⟨s.adcPair.1, s.adcPair.2, ?_⟩
  have hdraws : s.drawsAfterAdc = s.draws + 1 := by simp [State.drawsAfterAdc, ha]
  rw [exec_eq_effect Instr.noConfusion, effect, hdraws]

/-! ### The code of a micro-op (R88) -/

/-- A code is the encoding of the micro-op it names (R88). -/
theorem encode_of_decodeUop {code : BitVec 4} {j : Instr} (hj : decodeUop code = .ok j) : encode j = .uop4 code := by
  obtain ⟨rfl, rfl⟩ | ⟨rfl, rfl⟩ | ⟨rfl, rfl⟩ | ⟨rfl, rfl⟩ | ⟨rfl, rfl⟩ | ⟨rfl, rfl⟩ | ⟨rfl, rfl⟩ | ⟨rfl, rfl⟩ |
    ⟨rfl, rfl⟩ | ⟨rfl, rfl⟩ := decodeUop_eq_ok hj
  all_goals rfl

/-- `upc` is the code of the micro-op it selects. -/
theorem upc_of_decodeUop {upc code : BitVec 4} {j : Instr} (hj : decodeUop upc = .ok j)
    (hcode : encode j = .uop4 code) : upc = code :=
  Code.uop4.inj ((encode_of_decodeUop hj).symm.trans hcode)

/-! ### What each effect leaves unchanged, by groups of fields with the same writers -/

/-- The registers `smp_x`, `smp_y` (R31). -/
def State.samples (s : State) : Sample × Sample := (s.smpX, s.smpY)
/-- The registers `duty_next` (R34). -/
def State.dutyNext (s : State) : Duty × Duty := (s.dutyNext0, s.dutyNext1)
/-- The registers `duty_out` (R35). -/
def State.dutyOut (s : State) : Duty × Duty := (s.dutyOut0, s.dutyOut1)
/-- The cursor (R36). -/
def State.cursor (s : State) : BitVec 7 × BitVec 6 := (s.curX, s.curY)
/-- The sleep (R39). -/
def State.sleep (s : State) : Bool × BitVec 7 := (s.sleeping, s.sleepCnt)
/-- A line's channel and the flag it toggles (R122). -/
def State.line (l : Line) (s : State) : Channel × Bool := (s.chan l, s.flag l)

/-- `LEVEL` writes its line only: a field that neither a channel nor a flag belongs to stays. -/
theorem effect_level_keeps {α : Type} {field : State → α} (hchan : ∀ u l c, field (State.setChan u l c) = field u)
    (hflag : ∀ u l, field (State.toggleFlag u l) = field u) (l : Line) (v : Bool) (s : State) :
    field (effect (.level l v) s) = field s := by
  simp only [effect, State.takeEdge, State.setLvl]
  split <;> simp only [hchan, hflag]

theorem effect_nowMs {i : Instr} (hi : ¬∃ n, i = .tick n) (s : State) : (effect i s).nowMs = s.nowMs := by
  cases i with
  | level l v => exact effect_level_keeps State.setChan_nowMs State.toggleFlag_nowMs l v s
  | tick n => exact absurd ⟨n, rfl⟩ hi
  | _ => rfl

theorem effect_samples {i : Instr} (hi : ¬i = .sample) (s : State) : (effect i s).samples = s.samples := by
  cases i with
  | level l v => exact effect_level_keeps (by simp [State.samples]) (by simp [State.samples]) l v s
  | tick n => simp [effect, State.samples]
  | sample => exact absurd rfl hi
  | _ => rfl

theorem effect_dutyNext {i : Instr} (hi : ¬i = .duty) (s : State) : (effect i s).dutyNext = s.dutyNext := by
  cases i with
  | level l v => exact effect_level_keeps (by simp [State.dutyNext]) (by simp [State.dutyNext]) l v s
  | tick n => simp [effect, State.dutyNext]
  | duty => exact absurd rfl hi
  | _ => rfl

theorem effect_dutyOut {i : Instr} (hi : ¬i = .apply) (s : State) : (effect i s).dutyOut = s.dutyOut := by
  cases i with
  | level l v => exact effect_level_keeps (by simp [State.dutyOut]) (by simp [State.dutyOut]) l v s
  | tick n => simp [effect, State.dutyOut]
  | apply => exact absurd rfl hi
  | _ => rfl

theorem effect_cursor {i : Instr} (hi : ¬i = .coord) (s : State) : (effect i s).cursor = s.cursor := by
  cases i with
  | level l v => exact effect_level_keeps (by simp [State.cursor]) (by simp [State.cursor]) l v s
  | tick n => simp [effect, State.cursor]
  | coord => exact absurd rfl hi
  | _ => rfl

theorem effect_fb {i : Instr} (hi : ¬(i = .fbClear ∨ i = .fbBorder ∨ i = .fbCursor)) (s : State) :
    (effect i s).fb = s.fb := by
  cases i with
  | level l v => exact effect_level_keeps State.setChan_fb State.toggleFlag_fb l v s
  | tick n => exact State.tickBy_fb s n.toNat
  | fbClear | fbBorder | fbCursor => simp at hi
  | _ => rfl

theorem effect_upc {i : Instr} (hi : ¬∃ n, i = .tick n) (s : State) : (effect i s).upc = s.upc := by
  cases i with
  | level l v => exact effect_level_keeps State.setChan_upc State.toggleFlag_upc l v s
  | tick n => exact absurd ⟨n, rfl⟩ hi
  | _ => rfl

theorem effect_sleep {i : Instr} (hi : ¬(i = .sleep ∨ ∃ n, i = .tick n)) (s : State) :
    (effect i s).sleep = s.sleep := by
  cases i with
  | level l v => exact effect_level_keeps (by simp [State.sleep]) (by simp [State.sleep]) l v s
  | tick n => exact absurd (.inr ⟨n, rfl⟩) hi
  | sleep => exact absurd (.inl rfl) hi
  | _ => rfl

theorem effect_adcIn {i : Instr} (hi : ¬∃ x y, i = .adc x y) (s : State) : (effect i s).adcIn = s.adcIn := by
  cases i with
  | level l v => exact effect_level_keeps State.setChan_adcIn State.toggleFlag_adcIn l v s
  | tick n => exact State.tickBy_adcIn s n.toNat
  | adc x y => exact absurd ⟨x, y, rfl⟩ hi
  | _ => rfl

theorem effect_out {i : Instr} (hi : ¬(i = .fbFlush ∨ i = .diag ∨ ∃ a, i = .read a)) (s : State) :
    (effect i s).out = s.out := by
  cases i with
  | level l v => exact effect_level_keeps State.setChan_out State.toggleFlag_out l v s
  | tick n => exact State.tickBy_out s n.toNat
  | fbFlush | diag | read _ => simp at hi
  | _ => rfl

/-! ### What `LEVEL` does to the lines -/

theorem chan_effect_level (l k : Line) (v : Bool) (s : State) :
    (effect (.level l v) s).chan k =
      if k = l then
        { s.chan l with lvl := v, lastTs := if s.accepts l v then s.nowMs else (s.chan l).lastTs }
      else s.chan k := by
  simp only [effect]
  split <;> rename_i ha
  · rw [State.chan_takeEdge, State.chan_setLvl, State.chan_setLvl, State.setLvl_nowMs, if_pos rfl]
    split <;> rfl
  · rw [State.chan_setLvl]

theorem flag_effect_level (l k : Line) (v : Bool) (s : State) :
    (effect (.level l v) s).flag k = if k = l ∧ s.accepts l v = true then !s.flag k else s.flag k := by
  simp only [effect]
  split <;> rename_i ha
  · simp [State.flag_takeEdge, ha]
  · simp [ha]

/-- A line is written by its own `LEVEL` only. -/
theorem effect_line {l : Line} {i : Instr} (hi : ¬∃ v, i = .level l v) (s : State) :
    (effect i s).line l = s.line l := by
  cases i with
  | level k v =>
    have hne : l ≠ k := fun h => hi ⟨v, by rw [h]⟩
    rw [State.line, State.line, chan_effect_level, flag_effect_level, if_neg hne, if_neg fun h => hne h.1]
  | tick n => cases l <;> simp [effect, State.line, State.flag]
  | _ => rfl

/-! ### The writers, through `STEP` -/

/-- A field that changed names its writer: the instruction, or the micro-op that `STEP` performed. -/
theorem writer_of_exec {α : Type} {field : State → α} {Writer : Instr → Prop}
    (heff : ∀ {j : Instr}, ¬Writer j → ∀ u, field (effect j u) = field u)
    (hadvance : ∀ u code, field (State.advanceUpc u code) = field u) {i : Instr} {s t : State}
    (hx : exec i s = .next t) (hne : field t ≠ field s) :
    Writer i ∨ i = .step ∧ ∃ j, decodeUop s.upc = .ok j ∧ Writer j := by
  obtain ⟨_, rfl⟩ | ⟨_, _, rfl⟩ | ⟨hi, _, _, j, _, hj, rfl⟩ := exec_cases hx
  · exact .inl (not_not.mp fun hw => hne (heff hw s))
  · exact absurd rfl hne
  · rw [hadvance] at hne
    exact .inr ⟨hi, j, hj, not_not.mp fun hw => hne (heff hw s)⟩

/-- A micro-op that alone writes a field does so through `STEP` only at its own code. -/
theorem microOp_of_exec {α : Type} {field : State → α} {k : Instr} {code : BitVec 4} (hk : encode k = .uop4 code)
    (heff : ∀ {j : Instr}, ¬j = k → ∀ u, field (effect j u) = field u)
    (hadvance : ∀ u code, field (State.advanceUpc u code) = field u) {i : Instr} {s t : State}
    (hx : exec i s = .next t) (hne : field t ≠ field s) : i = k ∨ i = .step ∧ s.upc = code := by
  obtain hw | ⟨hi, j, hj, rfl⟩ := writer_of_exec heff hadvance hx hne
  · exact .inl hw
  · exact .inr ⟨hi, upc_of_decodeUop hj hk⟩

/-- A field that only transactions write is not written through `STEP` (R89). -/
theorem transaction_of_exec {α : Type} {field : State → α} {Writer : Instr → Prop}
    (htr : ∀ {j : Instr}, Writer j → ∃ w, encode j = .txn32 w)
    (heff : ∀ {j : Instr}, ¬Writer j → ∀ u, field (effect j u) = field u)
    (hadvance : ∀ u code, field (State.advanceUpc u code) = field u) {i : Instr} {s t : State}
    (hx : exec i s = .next t) (hne : field t ≠ field s) : Writer i := by
  obtain hw | ⟨_, j, hj, hw⟩ := writer_of_exec heff hadvance hx hne
  · exact hw
  · obtain ⟨w, hcode⟩ := htr hw
    exact nomatch (encode_of_decodeUop hj).symm.trans hcode

theorem nowMs_of_exec {i : Instr} {s t : State} (hx : exec i s = .next t) (hne : t.nowMs ≠ s.nowMs) :
    ∃ n, i = .tick n :=
  transaction_of_exec (by rintro _ ⟨_, rfl⟩; exact ⟨_, rfl⟩) effect_nowMs State.advanceUpc_nowMs hx hne

theorem adcIn_of_exec {i : Instr} {s t : State} (hx : exec i s = .next t) (hne : t.adcIn ≠ s.adcIn) :
    ∃ x y, i = .adc x y :=
  transaction_of_exec (by rintro _ ⟨_, _, rfl⟩; exact ⟨_, rfl⟩) effect_adcIn State.advanceUpc_adcIn hx hne

/-- A line that changed is the one of a `LEVEL`, which did it. -/
theorem line_of_exec {l : Line} {i : Instr} {s t : State} (hx : exec i s = .next t) (hne : t.line l ≠ s.line l) :
    ∃ v, i = .level l v ∧ t = effect (.level l v) s := by
  obtain ⟨v, rfl⟩ := transaction_of_exec (field := State.line l) (Writer := fun i => ∃ v, i = .level l v)
    (by rintro _ ⟨_, rfl⟩; exact ⟨_, rfl⟩) effect_line
    (fun u code => by cases l <;> simp [State.line, State.flag]) hx hne
  rw [exec_eq_effect Instr.noConfusion] at hx
  cases hx
  exact ⟨v, rfl, rfl⟩

theorem sync_of_exec {i : Instr} {s t : State} (hx : exec i s = .next t) (l : Line) :
    (t.chan l).sync1 = (s.chan l).sync1 ∧ (t.chan l).sync2 = (s.chan l).sync2 := by
  by_cases hl : t.line l = s.line l
  · rw [(Prod.mk.inj hl).1]
    exact ⟨rfl, rfl⟩
  · obtain ⟨v, _, rfl⟩ := line_of_exec hx hl
    rw [chan_effect_level, if_pos rfl]
    exact ⟨rfl, rfl⟩

theorem lvl_of_exec {l : Line} {i : Instr} {s t : State} (hx : exec i s = .next t)
    (hne : (t.chan l).lvl ≠ (s.chan l).lvl) : ∃ v, i = .level l v := by
  obtain ⟨v, hi, _⟩ := line_of_exec (l := l) hx fun hl => hne (by rw [(Prod.mk.inj hl).1])
  exact ⟨v, hi⟩

/-- A timestamp or a flag that changed was changed by an accepted edge of its line (R125). -/
theorem edge_of_exec {l : Line} {i : Instr} {s t : State} (hx : exec i s = .next t)
    (hne : (t.chan l).lastTs ≠ (s.chan l).lastTs ∨ t.flag l ≠ s.flag l) :
    ∃ v, i = .level l v ∧ s.accepts l v = true ∧ (t.chan l).lastTs = s.nowMs := by
  obtain ⟨v, hi, rfl⟩ := line_of_exec (l := l) hx fun hl => by
    obtain ⟨hchan, hflag⟩ := Prod.mk.inj hl
    simp [hchan, hflag] at hne
  rw [chan_effect_level, flag_effect_level, if_pos rfl] at hne
  have hacc : s.accepts l v = true := by
    by_contra hacc
    simp [hacc] at hne
  refine ⟨v, hi, hacc, ?_⟩
  rw [chan_effect_level, if_pos rfl]
  exact if_pos hacc

theorem fb_of_exec {i : Instr} {s t : State} (hx : exec i s = .next t) (hne : t.fb ≠ s.fb) :
    (i = .fbClear ∨ i = .fbBorder ∨ i = .fbCursor) ∨ i = .step ∧ (s.upc = 3 ∨ s.upc = 4 ∨ s.upc = 5) := by
  obtain hw | ⟨hi, j, hj, hw⟩ := writer_of_exec effect_fb State.advanceUpc_fb hx hne
  · exact .inl hw
  · refine .inr ⟨hi, ?_⟩
    obtain rfl | rfl | rfl := hw
    · exact .inl (upc_of_decodeUop hj rfl)
    · exact .inr (.inl (upc_of_decodeUop hj rfl))
    · exact .inr (.inr (upc_of_decodeUop hj rfl))

theorem upc_of_exec {i : Instr} {s t : State} (hx : exec i s = .next t) (hne : t.upc ≠ s.upc) :
    i = .step ∨ ∃ n, i = .tick n := by
  obtain ⟨_, rfl⟩ | ⟨hi, _⟩ | ⟨hi, _⟩ := exec_cases hx
  · exact .inr (not_not.mp fun hw => hne (effect_upc hw s))
  · exact .inl hi
  · exact .inl hi

theorem sleep_of_exec {i : Instr} {s t : State} (hx : exec i s = .next t) (hne : t.sleep ≠ s.sleep) :
    i = .sleep ∨ i = .step ∧ s.upc = 9 ∨ ∃ n, i = .tick n := by
  obtain (hi | hi) | ⟨hi, j, hj, rfl | ⟨n, rfl⟩⟩ := writer_of_exec effect_sleep
    (fun u code => by simp [State.sleep]) hx hne
  · exact .inl hi
  · exact .inr (.inr hi)
  · exact .inr (.inl ⟨hi, upc_of_decodeUop hj rfl⟩)
  · exact nomatch encode_of_decodeUop hj

theorem out_of_exec {i : Instr} {s t : State} (hx : exec i s = .next t) (hne : t.out ≠ s.out) :
    i = .fbFlush ∨ i = .diag ∨ (∃ a, i = .read a) ∨ i = .step ∧ (s.upc = 6 ∨ s.upc = 8) := by
  obtain (hi | hi | hi) | ⟨hi, j, hj, rfl | rfl | ⟨a, rfl⟩⟩ := writer_of_exec effect_out State.advanceUpc_out hx hne
  · exact .inl hi
  · exact .inr (.inl hi)
  · exact .inr (.inr (.inl hi))
  · exact .inr (.inr (.inr ⟨hi, .inl (upc_of_decodeUop hj rfl)⟩))
  · exact .inr (.inr (.inr ⟨hi, .inr (upc_of_decodeUop hj rfl)⟩))
  · exact nomatch encode_of_decodeUop hj

/-- Two registers of which one changed are a pair that changed. -/
theorem pair_ne {α β : Type} {a a' : α} {b b' : β} (hne : a ≠ a' ∨ b ≠ b') : (a, b) ≠ (a', b') :=
  mt Prod.mk.inj (not_and_or.mpr hne)

/-- Settles O18, a field or a pair of registers at a time. -/
theorem everyFieldHasOnlyItsWriters : Obligations.EveryFieldHasOnlyItsWriters := by
  intro i s t hx
  refine ⟨exec_model_fields hx, nowMs_of_exec hx, sync_of_exec hx, fun _ => lvl_of_exec hx, fun l hne => ?edge,
    fun hne => microOp_of_exec (field := State.samples) rfl effect_samples ?_ hx (pair_ne hne),
    fun hne => microOp_of_exec (field := State.dutyNext) rfl effect_dutyNext ?_ hx (pair_ne hne),
    fun hne => microOp_of_exec (field := State.cursor) rfl effect_cursor ?_ hx (pair_ne hne),
    fb_of_exec hx,
    fun hne => microOp_of_exec (field := State.dutyOut) rfl effect_dutyOut ?_ hx (pair_ne hne),
    upc_of_exec hx, fun hne => sleep_of_exec hx (pair_ne hne), adcIn_of_exec hx, out_of_exec hx⟩
  case edge =>
    obtain ⟨v, rfl, hacc, _⟩ := edge_of_exec hx hne
    obtain ⟨hlvl, rfl, hgap⟩ := (s.accepts_iff l v).mp hacc
    exact ⟨rfl, hlvl, hgap⟩
  all_goals simp [State.samples, State.dutyNext, State.cursor, State.dutyOut]

end Sys2Proof.Machine
end

section
/-! PROOFS. What the writers say of a whole step: the output record only grows (R43), and no timestamp passes the clock
(R42). -/

namespace Sys2Proof.Machine

/-! ### The output record (R43) -/

theorem out_prefix_effect (i : Instr) (s : State) : s.out <+: (effect i s).out := by
  cases i with
  | level l v =>
    simp only [effect]
    split <;> simp
  | tick n => simp [effect]
  | read _ | fbFlush => exact List.prefix_append _ _
  | diag =>
    simp only [effect]
    split
    · exact List.prefix_append _ _
    · exact List.prefix_rfl
  | _ => exact List.prefix_rfl

theorem out_prefix_exec {i : Instr} {s t : State} (hx : exec i s = .next t) : s.out <+: t.out := by
  obtain ⟨_, rfl⟩ | ⟨_, _, rfl⟩ | ⟨_, _, _, j, _, _, rfl⟩ := exec_cases hx
  · exact out_prefix_effect i s
  · exact List.prefix_rfl
  · rw [State.advanceUpc_out]
    exact out_prefix_effect j s

theorem out_prefix_completeMicroOp {m : MicroOp} {s t : State} (hx : completeMicroOp m s = .next t) :
    s.out <+: t.out := by
  obtain ⟨u, hu, rfl⟩ := completeMicroOp_cases hx
  exact (out_prefix_exec hu :)

/-- Settles O51: every part of a step keeps the record of the step's beginning as a prefix. -/
theorem outputRecordIsAppendOnly : Obligations.OutputRecordIsAppendOnly := by
  intro s t h
  have hprefix : s.out <+: t.out := step_keeps (P := fun u => s.out <+: u.out)
    (hlevel := fun _ _ _ _ hp hx => hp.trans (out_prefix_exec hx))
    (htick := fun _ _ _ hp hx => hp.trans (out_prefix_exec hx))
    (hadc := fun _ _ _ _ hp hx => hp.trans (out_prefix_exec hx))
    (hstep := fun _ _ hp _ hx => hp.trans (out_prefix_exec hx))
    (hread := fun _ _ _ hp hx => hp.trans (out_prefix_exec hx))
    (hbegin := fun _ _ hp _ _ _ => hp)
    (hgoOn := fun _ _ hp _ _ => hp)
    (hcomplete := fun _ _ _ hp _ hx =>
      ⟨hp.trans (out_prefix_completeMicroOp hx), (completeMicroOp_model_fields hx).1⟩)
    (hmark := fun _ _ hp => hp)
    (hreset := fun _ hp => hp)
    (hshift := fun _ _ _ hp => hp)
    (hwaiting := fun _ _ hp => hp)
    (hinputs := fun _ _ hp => hp) List.prefix_rfl h
  obtain ⟨es, hes⟩ := hprefix
  exact ⟨es, hes.symm⟩

/-! ### Timestamps and the clock (R42) -/

/-- The clock still reads `now`, and the timestamp of line `l` has not passed it. -/
def ClockAt (l : Line) (now : Word) (s : State) : Prop := s.nowMs = now ∧ (s.chan l).lastTs.toNat ≤ now.toNat

/-- A timestamp stays or takes the clock's value, so no instruction puts it past what the clock was. -/
theorem lastTs_le_of_exec {l : Line} {now : Word} {i : Instr} {s t : State} (h : ClockAt l now s)
    (hx : exec i s = .next t) : (t.chan l).lastTs.toNat ≤ now.toNat := by
  obtain ⟨hnow, hle⟩ := h
  by_cases heq : (t.chan l).lastTs = (s.chan l).lastTs
  · rwa [heq]
  · obtain ⟨_, _, _, hts⟩ := edge_of_exec hx (.inl heq)
    rw [hts, hnow]

/-- No instruction but `TICK` moves the clock. -/
theorem clockAt_exec {l : Line} {now : Word} {i : Instr} {s t : State} (hi : ∀ n, i ≠ .tick n) (h : ClockAt l now s)
    (hx : exec i s = .next t) : ClockAt l now t := by
  have hnow : t.nowMs = s.nowMs := not_not.mp fun hne => not_exists.mpr hi (nowMs_of_exec hx hne)
  exact ⟨hnow.trans h.1, lastTs_le_of_exec h hx⟩

theorem clockAt_completeMicroOp {l : Line} {now : Word} {m : MicroOp} {s t : State} (h : ClockAt l now s)
    (hx : completeMicroOp m s = .next t) : ClockAt l now t := by
  obtain ⟨u, hu, rfl⟩ := completeMicroOp_cases hx
  have hflags : ClockAt l now { s with inProgress := none, ledsEnabled := m.leds, borderVisible := m.border } := h
  exact (clockAt_exec (fun _ => Instr.noConfusion) hflags hu :)

theorem clockAt_settle {l : Line} {now : Word} {s t : State} (h : ClockAt l now s) (hx : settle s = .next t) :
    ClockAt l now t := by
  obtain ⟨u, hu, ht⟩ := settle_cases hx
  have hu : ClockAt l now u := by
    obtain ⟨_, rfl⟩ | ⟨m, _, hc⟩ := hu
    · exact h
    · exact clockAt_completeMicroOp h hc
  refine runInstrs_keeps (fun i hi _ _ => clockAt_exec ?_) (show ClockAt l now { u with waiting := [] } from hu) ht
  obtain ⟨a, _, rfl⟩ := List.mem_map.mp hi
  exact fun _ => Instr.noConfusion

theorem clockAt_debugClock {l : Line} {now : Word} {c : ClockIn} {s t : State} (h : ClockAt l now s)
    (hx : debugClock c s = .next t) : ClockAt l now t := by
  obtain ⟨a, later, _, _, hr⟩ | rfl := debugClock_cases hx
  · exact clockAt_exec (fun _ => Instr.noConfusion) (show ClockAt l now { s with waiting := later } from h) hr
  · exact h

theorem clockAt_sequencerClock {l : Line} {now : Word} {c : ClockIn} {s t : State} (h : ClockAt l now s)
    (hx : sequencerClock c s = .next t) : ClockAt l now t := by
  obtain ⟨m, _, _, rfl⟩ | ⟨m, _, _, hc⟩ | ⟨_, _, _, _, rfl⟩ | ⟨_, _, _, hs⟩ | ⟨_, _, rfl⟩ := sequencerClock_cases hx
  · exact h
  · exact clockAt_completeMicroOp h hc
  · exact h
  · exact clockAt_exec (fun _ => Instr.noConfusion) h hs
  · exact h

/-- The lines are evaluated before the tick (R351), so they still find the clock of the clock's beginning. -/
theorem lastTs_le_of_clockTail {l : Line} {now : Word} {c : ClockIn} {s u t : State} (h : ClockAt l now u)
    (hx : runInstrs (clockTail c s) u = .next t) : (t.chan l).lastTs.toNat ≤ now.toNat := by
  rw [clockTail, runInstrs_append] at hx
  obtain ⟨v, hlevels, htick⟩ := andThen_eq_next hx
  have hv : ClockAt l now v := runInstrs_keeps (fun i hi _ _ => clockAt_exec (by
    obtain rfl | rfl : i = _ ∨ i = _ := by simpa using hi
    all_goals exact fun _ => Instr.noConfusion)) h hlevels
  split at htick
  · obtain ⟨w, hw, ht⟩ := andThen_eq_next htick
    cases ht
    exact lastTs_le_of_exec hv hw
  · cases htick
    exact hv.2

theorem lastTs_le_of_runClock {l : Line} {now : Word} {c : ClockIn} {s t : State} (h : ClockAt l now s)
    (hx : runClock c s = .next t) : (t.chan l).lastTs.toNat ≤ now.toNat := by
  obtain ⟨_, rfl⟩ | ⟨_, s1, s2, s3, s4, h1, h2, h3, h4, rfl⟩ := runClock_cases hx
  · cases l <;> exact Nat.zero_le _
  · have hadc := clockAt_exec (fun _ => Instr.noConfusion) (clockAt_debugClock h h1) h2
    have hle := lastTs_le_of_clockTail (clockAt_sequencerClock hadc h3) h4
    cases l <;> exact hle

/-- No step puts a timestamp past what the clock was before it. -/
theorem lastTs_le_of_step {l : Line} {s t : State} (hle : (s.chan l).lastTs.toNat ≤ s.nowMs.toNat)
    (hx : step s = .next t) : (t.chan l).lastTs.toNat ≤ s.nowMs.toNat := by
  obtain ⟨_, ⟨_, rfl⟩ | ⟨i, rest, _, hx⟩⟩ := step_cases hx
  · exact hle
  · have h : ClockAt l s.nowMs { s with inputs := rest } := ⟨rfl, hle⟩
    cases i with
    | txn w =>
      obtain ⟨i, u, _, hu, hx⟩ | ⟨r, _, rfl⟩ := runWord_cases hx
      · exact lastTs_le_of_exec (clockAt_settle h hu) hx
      · exact hle
    | reset =>
      cases hx
      cases l <;> exact Nat.zero_le _
    | clock c => exact lastTs_le_of_runClock h hx

/-- Settles O49: a timestamp is at most what the clock was, and a reset sets it to 0. -/
theorem timestampsDoNotPassTheClock : Obligations.TimestampsDoNotPassTheClock := by
  intro l s t hinv hle hx hnow
  obtain hup | ⟨rest, hi⟩ := hnow
  · exact (lastTs_le_of_step hle hx).trans hup
  · rw [step_of_inputs hinv.config hi] at hx
    cases hx
    cases l <;> exact Nat.zero_le _

end Sys2Proof.Machine
end

section
/-! PROOFS. The invariant of R42 holds at power-on, and every step keeps it: instruction by instruction, then through
`STEP`, and then through a micro-op over its clocks. -/

namespace Sys2Proof.Machine

/-! ### The invariant of R42 at power-on and after a reset -/

/-- Zero fits every TS_WIDTH. -/
theorem timeFits_zero (c : Config) : timeFits c 0 = true := by
  simp [timeFits]

theorem blockInv_powerOn {c : Config} {fb : Memory} (hc : configValid c = true) (hfb : fb.wf = true) :
    BlockInv (State.powerOn c fb) where
  config := hc
  fbForm := hfb
  now := timeFits_zero c
  last0 := timeFits_zero c
  last1 := timeFits_zero c
  next0 := Nat.zero_le _
  next1 := Nat.zero_le _
  out0 := Nat.zero_le _
  out1 := Nat.zero_le _
  upcInRom := Nat.zero_le _
  asleep := nofun
  busy := nofun
  awake _ := rfl
  cursor := .inl ⟨rfl, rfl⟩
  cursorSet := by simp [State.powerOn]

/-- At `upc` 0 the frame clauses that speak of a later `upc` say nothing, and no frame is emitted yet. -/
theorem frameInv_powerOn (c : Config) (fb : Memory) : FrameInv (State.powerOn c fb) where
  cleared h := absurd h (by simp [State.powerOn])
  bordered h := absurd h (by simp [State.powerOn])
  composed h := absurd h (by simp [State.powerOn])
  emitted _ h := absurd h List.not_mem_nil

/-- Settles O47: the invariant of R42 and, at `upc` 0 with an empty record, the one of the frame. -/
theorem powerOnMeetsTheInvariants : Obligations.PowerOnMeetsTheInvariants :=
  fun c fb hc hfb => ⟨blockInv_powerOn hc hfb, frameInv_powerOn c fb⟩

/-- A reset is a power-on but for fields that the invariant does not read (R41). -/
theorem blockInv_doReset {s : State} (h : BlockInv s) : BlockInv s.doReset :=
  { blockInv_powerOn h.config h.fbForm with }

/-! ### The invariant through each instruction's effect -/

theorem timeFits_timeAfter {s : State} (hc : configValid s.cfg = true) (n : Nat) :
    timeFits s.cfg (s.timeAfter n) = true := by
  obtain ⟨_, _, _, _, _, hts⟩ := (configValid_iff s.cfg).mp hc
  rw [← State.tickBy_nowMs]
  exact State.timeFits_tickBy hts n

/-- A duty register holds at most `WRAP` after `DUTY` (R162, R203). -/
theorem dutyOf_le_wrap {c : Config} (hc : configValid c = true) (r : Sample) : (dutyOf c r).toNat ≤ c.wrap := by
  rw [dutyOf_toNat hc]
  exact dutyByRule_le (Nat.le_of_lt_succ r.isLt)

/-- The column and the row of `COORD` are among the values of R166. -/
theorem cursorReachable_byRule {rx ry : Nat} (hx : rx ≤ 4095) (hy : ry ≤ 4095) :
    cursorReachable (columnByRule rx) (rowByRule ry) = true := by
  have hcol : (1 ≤ columnByRule rx ∧ columnByRule rx ≤ 117) ∨ columnByRule rx = 119 := by
    unfold columnByRule
    split_ifs <;> omega
  have hrow : rowByRule ry = 0 ∨ (2 ≤ rowByRule ry ∧ rowByRule ry ≤ 54) := by
    unfold rowByRule
    split_ifs <;> omega
  simpa [cursorReachable] using ⟨hcol, hrow⟩

theorem cursorReachable_coord (s : State) :
    cursorReachable (effect .coord s).curX.toNat (effect .coord s).curY.toNat = true := by
  show cursorReachable (BitVec.ofInt 7 _).toNat (BitVec.ofInt 6 _).toNat = true
  rw [column_toNat, row_toNat]
  exact cursorReachable_byRule (Nat.le_of_lt_succ s.smpX.isLt) (Nat.le_of_lt_succ s.smpY.isLt)

theorem blockInv_setLvl {s : State} (h : BlockInv s) (l : Line) (v : Bool) : BlockInv (s.setLvl l v) := by
  cases l <;> exact { h with }

/-- An edge writes `now_ms`, which fits, to a timestamp (R125). -/
theorem blockInv_takeEdge {s : State} (h : BlockInv s) (l : Line) : BlockInv (s.takeEdge l) := by
  cases l
  · exact { h with last0 := h.now }
  · exact { h with last1 := h.now }

/-- A tick counts a sleep down, and where it ends it the sequencer restarts awake at 0 (R128). -/
theorem blockInv_tickBy {s : State} (h : BlockInv s) (n : Nat) : BlockInv (s.tickBy n) := by
  have hnow := timeFits_timeAfter h.config n
  obtain ⟨_, ht⟩ | ⟨hs, hn, ht⟩ | ⟨hs, _, _, ht⟩ := s.tickBy_cases n
  · rw [ht]
    exact { h with now := hnow }
  · have hcnt := State.tickBy_sleepCnt_toNat hs hn
    rw [ht] at hcnt ⊢
    obtain ⟨hu, hlo, hhi⟩ := h.asleep hs
    exact { h with now := hnow, asleep := fun _ => ⟨hu, by omega, by omega⟩, awake := fun hf => by simp [hs] at hf }
  · have hidle : s.inProgress = none :=
      Option.eq_none_iff_forall_ne_some.mpr fun m hm => by simpa [hs] using (h.busy m hm).1
    rw [ht]
    exact { h with
      now := hnow, upcInRom := Nat.zero_le _, asleep := nofun, awake := fun _ => rfl,
      busy := by simp [hidle], cursorSet := by simp }

theorem blockInv_duty {s : State} (h : BlockInv s) : BlockInv (effect .duty s) := by
  have hle (r : Sample) : (if s.ledsEnabled then dutyOf s.cfg r else 0).toNat ≤ s.cfg.wrap := by
    split
    · exact dutyOf_le_wrap h.config r
    · exact Nat.zero_le _
  exact { h with next0 := hle s.smpX, next1 := hle s.smpY }

/-- `SLEEP` starts the count at 100 at `upc` 9, where no micro-op of several clocks can be in progress (R265, R358). -/
theorem blockInv_sleep {s : State} (h : BlockInv s) (hu : s.upc = 9) : BlockInv (effect .sleep s) :=
  { h with
    asleep := fun _ => ⟨hu, by simp [effect], by simp [effect]⟩
    awake := nofun
    busy := fun m hm => by
      obtain ⟨_, hdone, hlt, hle, _⟩ := h.busy m hm
      rw [hu, show maxClocks 9 = 1 from rfl] at hle
      omega }

/-- The effect of every instruction keeps the invariant, of `SLEEP` where the ROM has it. -/
theorem blockInv_effect {i : Instr} {s : State} (h : BlockInv s) (hsleep : i = .sleep → s.upc = 9) :
    BlockInv (effect i s) := by
  cases i with
  | level l v =>
    have hl := blockInv_setLvl h l v
    simp only [effect]
    split
    · exact blockInv_takeEdge hl l
    · exact hl
  | tick n => exact blockInv_tickBy h n.toNat
  | duty => exact blockInv_duty h
  | coord => exact { h with cursor := .inr (cursorReachable_coord s), cursorSet := fun _ => cursorReachable_coord s }
  | fbClear => exact { h with fbForm := Memory.wf_clear s.fb }
  | fbBorder => exact { h with fbForm := Memory.wf_setPixels _ h.fbForm }
  | fbCursor => exact { h with fbForm := Memory.wf_setPixels _ h.fbForm }
  | apply => exact { h with out0 := h.next0, out1 := h.next1 }
  | sleep => exact blockInv_sleep h (hsleep rfl)
  | adc _ _ | step | read _ | sample | fbFlush | diag => exact { h with }

/-! ### The invariant through `STEP` and through a micro-op of several clocks -/

/-- The advance of an awake sequencer with no micro-op in progress; from 2 on it needs what `COORD` wrote. -/
theorem blockInv_advanceUpc {s : State} (h : BlockInv s) (hs : s.sleeping = false) (hn : s.inProgress = none)
    (hu : s.upc ≠ 9) (hcur : s.upc = 2 → cursorReachable s.curX.toNat s.curY.toNat = true) :
    BlockInv (s.advanceUpc s.upc) := by
  have hle := h.upcInRom
  have hnext : (s.upc + 1).toNat = s.upc.toNat + 1 := by bv_omega
  unfold State.advanceUpc
  rw [if_neg hu]
  refine { h with
    upcInRom := ?_, asleep := fun hf => by simp [hs] at hf, busy := fun m hm => by simp [hn] at hm,
    cursorSet := fun h3 => ?_ }
  · show (s.upc + 1).toNat ≤ 9
    bv_omega
  · obtain h2 | h3 : s.upc = 2 ∨ 3 ≤ s.upc.toNat := by
      simp only [hnext] at h3
      bv_omega
    · exact hcur h2
    · exact h.cursorSet h3

/-- A micro-op but `SLEEP` leaves the sequencer where it is, so that the advance finds the code it has performed. -/
theorem effect_microOp_sequencer {s : State} {j : Instr} (hj : decodeUop s.upc = .ok j) (hu : s.upc ≠ 9) :
    (effect j s).upc = s.upc ∧ (effect j s).sleeping = s.sleeping := by
  have htick : ¬∃ n, j = .tick n := by
    rintro ⟨n, rfl⟩
    exact nomatch encode_of_decodeUop hj
  have hsleep : j ≠ .sleep := fun h => hu (upc_of_decodeUop hj (by rw [h]; rfl))
  exact ⟨effect_upc htick s, (Prod.mk.inj (effect_sleep (not_or.mpr ⟨hsleep, htick⟩) s)).1⟩

/-- The code 9 is `SLEEP`, whose `STEP` does not advance, and the code 2 is `COORD`; the others only advance. -/
theorem blockInv_microOp {s : State} {j : Instr} (h : BlockInv s) (hs : s.sleeping = false)
    (hn : s.inProgress = none) (hj : decodeUop s.upc = .ok j) : BlockInv ((effect j s).advanceUpc s.upc) := by
  by_cases hu : s.upc = 9
  · have heff := blockInv_effect (i := j) h fun _ => hu
    unfold State.advanceUpc
    rwa [if_pos hu]
  · obtain ⟨hupc, hslp⟩ := effect_microOp_sequencer hj hu
    have heff : BlockInv (effect j s) := blockInv_effect h fun hsl => upc_of_decodeUop hj (by rw [hsl]; rfl)
    rw [← hupc] at hu ⊢
    refine blockInv_advanceUpc heff (hslp.trans hs) ((effect_inProgress j s).trans hn) hu fun h2 => ?_
    rw [← hupc, h2] at hj
    obtain rfl : Instr.coord = j := Except.ok.inj hj
    exact cursorReachable_coord s

theorem blockInv_exec_step {s t : State} (h : BlockInv s) (hn : s.inProgress = none) (hx : exec .step s = .next t) :
    BlockInv t := by
  obtain ⟨hi, _⟩ | ⟨_, _, rfl⟩ | ⟨_, hs, _, j, _, hj, rfl⟩ := exec_cases hx
  · exact absurd rfl hi
  · exact h
  · exact blockInv_microOp h hs hn hj

/-- A transaction other than `STEP` keeps the invariant at any time, also while a micro-op is in progress. -/
theorem blockInv_exec_transaction {i : Instr} {s t : State} (htr : i.isTransaction = true) (hi : i ≠ .step)
    (h : BlockInv s) (hx : exec i s = .next t) : BlockInv t := by
  rw [exec_eq_effect hi] at hx
  cases hx
  exact blockInv_effect h fun hsl => by simp [hsl, Instr.isTransaction] at htr

/-- A micro-op of several clocks begins within the bounds of R358, a flush with one clock a byte (R62). -/
theorem blockInv_begin {s : State} (h : BlockInv s) (n : Nat) (hs : s.sleeping = false)
    (hlt : 1 < clocksOf s.upc n) :
    BlockInv { s with
      inProgress := some { total := clocksOf s.upc n, done := 1, leds := s.ledsEnabled, border := s.borderVisible } } :=
  { h with
    busy := fun m hm => by
      cases hm
      exact ⟨hs, Nat.le_refl 1, hlt, clocksOf_le s.upc n, fun h6 => if_pos h6⟩ }

theorem blockInv_goOn {m : MicroOp} {s : State} (h : BlockInv s) (hm : s.inProgress = some m)
    (hlt : m.done + 1 < m.total) : BlockInv { s with inProgress := some { m with done := m.done + 1 } } :=
  { h with
    busy := fun m' hm' => by
      cases hm'
      obtain ⟨hs, _, _, hle, hflush⟩ := h.busy m hm
      exact ⟨hs, Nat.le_add_left 1 m.done, hlt, hle, hflush⟩ }

/-- The last clock of a micro-op is its `STEP`, with flags that the invariant does not read. -/
theorem blockInv_complete {m : MicroOp} {s t : State} (h : BlockInv s) (hx : completeMicroOp m s = .next t) :
    BlockInv t := by
  obtain ⟨u, hu, rfl⟩ := completeMicroOp_cases hx
  have hidle : BlockInv { s with inProgress := none, ledsEnabled := m.leds, borderVisible := m.border } :=
    { h with busy := nofun }
  exact { blockInv_exec_step hidle rfl hu with }

/-- Settles O48, by the parts of a step: the five transactions, a micro-op over its clocks, a reset, and what the
invariant does not read. -/
theorem stepKeepsTheInvariant : Obligations.StepKeepsTheInvariant :=
  fun _ _ => step_keeps (P := BlockInv)
    (hlevel := fun _ _ _ _ => blockInv_exec_transaction rfl Instr.noConfusion)
    (htick := fun _ _ _ => blockInv_exec_transaction rfl Instr.noConfusion)
    (hadc := fun _ _ _ _ => blockInv_exec_transaction rfl Instr.noConfusion)
    (hstep := fun _ _ => blockInv_exec_step)
    (hread := fun _ _ _ => blockInv_exec_transaction rfl Instr.noConfusion)
    (hbegin := fun _ n h _ => blockInv_begin h n)
    (hgoOn := fun _ _ => blockInv_goOn)
    (hcomplete := fun _ _ _ h _ hx => ⟨blockInv_complete h hx, (completeMicroOp_model_fields hx).1⟩)
    (hmark := fun _ _ h => { h with })
    (hreset := fun _ => blockInv_doReset)
    (hshift := fun _ _ _ h => { h with })
    (hwaiting := fun _ _ h => { h with })
    (hinputs := fun _ _ h => { h with })

end Sys2Proof.Machine
end

section
/-! PROOFS. The framebuffer as the display sees it (20_memory.md): where a pixel's bit is (R61), and how the clocks of
`FB_FLUSH` stream the bytes (R62). The sequencer's part of such a clock is the only one that a flush sees: what the
other agents do leaves alone all that a flush reads and writes. -/

namespace Sys2Proof.Machine

/-! ### The layout of the framebuffer (R61) -/

theorem byteIndex_of_byte {b k : Nat} (hk : k < 8) : byteIndex (b % 128) (8 * (b / 128) + k) = b := by
  simp only [byteIndex, fbWidth]
  omega

theorem bitIndex_of_byte {b k : Nat} (hk : k < 8) : bitIndex (8 * (b / 128) + k) = k := by
  unfold bitIndex
  omega

/-- Settles O42: a pixel is read through its byte index and its bit index, and these two invert the layout. -/
theorem framebufferBytesArePageMajor : Obligations.FramebufferBytesArePageMajor := by
  refine fun m => ⟨fun b k _ hk => ?_, fun _ _ _ _ => rfl⟩
  rw [Memory.pix, byteIndex_of_byte hk, bitIndex_of_byte hk]

/-! ### What a flush reads and writes, and what the other agents do to it -/

/-- The part of the state that a flush over its clocks reads or writes, with what decides how its run goes on. -/
structure FlushView where
  fb : Memory
  dutyOut : Duty × Duty
  out : List Event
  upc : BitVec 4
  sleeping : Bool
  inProgress : Option MicroOp
  cfg : Config
  inputs : List Input

/-- What a flush sees of a state. -/
def State.flushView (s : State) : FlushView :=
  { fb := s.fb, dutyOut := s.dutyOut, out := s.out, upc := s.upc, sleeping := s.sleeping, inProgress := s.inProgress
    cfg := s.cfg, inputs := s.inputs }

/-- Levels and ticks do not touch what a flush sees while the sequencer is awake: they write lines, flags and time. -/
theorem effect_flushView {i : Instr} {s : State} (hs : s.sleeping = false)
    (hi : (∃ l v, i = .level l v) ∨ ∃ n, i = .tick n) : (effect i s).flushView = s.flushView := by
  obtain ⟨hsleeping, hupc⟩ := effect_awake hs (.inr hi)
  have hother : i ≠ .apply ∧ ¬(i = .fbClear ∨ i = .fbBorder ∨ i = .fbCursor) ∧
      ¬(i = .fbFlush ∨ i = .diag ∨ ∃ a, i = .read a) := by
    obtain ⟨l, v, rfl⟩ | ⟨n, rfl⟩ := hi <;> simp
  obtain ⟨hduty, hfb, hout⟩ := hother
  simp only [State.flushView, hsleeping, hs, hupc, effect_dutyOut hduty, effect_fb hfb, effect_out hout,
    effect_inProgress, effect_cfg, effect_inputs]

theorem runInstrs_flushView {is : List Instr} (hi : ∀ i ∈ is, (∃ l v, i = .level l v) ∨ ∃ n, i = .tick n) :
    ∀ {s : State}, s.sleeping = false → ∃ t, runInstrs is s = .next t ∧ t.flushView = s.flushView := by
  induction is with
  | nil => exact fun {s} _ => ⟨s, rfl, rfl⟩
  | cons i is ih =>
    intro s hs
    have hhead := hi i List.mem_cons_self
    have hne : i ≠ .step := by
      rintro rfl
      simp at hhead
    have hview := effect_flushView hs hhead
    obtain ⟨t, hrun, ht⟩ :=
      ih (fun j hj => hi j (List.mem_cons_of_mem _ hj)) ((congrArg FlushView.sleeping hview).trans hs)
    exact ⟨t, by rw [runInstrs_cons, exec_eq_effect hne, andThen_next, hrun], ht.trans hview⟩

/-- What a flush sees after a clock is what it sees after the sequencer's part of the clock. -/
theorem clockWith_flushView {debug sequencer : State → Result} {c : ClockIn} {s s1 s2 : State}
    (hdebug : debug s = .next s1) (hseq : sequencer { s1 with adcIn := some (c.adcX, c.adcY) } = .next s2)
    (hs : s2.sleeping = false) :
    ∃ t, clockWith debug sequencer c s = .next t ∧ t.flushView = s2.flushView := by
  obtain ⟨t, hrun, ht⟩ := runInstrs_flushView (fun _ => mem_clockTail (c := c) (s := s)) hs
  refine ⟨{ t with line0 := t.line0.shift c.btn0, line1 := t.line1.shift c.btn1 }, ?_, ht⟩
  rw [clockWith, hdebug, andThen_next, exec_eq_effect Instr.noConfusion, andThen_next, effect, hseq, andThen_next, hrun,
    andThen_next]

theorem idleClock_flushView (c : ClockIn) {s : State} (hs : s.sleeping = false) :
    ∃ t, idleClock c s = .next t ∧ t.flushView = s.flushView :=
  clockWith_flushView (s2 := { s with waiting := s.waiting ++ c.dbgReq.toList, adcIn := some (c.adcX, c.adcY) })
    rfl rfl hs

/-- The debug port of an idle block only appends answers. -/
theorem debugClock_appends_answers (c : ClockIn) {s : State} (hn : s.inProgress = none) :
    ∃ t answers waiting, debugClock c s = .next t ∧ withoutRdata answers = [] ∧
      t = { s with out := s.out ++ answers, waiting := waiting } := by
  rw [debugClock_idle hn]
  cases s.waiting ++ c.dbgReq.toList with
  | nil => exact ⟨_, [], [], rfl, rfl, by simp⟩
  | cons a later => exact ⟨_, [.rdata a _], later, rfl, rfl, rfl⟩

/-! ### The clocks of a flush (R62, R352) -/

/-- A flush that began in `s`, after `b` of its clocks. -/
def flushOp (s : State) (b : Nat) : MicroOp :=
  { total := 1024, done := b, leds := s.ledsEnabled, border := s.borderVisible }

/-- What a flush that began in `s` sees after `b` of its clocks, with `answers` given in the first of them and `rest`
the inputs still to come. -/
def flushProgress (s : State) (answers : List Event) (b : Nat) (rest : List Input) : FlushView :=
  { fb := s.fb, dutyOut := s.dutyOut, out := s.out ++ answers, upc := 6, sleeping := false
    inProgress := some (flushOp s b), cfg := s.cfg, inputs := rest }

theorem step_of_clock {s : State} {c : ClockIn} {rest : List Input} (hc : configValid s.cfg = true)
    (hi : s.inputs = .clock c :: rest) : step s = runClock c { s with inputs := rest } :=
  step_of_inputs hc hi

/-- The commit of a flush emits the frame and goes on to the next micro-op. -/
theorem completed_flush (m : MicroOp) {s : State} (hu : s.upc = 6) :
    completed m s = { s.emit (.frame s.fb.frameBytes) with upc := 7, inProgress := none } := by
  cases s
  subst hu
  rfl

/-- The first clock. -/
theorem flush_begins {s : State} {c : ClockIn} {rest : List Input} (hc : configValid s.cfg = true)
    (hi : s.inputs = .clock c :: rest) (hr : c.rst = false) (hq : c.seqStep = true) (hn : s.inProgress = none)
    (hs : s.sleeping = false) (hu : s.upc = 6) :
    ∃ t answers, step s = .next t ∧ withoutRdata answers = [] ∧ t.flushView = flushProgress s answers 1 rest := by
  have hclocks : clocksOf s.upc c.opClocks = 1024 := if_pos hu
  have hlt : 1 < clocksOf s.upc c.opClocks := by simp [hclocks]
  obtain ⟨s1, answers, waiting, hdebug, hanswers, rfl⟩ :=
    debugClock_appends_answers c (s := { s with inputs := rest }) hn
  have hbegins := runClock_begins (s := { s with inputs := rest }) hr hn hq hs hlt
  rw [hclocks] at hbegins
  obtain ⟨t, hrun, ht⟩ := clockWith_flushView (c := c) hdebug
    (sequencer := fun u => .next { u with inProgress := some (flushOp s 1) }) rfl hs
  refine ⟨t, answers, (step_of_clock hc hi).trans (hbegins.trans hrun), hanswers, ht.trans ?_⟩
  simp only [State.flushView, flushProgress, hu, hs]
  rfl

/-- A clock in between. -/
theorem flush_goesOn {s u : State} {answers : List Event} {b : Nat} {c : ClockIn} {rest : List Input}
    (hc : configValid s.cfg = true) (hview : u.flushView = flushProgress s answers b (.clock c :: rest))
    (hr : c.rst = false) (hb : b + 1 < 1024) :
    ∃ v, step u = .next v ∧ v.flushView = flushProgress s answers (b + 1) rest := by
  simp only [State.flushView, flushProgress, FlushView.mk.injEq] at hview
  obtain ⟨hfb, hduty, hout, hu, hs, hm, hcfg, hi⟩ := hview
  obtain ⟨v, hrun, hv⟩ := idleClock_flushView c
    (s := { u with inputs := rest, inProgress := some (flushOp s (b + 1)) }) hs
  refine ⟨v, ?_, hv.trans ?_⟩
  · rw [step_of_clock (hcfg ▸ hc) hi, runClock_goesOn (s := { u with inputs := rest }) hr hm hb]
    exact hrun
  · simp only [State.flushView, flushProgress, ← hfb, ← hduty, ← hout, ← hcfg, hu, hs]
    rfl

/-- The last clock. -/
theorem flush_ends {s u : State} {answers : List Event} {c : ClockIn} {rest : List Input}
    (hc : configValid s.cfg = true) (hview : u.flushView = flushProgress s answers 1023 (.clock c :: rest))
    (hr : c.rst = false) :
    ∃ t, step u = .next t ∧ t.flushView =
      { flushProgress s answers 1024 rest with
        out := s.out ++ answers ++ [.frame s.fb.frameBytes], upc := 7, inProgress := none } := by
  simp only [State.flushView, flushProgress, FlushView.mk.injEq] at hview
  obtain ⟨hfb, hduty, hout, hu, hs, hm, hcfg, hi⟩ := hview
  obtain ⟨t, hrun, ht⟩ := idleClock_flushView c
    (s := { ({ u with inputs := rest } : State).emit (.frame u.fb.frameBytes) with upc := 7, inProgress := none }) hs
  refine ⟨t, ?_, ht.trans ?_⟩
  · rw [step_of_clock (hcfg ▸ hc) hi, runClock_ends (s := { u with inputs := rest }) hr hm (Nat.le_refl 1024) hs
      (by simp [hu]), completed_flush _ (by exact hu)]
    exact hrun
  · simp only [State.flushView, flushProgress, ← hfb, ← hduty, ← hout, ← hcfg, hs]
    rfl

/-! ### The whole flush -/

/-- A run goes one step further. -/
theorem runs_snoc {k : Nat} {s u t : State} (hrun : Runs k s u) (hstep : step u = .next t) : Runs (k + 1) s t :=
  runs_add.mpr ⟨u, hrun, runs_succ.mpr ⟨t, hstep, runs_zero.mpr rfl⟩⟩

/-- What a flush sees along its clocks, from the first to the last but one. -/
theorem runs_flush {s : State} {cs : List ClockIn} {rest : List Input} (hc : configValid s.cfg = true)
    (hlen : cs.length = 1024) (hr : ∀ c ∈ cs, c.rst = false) {answers : List Event} {u : State}
    (hfirst : step s = .next u) (hview : u.flushView = flushProgress s answers 1 ((cs.drop 1).map .clock ++ rest))
    {b : Nat} (h1 : 1 ≤ b) : b < 1024 →
      ∃ v, Runs b s v ∧ v.flushView = flushProgress s answers b ((cs.drop b).map .clock ++ rest) := by
  induction b, h1 using Nat.le_induction with
  | base => exact fun _ => ⟨u, runs_snoc (runs_zero.mpr rfl) hfirst, hview⟩
  | succ b _ ih =>
    intro hb
    obtain ⟨v, hrun, hv⟩ := ih (by omega)
    rw [List.drop_eq_getElem_cons (by omega)] at hv
    obtain ⟨w, hstep, hw⟩ := flush_goesOn hc hv (hr _ (List.getElem_mem _)) hb
    exact ⟨w, runs_snoc hrun hstep, hw⟩

/-- The ports in a clock in which the sequencer works on byte `b` of a flush. -/
theorem clockOut_flush {u v : State} {c : ClockIn} {b : Nat} {duty : Duty × Duty} (hr : c.rst = false)
    (hw : u.working c = some (6, b)) (hduty : v.dutyOut = duty) :
    (clockOut u c v).disp = some { data := u.fb.readByte b, sof := b == 0 } ∧
      (clockOut u c v).pwmDuty0 = duty.1 ∧ (clockOut u c v).pwmDuty1 = duty.2 := by
  subst hduty
  simp [clockOut, hr, State.dispBeat, hw, State.dutyOut]

/-- A clock after the first shows its byte of the frame, whether it is the last one or not. -/
theorem flush_shows_byte {s u : State} {answers : List Event} {b : Nat} {c : ClockIn} {rest : List Input}
    (hc : configValid s.cfg = true) (hview : u.flushView = flushProgress s answers b (.clock c :: rest))
    (hr : c.rst = false) (hb : b < 1024) :
    ∃ v, step u = .next v ∧ (clockOut u c v).disp = some { data := s.fb.readByte b, sof := b == 0 } ∧
      (clockOut u c v).pwmDuty0 = s.dutyOut0 ∧ (clockOut u c v).pwmDuty1 = s.dutyOut1 := by
  have hfb : u.fb = s.fb := congrArg FlushView.fb hview
  have hworking : u.working c = some (6, b) := by
    have hm : u.inProgress = some (flushOp s b) := congrArg FlushView.inProgress hview
    have hu : u.upc = 6 := congrArg FlushView.upc hview
    simp [State.working, hm, hu, flushOp]
  obtain ⟨v, hstep, hduty⟩ : ∃ v, step u = .next v ∧ v.dutyOut = s.dutyOut := by
    obtain hlt | rfl : b + 1 < 1024 ∨ b = 1023 := by omega
    · obtain ⟨v, hstep, hv⟩ := flush_goesOn hc hview hr hlt
      exact ⟨v, hstep, congrArg FlushView.dutyOut hv⟩
    · obtain ⟨v, hstep, hv⟩ := flush_ends hc hview hr
      exact ⟨v, hstep, congrArg FlushView.dutyOut hv⟩
  exact ⟨v, hstep, hfb ▸ clockOut_flush hr hworking hduty⟩

/-- Settles O57: the first clock answers at most debug requests, the clocks after it only count, and the last one
commits; a flush writes neither `fb` nor `duty_out`, so each clock shows the byte and the duties of the start. -/
theorem flushClockStreamsTheFrame : Obligations.FlushClockStreamsTheFrame := by
  intro s cs rest hc hi hlen hr hq hn hs hu
  obtain ⟨c, ds, rfl⟩ := List.exists_cons_of_length_pos (l := cs) (by omega)
  have hr0 : c.rst = false := hr c List.mem_cons_self
  have hq0 : c.seqStep = true := hq c rfl
  obtain ⟨u1, answers, hstep0, hanswers, hu1⟩ := flush_begins hc hi hr0 hq0 hn hs hu
  have hafter {b : Nat} (h1 : 1 ≤ b) (hb : b < 1024) : ∃ u d rest', (c :: ds)[b]? = some d ∧ d.rst = false ∧
      Runs b s u ∧ u.flushView = flushProgress s answers b (.clock d :: rest') := by
    obtain ⟨u, hrun, hview⟩ := runs_flush hc hlen hr hstep0 hu1 h1 hb
    rw [List.drop_eq_getElem_cons (hlen ▸ hb)] at hview
    exact ⟨u, _, _, List.getElem?_eq_getElem _, hr _ (List.getElem_mem _), hrun, hview⟩
  obtain ⟨w, d, _, _, hrd, hrunw, hw⟩ := hafter (b := 1023) (by decide) (by decide)
  obtain ⟨t, hstept, ht⟩ := flush_ends hc hw hrd
  refine ⟨t, s.fb.frameBytes, answers, runs_snoc hrunw hstept, congrArg FlushView.inProgress ht,
    congrArg FlushView.upc ht, congrArg FlushView.fb ht, congrArg FlushView.out ht, hanswers,
    Memory.length_frameBytes _, fun b hb => ⟨Memory.getD_frameBytes _ hb 0, ?_⟩⟩
  rw [Memory.getD_frameBytes _ hb]
  obtain rfl | h1 : b = 0 ∨ 1 ≤ b := by omega
  · have hworking : s.working c = some (6, 0) := by simp [State.working, hn, hq0, hs, hu]
    exact ⟨c, s, u1, rfl, runs_zero.mpr rfl, hstep0,
      clockOut_flush hr0 hworking (congrArg FlushView.dutyOut hu1)⟩
  · obtain ⟨u, d, _, hd, hrd, hrun, hview⟩ := hafter h1 hb
    obtain ⟨v, hstep, hports⟩ := flush_shows_byte hc hview hrd hb
    exact ⟨d, u, v, hd, hrun, hstep, hports⟩

end Sys2Proof.Machine
end

section
/-! PROOFS. The two encoding spaces (30_encoding.md R80 to R90). A transaction word is an operation, whose layout has
reserved bits and places for operands; decoding reads the three parts and encoding writes them. -/

namespace Sys2Proof.Machine

/-! ### Decoding by the operation (R80, R87) -/

/-- The reserved bits in the layout of an operation (R82 to R86). -/
def reservedMask : Nat → Word
  | 1 => levelReserved
  | 2 => tickReserved
  | 3 => adcReserved
  | 4 => stepReserved
  | 5 => readReserved
  | _ => 0

/-- The operation of a word, with the operands that stand in its layout's places (R82 to R86). -/
def operationOf (w : Word) : Instr :=
  match opOf w with
  | 1 => .level (lineOfBit (w.getLsbD 8)) (w.getLsbD 0)
  | 2 => .tick (w.extractLsb' 0 16)
  | 3 => .adc (w.extractLsb' 12 12) (w.extractLsb' 0 12)
  | 4 => .step
  | _ => .read (w.extractLsb' 0 10)

theorem operation_cases {op : Nat} (h : 1 ≤ op ∧ op ≤ 5) : op = 1 ∨ op = 2 ∨ op = 3 ∨ op = 4 ∨ op = 5 := by
  omega

theorem decodeWord_of_operation {w : Word} (h : 1 ≤ opOf w ∧ opOf w ≤ 5) :
    decodeWord w = unlessReserved w (reservedMask (opOf w)) (operationOf w) := by
  unfold decodeWord operationOf
  rw [opField_toNat]
  obtain h | h | h | h | h := operation_cases h <;> rw [h] <;> rfl

theorem decodeWord_of_no_operation {w : Word} (h : ¬(1 ≤ opOf w ∧ opOf w ≤ 5)) :
    decodeWord w = .error .rsvdOp := by
  unfold decodeWord
  rw [opField_toNat]
  split
  case h_6 => rfl
  all_goals omega

/-- What decodes has one of the five operations and no reserved bit at 1. -/
theorem decodeWord_eq_ok {w : Word} {i : Instr} :
    decodeWord w = .ok i ↔
      (1 ≤ opOf w ∧ opOf w ≤ 5) ∧ w &&& reservedMask (opOf w) = 0 ∧ operationOf w = i := by
  by_cases h : 1 ≤ opOf w ∧ opOf w ≤ 5
  · rw [decodeWord_of_operation h, unlessReserved_eq_ok]
    exact (and_iff_right h).symm
  · rw [decodeWord_of_no_operation h]
    exact iff_of_false nofun fun h' => h h'.1

theorem decodeWord_eq_rsvdOp {w : Word} : decodeWord w = .error .rsvdOp ↔ ¬(1 ≤ opOf w ∧ opOf w ≤ 5) := by
  by_cases h : 1 ≤ opOf w ∧ opOf w ≤ 5
  · rw [decodeWord_of_operation h, unlessReserved_eq_error]
    exact iff_of_false (fun h' => nomatch h'.2) (not_not.mpr h)
  · exact iff_of_true (decodeWord_of_no_operation h) h

theorem decodeWord_eq_rsvdBits {w : Word} :
    decodeWord w = .error .rsvdBits ↔ (1 ≤ opOf w ∧ opOf w ≤ 5) ∧ w &&& reservedMask (opOf w) ≠ 0 := by
  by_cases h : 1 ≤ opOf w ∧ opOf w ≤ 5
  · rw [decodeWord_of_operation h, unlessReserved_eq_error]
    exact ⟨fun h' => ⟨h, h'.1⟩, fun h' => ⟨h'.2, rfl⟩⟩
  · rw [decodeWord_of_no_operation h]
    exact iff_of_false nofun fun h' => h h'.1

/-! ### The word of an instruction lies in its row of the opcode table -/

/-- A word in a row whose mask has the operation field has the operation of the row's match. -/
theorem opOf_of_row {w mask value : Word} (h : w &&& mask = value) (hmask : opField mask = 15#4) :
    opOf w = opOf value := by
  have hfield : opField value = opField w := by
    unfold opField at hmask ⊢
    rw [← h, BitVec.extractLsb'_and, hmask]
    exact BitVec.and_allOnes
  rw [← opField_toNat, ← opField_toNat, hfield]

/-- A word in a row has the row's value, here 0, at all bits that the row's mask has. -/
theorem and_eq_zero_of_row {w mask value reserved : Word} (h : w &&& mask = value)
    (hmask : mask &&& reserved = reserved) (hvalue : value &&& reserved = 0) : w &&& reserved = 0 := by
  rw [← hmask, ← BitVec.and_assoc, h, hvalue]

/-- A row holds words of operation `op` only, and none of them has a reserved bit at 1 (R82 to R86). -/
abbrev RowOfOperation (op : Nat) (mask value : Word) : Prop :=
  (1 ≤ op ∧ op ≤ 5) ∧ opField mask = 15#4 ∧ opOf value = op ∧ mask &&& reservedMask op = reservedMask op ∧
    value &&& reservedMask op = 0

/-- A word in the row of an operation decodes to the operation with the word's operands. -/
theorem decodeWord_of_row {op : Nat} {w mask value : Word} {i : Instr} (hrow : RowOfOperation op mask value)
    (h : w &&& mask = value) (hoperands : opOf w = op → operationOf w = i) : decodeWord w = .ok i := by
  obtain ⟨hop, hfield, hval, hmask, hzero⟩ := hrow
  have hw : opOf w = op := (opOf_of_row h hfield).trans hval
  have hreserved : w &&& reservedMask op = 0 := and_eq_zero_of_row h hmask hzero
  exact decodeWord_eq_ok.mpr ⟨by rwa [hw], by rwa [hw], hoperands hw⟩

theorem decodeWord_level (l : Line) (v : Bool) :
    decodeWord (0x1#4 ++ 0#19 ++ BitVec.ofBool (bitOfLine l) ++ 0#7 ++ BitVec.ofBool v) = .ok (.level l v) := by
  cases l <;> cases v <;> decide

theorem rowOfOperation_tick : RowOfOperation 2 0xFFFF0000 0x20000000 := by decide

theorem decodeWord_tick (n : BitVec 16) : decodeWord (0x2#4 ++ 0#12 ++ n) = .ok (.tick n) := by
  refine decodeWord_of_row rowOfOperation_tick (Laws.TableRow.tick n) fun h => ?_
  rw [operationOf, h]
  exact congrArg Instr.tick BitVec.extractLsb'_append_eq_right

theorem rowOfOperation_adc : RowOfOperation 3 0xFF000000 0x30000000 := by decide

theorem decodeWord_adc (x y : Sample) : decodeWord (0x3#4 ++ 0#4 ++ x ++ y) = .ok (.adc x y) := by
  refine decodeWord_of_row rowOfOperation_adc (Laws.TableRow.adc x y) fun h => ?_
  rw [operationOf, h]
  have hx : (0x3#4 ++ 0#4 ++ x ++ y).extractLsb' 12 12 = x :=
    (BitVec.extractLsb'_append_eq_of_le (Nat.le_refl 12)).trans BitVec.extractLsb'_append_eq_right
  exact congrArg₂ Instr.adc hx BitVec.extractLsb'_append_eq_right

theorem decodeWord_step : decodeWord (0x4#4 ++ 0#28) = .ok .step := by decide

theorem rowOfOperation_read : RowOfOperation 5 0xFFFFFC00 0x50000000 := by decide

theorem decodeWord_read (a : DebugAddr) : decodeWord (0x5#4 ++ 0#18 ++ a) = .ok (.read a) := by
  refine decodeWord_of_row rowOfOperation_read (Laws.TableRow.read a) fun h => ?_
  rw [operationOf, h]
  exact congrArg Instr.read BitVec.extractLsb'_append_eq_right

/-- Settles O1: a transaction's word decodes to it by its layout, and a micro-op's code names it (R88). -/
theorem decodeOfEncodeIsTheInstruction : Obligations.DecodeOfEncodeIsTheInstruction := by
  intro i
  cases i with
  | level l v => exact decodeWord_level l v
  | tick n => exact decodeWord_tick n
  | adc x y => exact decodeWord_adc x y
  | step => exact decodeWord_step
  | read a => exact decodeWord_read a
  | sample | duty | coord | fbClear | fbBorder | fbCursor | fbFlush | apply | diag | sleep => rfl

/-! ### A word is its fields one after another -/

/-- A run of bits that are all reserved is 0 where the reserved bits are. -/
theorem field_eq_zero {w reserved : Word} {start len : Nat} (h : w &&& reserved = 0)
    (hall : reserved.extractLsb' start len = BitVec.allOnes len) : w.extractLsb' start len = 0#len := by
  have hfield := congrArg (BitVec.extractLsb' start len) h
  rwa [BitVec.extractLsb'_and, hall, BitVec.and_allOnes, show (0 : Word) = 0#32 from rfl,
    BitVec.extractLsb'_zero] at hfield

theorem ofBool_bit (w : Word) (k : Nat) : BitVec.ofBool (w.getLsbD k) = w.extractLsb' k 1 := by
  apply BitVec.eq_of_getLsbD_eq
  intro j hj
  obtain rfl : j = 0 := by omega
  simp

@[simp] theorem bitOfLine_lineOfBit (b : Bool) : bitOfLine (lineOfBit b) = b := by cases b <;> rfl

/-- A word with its reserved bits at 0 is the encoding of its operation with its operands. -/
theorem encode_operationOf {w : Word} (h : 1 ≤ opOf w ∧ opOf w ≤ 5) (hr : w &&& reservedMask (opOf w) = 0) :
    encode (operationOf w) = .txn32 w := by
  have hfield : w.extractLsb' 28 4 = BitVec.ofNat 4 (opOf w) := by
    apply BitVec.eq_of_toNat_eq
    rw [BitVec.toNat_ofNat, Nat.mod_eq_of_lt (by omega)]
    exact opField_toNat w
  unfold operationOf
  obtain hop | hop | hop | hop | hop := operation_cases h <;> rw [hop] at hr hfield ⊢ <;> apply congrArg Code.txn32
  · have hhigh : w.extractLsb' 9 19 = 0#19 := field_eq_zero hr (by decide)
    have hlow : w.extractLsb' 1 7 = 0#7 := field_eq_zero hr (by decide)
    rw [bitOfLine_lineOfBit, ofBool_bit, ofBool_bit, ← hfield, ← hhigh, ← hlow]
    simp only [BitVec.extractLsb'_append_extractLsb'_eq_extractLsb', BitVec.extractLsb'_eq_self]
  · have hzero : w.extractLsb' 16 12 = 0#12 := field_eq_zero hr (by decide)
    rw [← hfield, ← hzero]
    simp only [BitVec.extractLsb'_append_extractLsb'_eq_extractLsb', BitVec.extractLsb'_eq_self]
  · have hzero : w.extractLsb' 24 4 = 0#4 := field_eq_zero hr (by decide)
    rw [← hfield, ← hzero]
    simp only [BitVec.extractLsb'_append_extractLsb'_eq_extractLsb', BitVec.extractLsb'_eq_self]
  · have hzero : w.extractLsb' 0 28 = 0#28 := field_eq_zero hr (by decide)
    rw [← hfield, ← hzero]
    simp only [BitVec.extractLsb'_append_extractLsb'_eq_extractLsb', BitVec.extractLsb'_eq_self]
  · have hzero : w.extractLsb' 10 18 = 0#18 := field_eq_zero hr (by decide)
    rw [← hfield, ← hzero]
    simp only [BitVec.extractLsb'_append_extractLsb'_eq_extractLsb', BitVec.extractLsb'_eq_self]

/-- Settles O2: a word that decodes is the encoding of its operation, and a micro-op has one code (R88). -/
theorem encodeOfDecodeIsTheCode : Obligations.EncodeOfDecodeIsTheCode := by
  intro c i hd
  cases c with
  | txn32 w =>
    obtain ⟨hop, hr, rfl⟩ := decodeWord_eq_ok.mp hd
    exact encode_operationOf hop hr
  | uop4 c => exact encode_of_decodeUop hd

/-! ### Refused words (R87, R310) -/

theorem isReservedBit_le {op k : Nat} (h : isReservedBit op k = true) : k ≤ 27 := by
  unfold isReservedBit at h
  split at h <;> simp at h <;> omega

/-- The mask of an operation has its reserved bits. -/
theorem getLsbD_reservedMask {op : Nat} (h : 1 ≤ op ∧ op ≤ 5) (k : Nat) :
    (reservedMask op).getLsbD k = isReservedBit op k := by
  by_cases hk : k < 32
  · have hbits : ∀ op ≤ 5, 1 ≤ op → ∀ k < 32, (reservedMask op).getLsbD k = isReservedBit op k := by decide
    exact hbits op h.2 h.1 k hk
  · have hbeyond : isReservedBit op k = false := by
      by_contra hbit
      have := isReservedBit_le (by simpa using hbit)
      omega
    rw [BitVec.getLsbD_of_ge _ _ (by omega), hbeyond]

theorem reserved_eq_zero_iff {w : Word} {op : Nat} (h : 1 ≤ op ∧ op ≤ 5) :
    w &&& reservedMask op = 0 ↔ ∀ k, isReservedBit op k = true → w.getLsbD k = false := by
  simp only [and_eq_zero_iff, getLsbD_reservedMask h]
  refine ⟨fun hz k hk => ?_, fun hz k _ => hz k⟩
  by_cases hlt : k < 32
  · exact hz k hlt hk
  · exact BitVec.getLsbD_of_ge w k (by omega)

/-- A step at a refused word takes it from the run and marks the run (R310, R312). -/
theorem step_of_refused_word {s : State} {w : Word} {r : Reject} {rest : List Input} (hc : configValid s.cfg = true)
    (hi : s.inputs = .txn w :: rest) (hd : decodeWord w = .error r) :
    step s = .next ({ s with inputs := rest }.markRefused r) := by
  rw [step_of_inputs hc hi]
  exact runWord_of_error hd _

theorem isTransaction_of_decodeWord {w : Word} {i : Instr} (hd : decodeWord w = .ok i) : i.isTransaction = true := by
  obtain ⟨l, v, rfl⟩ | ⟨n, rfl⟩ | ⟨x, y, rfl⟩ | rfl | ⟨a, rfl⟩ := decodeWord_transaction hd <;> rfl

/-- Settles O3: the operation decides first and the reserved bits second (R316). -/
theorem reservedWordsAreRefusedAndChangeNothing : Obligations.ReservedWordsAreRefusedAndChangeNothing := by
  intro w
  refine ⟨?_, ?_, fun hop hzero => ?_, fun s rest r hc hi hd => ⟨_, step_of_refused_word hc hi hd⟩⟩
  · rw [decodeWord_eq_rsvdOp]
    omega
  · rw [decodeWord_eq_rsvdBits]
    refine and_congr_right fun hop => ?_
    rw [ne_eq, reserved_eq_zero_iff hop]
    simp
  · have hr := (reserved_eq_zero_iff hop).mpr hzero
    have hd : decodeWord w = .ok (operationOf w) := decodeWord_eq_ok.mpr ⟨hop, hr, rfl⟩
    exact ⟨_, hd, isTransaction_of_decodeWord hd, encode_operationOf hop hr⟩

/-! ### Words written out, and the ROM (R88, R89) -/

/-- Settles O4: each word is decoded. -/
theorem wordsOfTheSpecDecode : Obligations.WordsOfTheSpecDecode := by
  unfold Obligations.WordsOfTheSpecDecode
  decide

/-- Settles O5: the ten codes by the table, and a word decodes to a transaction only. -/
theorem romHoldsTheTenMicroOpsInOrder : Obligations.RomHoldsTheTenMicroOpsInOrder :=
  ⟨rom_eq, by decide, by decide, fun _ _ => isTransaction_of_decodeWord⟩

/-! ### The assembler's words (R92) -/

/-- Fields one after another, as a number. -/
theorem toNat_append_eq_add {m k : Nat} (a : BitVec m) (b : BitVec k) :
    (a ++ b).toNat = a.toNat * 2 ^ k + b.toNat := by
  rw [BitVec.toNat_append, ← Nat.shiftLeft_add_eq_or_of_lt b.isLt, Nat.shiftLeft_eq]

/-- A line that stands for one transaction assembles to its word where its operands are in range. -/
theorem assemble_single {a : AsmLine} {i : Instr} {w : Word} {inRange : Prop} [Decidable inRange]
    (hwf : a.wellFormed = true ↔ inRange) (hexpand : expand a = [i]) (hword : inRange → encode i = .txn32 w) :
    assemble a = if inRange then some [w] else none := by
  unfold assemble
  by_cases h : inRange
  · have hw : wordOf i = some w := by rw [wordOf, hword h]
    rw [if_pos (hwf.mpr h), if_pos h, hexpand]
    simp [hw]
  · rw [if_neg (fun hw => h (hwf.mp hw)), if_neg h]

theorem encode_level_asm {l v : Nat} (h : l ≤ 1 ∧ v ≤ 1) :
    encode (.level (lineOfBit (l == 1)) (v == 1)) = .txn32 (BitVec.ofNat 32 (0x10000000 + l * 2 ^ 8 + v)) := by
  obtain ⟨hl, hv⟩ := h
  interval_cases l <;> interval_cases v <;> decide

theorem encode_tick_asm {n : Nat} (h : n ≤ 65535) :
    encode (.tick (BitVec.ofNat 16 n)) = .txn32 (BitVec.ofNat 32 (0x20000000 + n)) := by
  refine congrArg Code.txn32 (BitVec.eq_of_toNat_eq ?_)
  simp only [toNat_append_eq_add, BitVec.toNat_ofNat]
  omega

theorem encode_adc_asm {x y : Nat} (h : x ≤ 4095 ∧ y ≤ 4095) :
    encode (.adc (BitVec.ofNat 12 x) (BitVec.ofNat 12 y)) =
      .txn32 (BitVec.ofNat 32 (0x30000000 + x * 2 ^ 12 + y)) := by
  refine congrArg Code.txn32 (BitVec.eq_of_toNat_eq ?_)
  simp only [toNat_append_eq_add, BitVec.toNat_ofNat]
  omega

theorem encode_read_asm {a : Nat} (h : a ≤ 0x3FF) :
    encode (.read (BitVec.ofNat 10 a)) = .txn32 (BitVec.ofNat 32 (0x50000000 + a)) := by
  refine congrArg Code.txn32 (BitVec.eq_of_toNat_eq ?_)
  simp only [toNat_append_eq_add, BitVec.toNat_ofNat]
  omega

/-- Settles O60: each of the five lines stands for one transaction, whose word is its fields as a number. -/
theorem assemblerWords : Obligations.AssemblerWords := by
  refine ⟨fun l v => ?_, fun n => ?_, fun x y => ?_, by decide, fun a => ?_⟩
  · exact assemble_single (by simp [AsmLine.wellFormed]) rfl encode_level_asm
  · exact assemble_single (by simp [AsmLine.wellFormed]) rfl encode_tick_asm
  · exact assemble_single (by simp [AsmLine.wellFormed]) rfl encode_adc_asm
  · exact assemble_single (by simp [AsmLine.wellFormed]) rfl encode_read_asm

end Sys2Proof.Machine
end

section
/-! PROOFS. The pseudo-instructions `WAIT` and `ITER` (30_encoding.md R93): their words run as their transactions one
after another, the ticks of `WAIT` add up, and `ITER` is the ten micro-ops of one iteration and its sleep. -/

namespace Sys2Proof.Machine

/-! ### The ticks of `WAIT` -/

/-- The ticks that `WAIT n` stands for: whole words of 65535 ms, and the rest where there is one (R93). -/
def waitTicks (n : Nat) : List (BitVec 16) :=
  List.replicate (n / 65535) 65535 ++ (if n % 65535 = 0 then [] else [BitVec.ofNat 16 (n % 65535)])

theorem expand_wait (n : Nat) : expand (.wait n) = (waitTicks n).map .tick := by
  unfold waitTicks
  split <;> simp [expand, *]

theorem sum_waitTicks (n : Nat) : ((waitTicks n).map BitVec.toNat).sum = n := by
  unfold waitTicks
  split <;> simp <;> omega

/-! ### The words of a line, run -/

/-- The words of transactions decode to them. -/
theorem forall₂_decodeWord_wordOf {is : List Instr} (his : ∀ i ∈ is, i.isTransaction = true) :
    List.Forall₂ (fun w i => decodeWord w = .ok i) (is.filterMap wordOf) is := by
  induction is with
  | nil => exact .nil
  | cons i is ih =>
    have htail := ih fun j hj => his j (List.mem_cons_of_mem i hj)
    have hdecode := decodeOfEncodeIsTheInstruction i
    have htr := his i List.mem_cons_self
    cases i with
    | level _ _ | tick _ | adc _ _ | step | read _ => exact .cons hdecode htail
    | sample | duty | coord | fbClear | fbBorder | fbCursor | fbFlush | apply | diag | sleep => cases htr

theorem expand_isTransaction (a : AsmLine) : ∀ i ∈ expand a, i.isTransaction = true := by
  cases a with
  | wait n =>
    intro i hi
    rw [expand_wait] at hi
    obtain ⟨m, _, rfl⟩ := List.mem_map.mp hi
    rfl
  | _ => simp [expand, Instr.isTransaction]

/-- The words of a line, in a quiet state, run as the transactions it stands for. -/
theorem runs_assembled {a : AsmLine} {ws : List Word} {s t : State} {rest : List Input} (hinv : BlockInv s)
    (hq : Quiet s) (hws : assemble a = some ws) (hi : s.inputs = ws.map .txn ++ rest)
    (hrun : runInstrs (expand a) s = .next t) : Runs ws.length s { t with inputs := rest } := by
  have hwords : (expand a).filterMap wordOf = ws := by
    unfold assemble at hws
    split at hws
    · exact Option.some.inj hws
    · cases hws
  have hdec := forall₂_decodeWord_wordOf (expand_isTransaction a)
  rw [hwords] at hdec
  exact (runs_of_instrs hinv.config hq hdec hi).mpr ⟨t, hrun, rfl⟩

/-! ### `WAIT` -/

theorem BlockInv.tsWidth_le {s : State} (hinv : BlockInv s) : s.cfg.tsWidth ≤ 32 := by
  obtain ⟨_, _, _, _, _, hts⟩ := (configValid_iff s.cfg).mp hinv.config
  exact hts

/-- Ticks one after another are one stretch of their sum (R128). -/
theorem runInstrs_ticks (ns : List (BitVec 16)) {s : State} (hinv : BlockInv s) :
    runInstrs (ns.map .tick) s = .next (s.tickBy (ns.map BitVec.toNat).sum) := by
  induction ns generalizing s with
  | nil => exact congrArg _ (State.tickBy_zero hinv.tsWidth_le hinv.now).symm
  | cons n ns ih =>
    have hts : s.cfg.tsWidth ≤ 32 := hinv.tsWidth_le
    have hcnt : s.sleeping = true → 1 ≤ s.sleepCnt.toNat := fun hs => (hinv.asleep hs).2.1
    rw [List.map_cons, runInstrs_cons, exec_eq_effect Instr.noConfusion]
    refine (ih (blockInv_tickBy hinv n.toNat)).trans ?_
    rw [State.tickBy_tickBy hts hcnt, List.map_cons, List.sum_cons]

/-- Settles O59: the ticks of `WAIT n` sum to `n`, and an awake sequencer takes no part in a tick. -/
theorem waitLetsExactlyItsMillisecondsPass : Obligations.WaitLetsExactlyItsMillisecondsPass := by
  intro s n ws rest hinv hq hs hws hi
  have hrun : runInstrs (expand (.wait n)) s = .next (s.tickBy n) := by
    rw [expand_wait, runInstrs_ticks _ hinv, sum_waitTicks]
  have hawake : s.tickBy n = { s with nowMs := s.timeAfter n } := by
    obtain ⟨_, ht⟩ | ⟨hs', _⟩ | ⟨hs', _⟩ := s.tickBy_cases n
    · exact ht
    all_goals exact absurd hs' (by simp [hs])
  rw [hawake] at hrun
  exact ⟨s.timeAfter n, State.timeAfter_toNat s n hinv.tsWidth_le, runs_assembled hinv hq hws hi hrun⟩

/-! ### The micro-ops of an iteration (R260 to R265) -/

/-- The sequencer is awake and its next micro-op is `code`. -/
def AwakeAt (code : BitVec 4) (s : State) : Prop := s.sleeping = false ∧ s.upc = code

/-- The state after the micro-op `j` with the code `code`, before `SLEEP`: its effect, and `upc` goes on (R262). -/
def performed (code : BitVec 4) (j : Instr) (s : State) : State := { effect j s with upc := code + 1 }

theorem awakeAt_performed {s : State} {code : BitVec 4} {j : Instr} (h : AwakeAt code s)
    (hj : decodeUop code = .ok j) (hne : code ≠ 9) : AwakeAt (code + 1) (performed code j s) := by
  obtain ⟨hs, rfl⟩ := h
  exact ⟨(effect_microOp_sequencer hj hne).2.trans hs, rfl⟩

/-- A `STEP` while awake performs the next micro-op (R261). -/
theorem runInstrs_step {s : State} {code : BitVec 4} {j : Instr} (is : List Instr) (h : AwakeAt code s)
    (hj : decodeUop code = .ok j) (hne : code ≠ 9) :
    runInstrs (.step :: is) s = runInstrs is (performed code j s) := by
  obtain ⟨hs, rfl⟩ := h
  have hrom : s.upc.toNat ≤ 9 := by
    have hnone : ∀ c : BitVec 4, 10 ≤ c.toNat → decodeUop c = .error .unusedUop := by decide
    by_contra hgt
    exact nomatch (hnone s.upc (by omega)).symm.trans hj
  rw [runInstrs_cons, exec_step_awake hs hrom hj, State.advanceUpc, if_neg hne, (effect_microOp_sequencer hj hne).1]
  rfl

/-- The state after `SAMPLE`, `DUTY` and `COORD` with `(x, y)` presented. -/
def measured (s : State) (x y : Sample) : State :=
  { s with
    smpX := x, smpY := y
    dutyNext0 := if s.ledsEnabled then dutyOf s.cfg x else 0
    dutyNext1 := if s.ledsEnabled then dutyOf s.cfg y else 0
    curX := BitVec.ofInt 7 (ovx (mapX x.toNat)), curY := BitVec.ofInt 6 (ovy (mapY y.toNat))
    upc := 3 }

theorem runInstrs_measure {s : State} {x y : Sample} (h : AwakeAt 0 s) (ha : s.adcIn = some (x, y)) :
    runInstrs (List.replicate 3 .step) s = .next (measured s x y) := by
  have hsample : effect .sample s = { s with smpX := x, smpY := y } := by
    simp [effect, State.adcPair, State.drawsAfterAdc, ha]
  have h1 : AwakeAt 1 (performed 0 .sample s) := awakeAt_performed h rfl (by decide)
  have h2 : AwakeAt 2 (performed 1 .duty _) := awakeAt_performed h1 rfl (by decide)
  rw [List.replicate, runInstrs_step _ h rfl (by decide), List.replicate, runInstrs_step _ h1 rfl (by decide),
    List.replicate, runInstrs_step _ h2 rfl (by decide), performed, performed, performed, hsample]
  rfl

/-- The frame that one iteration composes: the border and the cursor block on a cleared canvas (R220). -/
def composedFrame (visible : Bool) (cx cy : Nat) : Memory :=
  (Memory.setPixels [] (borderPixels visible)).setPixels (fillBlock cx cy cursorSize)

/-- The state after `FB_CLEAR`, `FB_BORDER`, `FB_CURSOR` and `FB_FLUSH`. -/
def composed (s : State) : State :=
  { s with
    fb := composedFrame s.borderVisible s.curX.toNat s.curY.toNat
    out := s.out ++ [Event.frame (composedFrame s.borderVisible s.curX.toNat s.curY.toNat).frameBytes]
    upc := 7 }

theorem runInstrs_compose {s : State} (h : AwakeAt 3 s) :
    runInstrs (List.replicate 4 .step) s = .next (composed s) := by
  have h4 : AwakeAt 4 (performed 3 .fbClear s) := awakeAt_performed h rfl (by decide)
  have h5 : AwakeAt 5 (performed 4 .fbBorder _) := awakeAt_performed h4 rfl (by decide)
  have h6 : AwakeAt 6 (performed 5 .fbCursor _) := awakeAt_performed h5 rfl (by decide)
  rw [List.replicate, runInstrs_step _ h rfl (by decide), List.replicate, runInstrs_step _ h4 rfl (by decide),
    List.replicate, runInstrs_step _ h5 rfl (by decide), List.replicate, runInstrs_step _ h6 rfl (by decide)]
  simp only [performed, effect, State.emit, composed, composedFrame, Memory.clear]
  rfl

/-- The state after `APPLY`, `DIAG` and `SLEEP`. -/
def delivered (s : State) : State :=
  { s with
    dutyOut0 := s.dutyNext0, dutyOut1 := s.dutyNext1
    draws := s.draws + 1
    out := if Config.diagDelivered s.draws then s.out ++ [.diag s.diagRecord] else s.out
    sleeping := true, sleepCnt := 100, upc := 9 }

theorem runInstrs_deliver {s : State} (h : AwakeAt 7 s) :
    runInstrs (List.replicate 3 .step) s = .next (delivered s) := by
  have h8 : AwakeAt 8 (performed 7 .apply s) := awakeAt_performed h rfl (by decide)
  have h9 : AwakeAt 9 (performed 8 .diag _) := awakeAt_performed h8 rfl (by decide)
  rw [List.replicate, runInstrs_step _ h rfl (by decide), List.replicate, runInstrs_step _ h8 rfl (by decide),
    List.replicate, runInstrs_cons, exec_step_awake (j := .sleep) h9.1 (by rw [h9.2]; decide) (by rw [h9.2]; rfl), h9.2]
  rfl

/-! ### The frame of an iteration (R61, R233) -/

/-- A pixel in the bytes of a frame (R61). -/
theorem getLsbD_frameBytes (m : Memory) {px py : Nat} (hx : px ≤ 127) (hy : py ≤ 63) :
    (m.frameBytes.getD (py / 8 * 128 + px) 0).getLsbD (py % 8) = m.pix px py := by
  rw [Memory.getD_frameBytes m (by omega)]
  rfl

theorem pix_composedFrame (visible : Bool) (cx cy : Nat) {px py : Nat} (hx : px ≤ 127) (hy : py ≤ 63) :
    (composedFrame visible cx cy).pix px py = (borderLit visible px py || cursorLit cx cy px py) := by
  have hclear : Memory.pix [] px py = false := Memory.pix_clear [] px py
  unfold composedFrame
  rw [Memory.pix_setPixels px py hx hy _ (Memory.wf_setPixels _ rfl), Memory.pix_setPixels px py hx hy _ rfl, hclear,
    Bool.false_or, mem_borderPixels hx hy, mem_cursorPixels]

/-! ### `ITER` -/

/-- The state after a whole iteration: the 100 ms of its sleep have passed, and the sequencer is awake at 0 (R128). -/
def iterated (s : State) (x y : Sample) : State :=
  { delivered (composed (measured s x y)) with nowMs := s.timeAfter 100, sleepCnt := 0, sleeping := false, upc := 0 }

theorem runInstrs_iter {s : State} {x y : Sample} (h : AwakeAt 0 s)
    (ha : s.adcIn = some (x, y)) : runInstrs (expand .iter) s = .next (iterated s x y) := by
  have hexpand : expand .iter =
      List.replicate 3 Instr.step ++
        (List.replicate 4 Instr.step ++ (List.replicate 3 Instr.step ++ [Instr.tick 100])) := rfl
  rw [hexpand, runInstrs_append, runInstrs_measure h ha, andThen_next, runInstrs_append,
    runInstrs_compose (s := measured s x y) ⟨h.1, rfl⟩, andThen_next, runInstrs_append,
    runInstrs_deliver (s := composed (measured s x y)) ⟨h.1, rfl⟩, andThen_next]
  rfl

/-- The diagnostic record is delivered or lost (R270). -/
theorem delivered_out (s : State) :
    (delivered s).out = s.out ∨ (delivered s).out = s.out ++ [.diag s.diagRecord] := by
  unfold delivered
  cases Config.diagDelivered s.draws
  · exact .inl rfl
  · exact .inr rfl

/-- An iteration appends its frame, and after it the record of its pair and its duties or nothing (R234, R270). -/
theorem iterated_out (s : State) (x y : Sample) :
    (iterated s x y).out = s.out ++ [Event.frame (composed (measured s x y)).fb.frameBytes] ∨
      (iterated s x y).out = s.out ++ [Event.frame (composed (measured s x y)).fb.frameBytes,
        Event.diag (x ++ y ++ (iterated s x y).dutyOut0 ++ (iterated s x y).dutyOut1)] := by
  obtain h | h := delivered_out (composed (measured s x y))
  · exact .inl h
  · exact .inr (h.trans (List.append_assoc s.out [_] [_]))

/-- The duty of a sample in an iteration (R161, R168, R202). -/
theorem toNat_duty {c : Config} (hc : configValid c = true) (leds : Bool) (r : Sample) :
    (if leds then dutyOf c r else 0).toNat = if leds then dutyByRule c r.toNat else 0 := by
  cases leds
  · rfl
  · exact dutyOf_toNat hc r

/-- Settles O58: the ten micro-ops measure, compose and deliver, and the tick ends the sleep they begin. -/
theorem iterPerformsOneWholeIteration : Obligations.IterPerformsOneWholeIteration := by
  intro s ws rest x y hinv hq hu hs ha hws hi
  have hframe : ∀ px py, px ≤ 127 → py ≤ 63 →
      ((composed (measured s x y)).fb.frameBytes.getD (py / 8 * 128 + px) 0).getLsbD (py % 8) =
        (borderLit s.borderVisible px py || cursorLit (columnByRule x.toNat) (rowByRule y.toNat) px py) := by
    intro px py hx hy
    rw [← column_toNat, ← row_toNat, getLsbD_frameBytes _ hx hy]
    exact pix_composedFrame _ _ _ hx hy
  refine ⟨{ iterated s x y with inputs := rest }, runs_assembled hinv hq hws hi (runInstrs_iter ⟨hs, hu⟩ ha), rfl,
    rfl, rfl, rfl, State.timeAfter_toNat s 100 hinv.tsWidth_le, rfl, rfl, rfl, rfl, rfl, rfl, column_toNat x, row_toNat y,
    toNat_duty hinv.config _ x, toNat_duty hinv.config _ y, _, Memory.length_frameBytes _, hframe, ?_⟩
  exact iterated_out s x y

end Sys2Proof.Machine
end

section
/-! PROOFS. The accepted edges of a line along a run of words (40_debounce_edge_detector.md): a word's step inverts the
line's flag and takes its timestamp exactly where it accepts an edge (R125), and lets pass the milliseconds of its
`TICK` (R128). -/

namespace Sys2Proof.Machine

/-! ### What only a line's own `LEVEL` and `TICK` move -/

/-- `t` has all that the debounce of line `l` reads or writes as `s` has it. -/
structure SameLine (l : Line) (s t : State) : Prop where
  cfg : t.cfg = s.cfg
  inputs : t.inputs = s.inputs
  nowMs : t.nowMs = s.nowMs
  chan : t.chan l = s.chan l
  flag : t.flag l = s.flag l

theorem SameLine.trans {l : Line} {s t u : State} (h : SameLine l s t) (h' : SameLine l t u) : SameLine l s u where
  cfg := h'.cfg.trans h.cfg
  inputs := h'.inputs.trans h.inputs
  nowMs := h'.nowMs.trans h.nowMs
  chan := h'.chan.trans h.chan
  flag := h'.flag.trans h.flag

theorem SameLine.accepts {l : Line} {s t : State} (h : SameLine l s t) (v : Bool) : t.accepts l v = s.accepts l v := by
  rw [State.accepts, State.accepts, State.fall, State.fall, State.gap, State.gap, h.cfg, h.nowMs, h.chan]

theorem sameLine_exec {l : Line} {i : Instr} {s t : State} (hlevel : ∀ v, i ≠ .level l v)
    (htick : ∀ n, i ≠ .tick n) (hx : exec i s = .next t) : SameLine l s t := by
  obtain ⟨hcfg, hinputs, _⟩ := exec_model_fields hx
  have hline : t.line l = s.line l := not_not.mp fun hne =>
    have ⟨v, hi, _⟩ := line_of_exec hx hne
    hlevel v hi
  obtain ⟨hchan, hflag⟩ := Prod.mk.inj hline
  exact ⟨hcfg, hinputs, not_not.mp fun hne => not_exists.mpr htick (nowMs_of_exec hx hne), hchan, hflag⟩

/-- The last clock of a micro-op puts the flags back as they are outside it (R352). -/
theorem sameLine_completeMicroOp {l : Line} {m : MicroOp} {s t : State} (hx : completeMicroOp m s = .next t) :
    SameLine l s t := by
  obtain ⟨u, hu, rfl⟩ := completeMicroOp_cases hx
  have h : SameLine l _ u := sameLine_exec (fun _ => Instr.noConfusion) (fun _ => Instr.noConfusion) hu
  cases l <;> exact ⟨h.cfg, h.inputs, h.nowMs, h.chan, rfl⟩

theorem sameLine_settle {l : Line} {s t : State} (hx : settle s = .next t) : SameLine l s t := by
  obtain ⟨u, hu, ht⟩ := settle_cases hx
  have hu : SameLine l s u := by
    obtain ⟨_, rfl⟩ | ⟨m, _, hc⟩ := hu
    · exact ⟨rfl, rfl, rfl, rfl, rfl⟩
    · exact sameLine_completeMicroOp hc
  have hu' : SameLine l s { u with waiting := [] } := by cases l <;> exact { hu with }
  refine runInstrs_keeps (P := SameLine l s) (fun i hi _ _ hp hr => hp.trans (sameLine_exec ?_ ?_ hr)) hu' ht
  all_goals
    obtain ⟨a, _, rfl⟩ := List.mem_map.mp hi
    exact fun _ => Instr.noConfusion

/-! ### The step of a word -/

/-- An accepted edge is a `LEVEL` of the line that the channel accepts (R123, R124). -/
theorem nextAccepts_iff {l : Line} {s : State} {w : Word} {rest : List Input} (hi : s.inputs = .txn w :: rest) :
    nextAccepts l s = true ↔ ∃ v, decodeWord w = .ok (.level l v) ∧ s.accepts l v = true := by
  simp only [nextAccepts, hi, State.accepts_iff, State.gap_eq, Bool.and_eq_true, decide_eq_true_eq]
  constructor
  · rintro ⟨⟨hd, hlvl⟩, hgap⟩
    exact ⟨false, hd, hlvl, rfl, hgap⟩
  · rintro ⟨_, hd, hlvl, rfl, hgap⟩
    exact ⟨⟨hd, hlvl⟩, hgap⟩

/-- The state `t` after a word that `s` takes from its run, by what the word does to line `l` and to the clock. -/
structure AfterWord (l : Line) (s t : State) : Prop where
  cfg : t.cfg = s.cfg
  inputs : t.inputs = s.inputs.tail
  flag : t.flag l = (s.flag l ^^ nextAccepts l s)
  lastTs : (t.chan l).lastTs = if nextAccepts l s then s.nowMs else (s.chan l).lastTs
  now : t.nowMs.toNat ≡ s.nowMs.toNat + ticksOf 1 s.inputs [MOD 2 ^ s.cfg.tsWidth]

/-- The clock after an instruction: `TICK n` alone advances it, modulo 2^TS_WIDTH (R24, R128). -/
theorem nowMs_exec_modEq {w : Word} {i : Instr} {s t : State} {rest : List Input} (hts : s.cfg.tsWidth ≤ 32)
    (hd : decodeWord w = .ok i) (hx : exec i s = .next t) :
    t.nowMs.toNat ≡ s.nowMs.toNat + ticksOf 1 (.txn w :: rest) [MOD 2 ^ s.cfg.tsWidth] := by
  by_cases htick : ∃ n, i = .tick n
  · obtain ⟨n, rfl⟩ := htick
    have hticks : ticksOf 1 (.txn w :: rest) = n.toNat := by simp [ticksOf, hd]
    rw [exec_eq_effect Instr.noConfusion] at hx
    cases hx
    rw [hticks, effect, State.tickBy_nowMs, State.timeAfter_toNat _ _ hts]
    exact Nat.mod_modEq _ _
  · have hticks : ticksOf 1 (.txn w :: rest) = 0 := by
      obtain ⟨l, v, rfl⟩ | ⟨n, rfl⟩ | ⟨x, y, rfl⟩ | rfl | ⟨a, rfl⟩ := decodeWord_transaction hd
      case inr.inl => exact absurd ⟨n, rfl⟩ htick
      all_goals simp [ticksOf, hd]
    rw [hticks, not_not.mp fun hne => htick (nowMs_of_exec hx hne)]
    exact Nat.ModEq.rfl

/-- An accepted edge inverts the flag of its line and takes its timestamp; nothing else does either (R125). -/
theorem edge_exec {l : Line} {i : Instr} {s t : State} {edge : Bool}
    (hedge : edge = true ↔ ∃ v, i = .level l v ∧ s.accepts l v = true) (hx : exec i s = .next t) :
    t.flag l = (s.flag l ^^ edge) ∧ (t.chan l).lastTs = if edge then s.nowMs else (s.chan l).lastTs := by
  cases edge with
  | true =>
    obtain ⟨v, rfl, hacc⟩ := hedge.mp rfl
    rw [exec_eq_effect Instr.noConfusion] at hx
    cases hx
    rw [flag_effect_level, chan_effect_level]
    simp [hacc]
  | false =>
    have hkeeps : (t.chan l).lastTs = (s.chan l).lastTs ∧ t.flag l = s.flag l := by
      by_contra hne
      obtain ⟨v, hi, hacc, _⟩ := edge_of_exec hx (not_and_or.mp hne)
      exact Bool.false_ne_true (hedge.mpr ⟨v, hi, hacc⟩)
    simpa using hkeeps.symm

theorem afterWord_of_exec {l : Line} {w : Word} {i : Instr} {s u t : State} {rest : List Input}
    (hts : s.cfg.tsWidth ≤ 32) (hi : s.inputs = .txn w :: rest) (hd : decodeWord w = .ok i)
    (hu : SameLine l { s with inputs := rest } u) (hx : exec i u = .next t) : AfterWord l s t := by
  obtain ⟨hcfg, hinputs, _⟩ := exec_model_fields hx
  have hnow := nowMs_exec_modEq (rest := rest) (hu.cfg ▸ hts) hd hx
  have hedge : nextAccepts l s = true ↔ ∃ v, i = .level l v ∧ u.accepts l v = true := by
    have hacc (v : Bool) : u.accepts l v = s.accepts l v := (hu.accepts v).trans (by cases l <;> rfl)
    simp [nextAccepts_iff hi, hd, hacc]
  obtain ⟨hflag, hlast⟩ := edge_exec hedge hx
  rw [hu.nowMs, hu.cfg, ← hi] at hnow
  rw [hu.flag] at hflag
  rw [hu.nowMs, hu.chan] at hlast
  exact ⟨hcfg.trans hu.cfg, by rw [hinputs, hu.inputs, hi, List.tail_cons], hflag, hlast, hnow⟩

/-- A refused word accepts no edge and lets no time pass (R87). -/
theorem afterWord_of_refused {l : Line} {w : Word} {r : Reject} {s : State} {rest : List Input}
    (hi : s.inputs = .txn w :: rest) (hd : decodeWord w = .error r) :
    AfterWord l s ({ s with inputs := rest }.markRefused r) := by
  have hedge : nextAccepts l s = false := by
    rw [← Bool.not_eq_true, nextAccepts_iff hi]
    simp [hd]
  have hticks : ticksOf 1 s.inputs = 0 := by simp [hi, ticksOf, hd]
  refine ⟨rfl, by rw [hi]; rfl, ?_, ?_, by rw [hticks]; exact Nat.ModEq.rfl⟩
  · rw [hedge, Bool.xor_false]
    cases l <;> rfl
  · rw [hedge]
    cases l <;> rfl

theorem afterWord_step (l : Line) {s t : State} {w : Word} {rest : List Input} (hi : s.inputs = .txn w :: rest)
    (hx : step s = .next t) : AfterWord l s t := by
  obtain ⟨hc, _⟩ := step_cases hx
  obtain ⟨_, _, _, _, _, hts⟩ := (configValid_iff s.cfg).mp hc
  rw [step_of_inputs hc hi] at hx
  obtain ⟨i, u, hd, hu, hx⟩ | ⟨r, hd, rfl⟩ := runWord_cases hx
  · exact afterWord_of_exec hts hi hd (sameLine_settle hu) hx
  · exact afterWord_of_refused hi hd

/-! ### A run of words -/

theorem allWords_succ {k : Nat} {is : List Input} (h : allWords (k + 1) is = true) :
    ∃ w rest, is = .txn w :: rest ∧ allWords k rest = true := by
  unfold allWords at h
  split at h
  · contradiction
  · rename_i w rest hk
    cases hk
    exact ⟨w, rest, rfl, h⟩
  · cases h

theorem ticksOf_succ (k : Nat) (is : List Input) : ticksOf (k + 1) is = ticksOf 1 is + ticksOf k is.tail := by
  cases is with
  | nil => cases k <;> rfl
  | cons i is => cases i <;> simp [ticksOf]

theorem acceptedEdges_succ {l : Line} {k : Nat} {s t : State} (hx : step s = .next t) :
    acceptedEdges l (k + 1) s = (nextAccepts l s).toNat + acceptedEdges l k t := by
  cases h : nextAccepts l s <;> simp [acceptedEdges, hx, h]

/-- One edge more or none turns the parity of their number by one edge or none. -/
theorem parity_toNat_add (b : Bool) (n : Nat) :
    decide ((b.toNat + n) % 2 = 1) = (b ^^ decide (n % 2 = 1)) := by
  cases b
  · simp
  · simp only [Bool.toNat_true, Bool.true_xor, ← decide_not, decide_eq_decide]
    omega

/-- The state `t` after `k` words from `s`, by the edges of line `l` that they accept and the ticks that they hold. -/
structure AfterWords (l : Line) (k : Nat) (s t : State) : Prop where
  cfg : t.cfg = s.cfg
  flag : t.flag l = (s.flag l ^^ decide (acceptedEdges l k s % 2 = 1))
  lastTs : acceptedEdges l k s = 0 → (t.chan l).lastTs = (s.chan l).lastTs
  now : t.nowMs.toNat ≡ s.nowMs.toNat + ticksOf k s.inputs [MOD 2 ^ s.cfg.tsWidth]

theorem afterWords_zero (l : Line) (s : State) : AfterWords l 0 s s where
  cfg := rfl
  flag := by simp [acceptedEdges]
  lastTs _ := rfl
  now := Nat.ModEq.rfl

/-- A word, and the words after it. -/
theorem AfterWord.cons {l : Line} {k : Nat} {s t u : State} (hx : step s = .next t) (h : AfterWord l s t)
    (hrest : AfterWords l k t u) : AfterWords l (k + 1) s u where
  cfg := hrest.cfg.trans h.cfg
  flag := by rw [hrest.flag, h.flag, acceptedEdges_succ hx, parity_toNat_add, Bool.xor_assoc]
  lastTs hnone := by
    rw [acceptedEdges_succ hx] at hnone
    obtain ⟨hfirst, hnone⟩ := Nat.add_eq_zero_iff.mp hnone
    rw [hrest.lastTs hnone, h.lastTs, if_neg (by simpa using hfirst)]
  now := by
    have hnow := hrest.now
    rw [h.cfg, h.inputs] at hnow
    rw [ticksOf_succ, ← Nat.add_assoc]
    exact hnow.trans (h.now.add_right _)

theorem afterWords_of_runs (l : Line) {k : Nat} : ∀ {s t : State}, allWords k s.inputs = true → Runs k s t →
    AfterWords l k s t := by
  induction k with
  | zero =>
    intro s t _ hrun
    obtain rfl := runs_zero.mp hrun
    exact afterWords_zero l t
  | succ k ih =>
    intro s t hw hrun
    obtain ⟨w, rest, hi, hrest⟩ := allWords_succ hw
    obtain ⟨u, hx, hrun⟩ := runs_succ.mp hrun
    have h := afterWord_step l hi hx
    exact h.cons hx (ih (by rw [h.inputs, hi]; exact hrest) hrun)

/-- Settles O16: by induction over the words of the run, each of which inverts the flag iff it accepts an edge. -/
theorem flagIsTheParityOfAcceptedEdges : Obligations.FlagIsTheParityOfAcceptedEdges :=
  fun l _ _ _ hw hrun => (afterWords_of_runs l hw hrun).flag

/-! ### The gap as elapsed time (R124, R129, R134) -/

/-- The gap is the milliseconds since the timestamp, modulo 2^TS_WIDTH. -/
theorem State.gap_eq_mod {s : State} {l : Line} {n : Nat} (hts : s.cfg.tsWidth ≤ 32)
    (hn : s.nowMs.toNat ≡ (s.chan l).lastTs.toNat + n [MOD 2 ^ s.cfg.tsWidth]) : s.gap l = n % 2 ^ s.cfg.tsWidth := by
  have hlt := (s.chan l).lastTs.isLt
  have hdvd : 2 ^ s.cfg.tsWidth ∣ 2 ^ 32 := Nat.pow_dvd_pow 2 hts
  rw [State.gap_eq, BitVec.toNat_sub, Nat.mod_mod_of_dvd _ hdvd]
  refine Nat.ModEq.add_left_cancel' (s.chan l).lastTs.toNat ?_
  calc (s.chan l).lastTs.toNat + (2 ^ 32 - (s.chan l).lastTs.toNat + s.nowMs.toNat)
      = 2 ^ 32 + s.nowMs.toNat := by omega
    _ ≡ 0 + s.nowMs.toNat [MOD 2 ^ s.cfg.tsWidth] := (Nat.modEq_zero_iff_dvd.mpr hdvd).add_right _
    _ = s.nowMs.toNat := Nat.zero_add _
    _ ≡ (s.chan l).lastTs.toNat + n [MOD 2 ^ s.cfg.tsWidth] := hn

theorem word_of_nextAccepts {l : Line} {s : State} (h : nextAccepts l s = true) :
    ∃ w rest, s.inputs = .txn w :: rest ∧ decodeWord w = .ok (.level l false) ∧ 250 < s.gap l := by
  cases hi : s.inputs with
  | nil => simp [nextAccepts, hi] at h
  | cons i rest =>
    cases i with
    | txn w =>
      obtain ⟨v, hd, hacc⟩ := (nextAccepts_iff hi).mp h
      obtain ⟨_, rfl, hgap⟩ := (s.accepts_iff l v).mp hacc
      exact ⟨w, rest, rfl, hd, hgap⟩
    | reset | clock _ => simp [nextAccepts, hi] at h

/-- Right after an accepted edge the timestamp is the time, modulo 2^TS_WIDTH. -/
theorem AfterWord.now_of_edge {l : Line} {s t : State} {w : Word} {rest : List Input} (h : AfterWord l s t)
    (hacc : nextAccepts l s = true) (hi : s.inputs = .txn w :: rest) (hd : decodeWord w = .ok (.level l false)) :
    t.nowMs.toNat ≡ (t.chan l).lastTs.toNat [MOD 2 ^ s.cfg.tsWidth] := by
  have hticks : ticksOf 1 s.inputs = 0 := by simp [hi, ticksOf, hd]
  have hlast : (t.chan l).lastTs = s.nowMs := by rw [h.lastTs, if_pos hacc]
  have hnow := h.now
  rwa [hticks, ← hlast] at hnow

/-- Settles O17: at the second edge the gap is the ticks since the first one, modulo 2^TS_WIDTH. -/
theorem acceptedEdgesAreMoreThan250TicksApart : Obligations.AcceptedEdgesAreMoreThan250TicksApart := by
  intro l k s t u hfirst hx hw hrun hnone hsecond
  obtain ⟨w, rest, hi, hd, _⟩ := word_of_nextAccepts hfirst
  obtain ⟨_, _, _, _, hgap⟩ := word_of_nextAccepts hsecond
  obtain ⟨_, _, _, _, _, hts⟩ := (configValid_iff s.cfg).mp (step_cases hx).1
  have hedge := afterWord_step l hi hx
  have hwords := afterWords_of_runs l hw hrun
  have hcfg : u.cfg = s.cfg := hwords.cfg.trans hedge.cfg
  have helapsed : u.gap l = ticksOf k t.inputs % 2 ^ u.cfg.tsWidth := by
    refine State.gap_eq_mod (hcfg ▸ hts) ?_
    have hnow := hwords.now
    rw [hwords.lastTs hnone, hcfg]
    rw [hedge.cfg] at hnow
    exact hnow.trans ((hedge.now_of_edge hfirst hi hd).add_right _)
  exact hgap.trans_le (helapsed.trans_le (Nat.mod_le _ _))

end Sys2Proof.Machine
end

section
/-! PROOFS. `LEVEL` and `TICK` one at a time (40_debounce_edge_detector.md): the edge, its gap as elapsed time, the two
lines, and the closed form of a tick. -/

namespace Sys2Proof.Machine

/-! ### `LEVEL` with and without an accepted edge (R121 to R127) -/

theorem exec_level_edge {s : State} {l : Line} {v : Bool} (h : s.accepts l v = true) :
    exec (.level l v) s = .next ((s.setLvl l v).takeEdge l) := by
  rw [exec_eq_effect Instr.noConfusion, effect, if_pos h]

theorem exec_level_noEdge {s : State} {l : Line} {v : Bool} (h : s.accepts l v = false) :
    exec (.level l v) s = .next (s.setLvl l v) := by
  rw [exec_eq_effect Instr.noConfusion, effect, if_neg (by simp [h])]

/-- Settles O11: a fall with such a gap is an accepted edge. -/
theorem acceptedEdgeTogglesItsLinesFlag : Obligations.AcceptedEdgeTogglesItsLinesFlag := fun s =>
  ⟨fun hlvl hgap => exec_level_edge ((s.accepts_iff .line0 false).mpr ⟨hlvl, rfl, hgap⟩),
    fun hlvl hgap => exec_level_edge ((s.accepts_iff .line1 false).mpr ⟨hlvl, rfl, hgap⟩)⟩

theorem State.accepts_of_gap_le (s : State) (l : Line) (h : s.gap l ≤ 250) (v : Bool) : s.accepts l v = false := by
  rw [← Bool.not_eq_true, State.accepts_iff]
  exact fun ⟨_, _, hgap⟩ => hgap.not_ge h

/-- Settles O12: a fall with such a gap is no accepted edge, so the level alone is written. -/
theorem rejectedEdgeOnlyLowersTheLevel : Obligations.RejectedEdgeOnlyLowersTheLevel := fun s =>
  ⟨fun _ hgap => exec_level_noEdge (s.accepts_of_gap_le .line0 hgap false),
    fun _ hgap => exec_level_noEdge (s.accepts_of_gap_le .line1 hgap false)⟩

/-- The stored level again is no fall, and writes what is there. -/
theorem exec_level_stored (s : State) (l : Line) : exec (.level l (s.chan l).lvl) s = .next s := by
  rw [exec_level_noEdge (by simp [State.accepts, State.fall])]
  cases l <;> rfl

/-- Settles O13: neither the stored level again nor a rise is a fall. -/
theorem nonEdgesNeverToggle : Obligations.NonEdgesNeverToggle := fun s =>
  ⟨exec_level_stored s .line0, exec_level_stored s .line1, fun _ => exec_level_noEdge (s.accepts_true .line0),
    fun _ => exec_level_noEdge (s.accepts_true .line1)⟩

/-! ### The elapsed time (R124, R129) -/

/-- The milliseconds since the timestamp of a line, counted across one wrap where the clock has wrapped. -/
def State.elapsed (s : State) (l : Line) : Nat :=
  if (s.chan l).lastTs.toNat ≤ s.nowMs.toNat then s.nowMs.toNat - (s.chan l).lastTs.toNat
  else s.nowMs.toNat + 2 ^ s.cfg.tsWidth - (s.chan l).lastTs.toNat

theorem State.gap_eq_elapsed {s : State} {l : Line} (hts : s.cfg.tsWidth ≤ 32)
    (hnow : s.nowMs.toNat < 2 ^ s.cfg.tsWidth) (hlast : (s.chan l).lastTs.toNat < 2 ^ s.cfg.tsWidth) :
    s.gap l = s.elapsed l := by
  have hlt : s.elapsed l < 2 ^ s.cfg.tsWidth := by
    unfold State.elapsed
    split <;> omega
  have hadd : s.nowMs.toNat ≡ (s.chan l).lastTs.toNat + s.elapsed l [MOD 2 ^ s.cfg.tsWidth] := by
    unfold State.elapsed
    split
    · rw [Nat.add_sub_of_le ‹_›]
    · rw [Nat.add_sub_of_le (by omega)]
      exact Nat.ModEq.symm (Nat.add_modEq_right)
  rw [State.gap_eq_mod hts hadd, Nat.mod_eq_of_lt hlt]

/-- Settles O14: the gap is the elapsed time, and it alone decides whether the fall is accepted. -/
theorem debounceMeasuresElapsedTimeAcrossTheWrap : Obligations.DebounceMeasuresElapsedTimeAcrossTheWrap := by
  intro l s hc hnow hlast hlvl
  obtain ⟨_, _, _, _, _, hts⟩ := (configValid_iff s.cfg).mp hc
  have hgap : s.gap l = s.elapsed l := State.gap_eq_elapsed hts (by simpa [timeFits] using hnow)
    (by simpa [timeFits] using hlast)
  refine ⟨effect (.level l false) s, exec_eq_effect Instr.noConfusion s, ?_, fun hlong => ?_, fun hshort => ?_⟩
  · rw [chan_effect_level, if_pos rfl]
  · have hacc : s.accepts l false = true := (s.accepts_iff l false).mpr ⟨hlvl, rfl, hgap ▸ hlong⟩
    simp [flag_effect_level, chan_effect_level, hacc]
  · have hacc : s.accepts l false = false := s.accepts_of_gap_le l (hgap.trans_le hshort) false
    simp [flag_effect_level, chan_effect_level, hacc]

/-! ### The two lines (R130) -/

/-- A level of one line does not move what the other line's test reads. -/
theorem accepts_effect_level {l k : Line} (hne : k ≠ l) (v v' : Bool) (s : State) :
    (effect (.level l v) s).accepts k v' = s.accepts k v' := by
  have hsame : SameLine k s (effect (.level l v) s) := by
    have hother : ¬∃ v', Instr.level l v = .level k v' := fun ⟨_, hi⟩ => hne (Instr.level.inj hi).1.symm
    obtain ⟨hchan, hflag⟩ := Prod.mk.inj (effect_line hother s)
    exact ⟨effect_cfg _ s, effect_inputs _ s, effect_nowMs (by simp) s, hchan, hflag⟩
  exact hsame.accepts v'

/-- Each line's test reads the same in either order, and the two write different fields. -/
theorem effect_level_comm (v0 v1 : Bool) (s : State) :
    effect (.level .line1 v1) (effect (.level .line0 v0) s) =
      effect (.level .line0 v0) (effect (.level .line1 v1) s) := by
  have hacc0 := accepts_effect_level (l := .line1) (k := .line0) nofun v1 v0 s
  have hacc1 := accepts_effect_level (l := .line0) (k := .line1) nofun v0 v1 s
  show (if (effect (.level .line0 v0) s).accepts .line1 v1 then _ else _) =
    (if (effect (.level .line1 v1) s).accepts .line0 v0 then _ else _)
  rw [hacc0, hacc1]
  simp only [effect]
  split <;> split <;> rfl

/-- Settles O15: the effects of the two levels commute. -/
theorem theTwoLinesCommute : Obligations.TheTwoLinesCommute := fun s v0 v1 =>
  ⟨_, rfl, congrArg Host.Outcome.next (effect_level_comm v0 v1 s).symm⟩

/-! ### `TICK` (R128) -/

theorem exec_tick (n : BitVec 16) (s : State) : exec (.tick n) s = .next (s.tickBy n.toNat) := rfl

/-- Settles O20: the three ways a tick can go for the sequencer. -/
theorem tickAdvancesTimeAndEndsTheSleep : Obligations.TickAdvancesTimeAndEndsTheSleep := by
  intro n s hc
  obtain ⟨_, _, _, _, _, hts⟩ := (configValid_iff s.cfg).mp hc
  refine ⟨s.timeAfter n.toNat, State.timeAfter_toNat s _ hts, ?_⟩
  rw [exec_tick]
  obtain ⟨hs, ht⟩ | ⟨hs, hn, ht⟩ | ⟨hs, hpos, hn, ht⟩ := s.tickBy_cases n.toNat
  · simp [hs, ht]
  · have hcnt := State.tickBy_sleepCnt_toNat hs hn
    rw [ht] at hcnt ⊢
    exact ⟨by simp [hs], fun _ _ => ⟨_, hcnt, rfl⟩, fun _ _ _ => by omega⟩
  · exact ⟨by simp [hs], fun _ hlt => absurd hlt (by omega), fun _ _ _ => by rw [ht]⟩

/-- Single ticks one after another are one stretch of as many. -/
theorem runInstrs_replicate_tick {s : State} (hts : s.cfg.tsWidth ≤ 32) (hfit : timeFits s.cfg s.nowMs = true)
    (hcnt : s.sleeping = true → 1 ≤ s.sleepCnt.toNat) (k : Nat) :
    runInstrs (List.replicate k (.tick 1)) s = .next (s.tickBy k) := by
  induction k with
  | zero => exact congrArg _ (State.tickBy_zero hts hfit).symm
  | succ k ih =>
    rw [List.replicate_succ', runInstrs_append, ih, andThen_next]
    exact congrArg _ (State.tickBy_tickBy hts hcnt k 1)

/-- Settles O21: stretches of ticks add up, from the empty one on, which is a hold. -/
theorem tickIsThatManySingleTicks : Obligations.TickIsThatManySingleTicks := by
  refine ⟨fun n s hc hfit hcnt => ?_, fun s hc hfit => ?_⟩
  all_goals obtain ⟨_, _, _, _, _, hts⟩ := (configValid_iff s.cfg).mp hc
  · exact runInstrs_replicate_tick hts hfit hcnt n.toNat
  · exact congrArg _ (State.tickBy_zero hts hfit)

end Sys2Proof.Machine
end

section
/-! PROOFS. The deadzone axis mapper (41_deadzone_axis_mapper.md): the shape of `mapAxis` from its closed form, what
`DUTY` writes with the LEDs on and off, and the values of `COORD` with the samples that give them. -/

namespace Sys2Proof.Machine

/-! ### `mapAxis` by its branches (R161, R162) -/

theorem dutyByRule_low {c : Config} {r : Nat} (h : r < c.center - c.deadzone) :
    dutyByRule c r = c.wrap - r * c.wrap / (c.center - c.deadzone) := if_pos h

theorem dutyByRule_dead {c : Config} {r : Nat} (hlo : c.center - c.deadzone ≤ r) (hhi : r ≤ c.center + c.deadzone) :
    dutyByRule c r = 0 := by
  rw [dutyByRule, if_neg hlo.not_gt, if_neg hhi.not_gt]

theorem dutyByRule_high {c : Config} {r : Nat} (h : c.center + c.deadzone < r) :
    dutyByRule c r = (r - (c.center + c.deadzone)) * c.wrap / (4095 - (c.center + c.deadzone)) := by
  rw [dutyByRule, if_neg (by omega), if_pos h]

/-- Toward the deadzone from below the duty does not increase. -/
theorem dutyByRule_antitone_low {c : Config} {r r' : Nat} (hrr : r ≤ r') (h : r' < c.center - c.deadzone) :
    dutyByRule c r' ≤ dutyByRule c r := by
  rw [dutyByRule_low h, dutyByRule_low (hrr.trans_lt h)]
  exact Nat.sub_le_sub_left (Nat.div_le_div_right (Nat.mul_le_mul_right _ hrr)) _

/-- Away from the deadzone above it the duty does not decrease. -/
theorem dutyByRule_monotone_high {c : Config} {r r' : Nat} (h : c.center + c.deadzone < r) (hrr : r ≤ r') :
    dutyByRule c r ≤ dutyByRule c r' := by
  rw [dutyByRule_high h, dutyByRule_high (h.trans_le hrr)]
  exact Nat.div_le_div_right (Nat.mul_le_mul_right _ (Nat.sub_le_sub_right hrr _))

theorem dutyByRule_zero {c : Config} (h : c.deadzone < c.center) : dutyByRule c 0 = c.wrap := by
  rw [dutyByRule_low (Nat.sub_pos_of_lt h), Nat.zero_mul, Nat.zero_div, Nat.sub_zero]

theorem dutyByRule_adcMax {c : Config} (h : c.center + c.deadzone < 4095) : dutyByRule c 4095 = c.wrap := by
  rw [dutyByRule_high h, Nat.mul_div_cancel_left _ (Nat.sub_pos_of_lt h)]

/-- One part short of the whole: what the division by `n` leaves of `w` is `w / n` rounded up. -/
theorem sub_pred_mul_div {n w : Nat} (hn : 0 < n) (hw : 1 ≤ w) : w - (n - 1) * w / n = (w + n - 1) / n := by
  have hwn : w ≤ n * w := Nat.le_mul_of_pos_left w hn
  have hpred : (n - 1) * w = n * w - (w - 1 + 1) := by rw [Nat.sub_mul, Nat.one_mul, Nat.sub_add_cancel hw]
  have hquot : (w - 1) / n + 1 ≤ w := (Nat.succ_le_succ (Nat.div_le_self _ _)).trans_eq (Nat.sub_add_cancel hw)
  have hceil : (w + n - 1) / n = (w - 1) / n + 1 := by
    rw [← Nat.add_div_right _ hn]
    congr 1
    omega
  rw [hpred, Nat.mul_sub_div _ _ _ (by omega), hceil, Nat.sub_sub_self hquot]

/-- The last sample below the deadzone: the low side rounds up. -/
theorem dutyByRule_last_low {c : Config} (h : c.deadzone < c.center) (hw : 1 ≤ c.wrap) :
    dutyByRule c (c.center - c.deadzone - 1) =
      (c.wrap + (c.center - c.deadzone) - 1) / (c.center - c.deadzone) := by
  rw [dutyByRule_low (by omega), sub_pred_mul_div (Nat.sub_pos_of_lt h) hw]

/-- The first sample above the deadzone: the high side rounds down. -/
theorem dutyByRule_first_high (c : Config) :
    dutyByRule c (c.center + c.deadzone + 1) = c.wrap / (4095 - (c.center + c.deadzone)) := by
  rw [dutyByRule_high (Nat.lt_add_one _), Nat.add_sub_cancel_left, Nat.one_mul]

theorem mapAxis_of_byRule {c : Config} (hc : configValid c = true) {r d : Nat} (h : dutyByRule c r = d) :
    mapAxis c (r : Int) = (d : Int) := h ▸ mapAxis_eq hc r

theorem mapAxis_le_of_byRule {c : Config} (hc : configValid c = true) {r r' : Nat}
    (h : dutyByRule c r ≤ dutyByRule c r') : mapAxis c (r : Int) ≤ mapAxis c (r' : Int) := by
  rw [mapAxis_eq hc, mapAxis_eq hc]
  exact Int.ofNat_le.mpr h

/-- Settles O33: `mapAxis` is `dutyByRule`, whose branches have each of R162's properties. -/
theorem mapAxisProperties : Obligations.MapAxisProperties := by
  intro c hc lo hi
  obtain ⟨_, hlo, hhi, _⟩ := (configValid_iff c).mp hc
  have hfirst := mapAxis_of_byRule hc (dutyByRule_first_high c)
  refine ⟨fun r hr => ?range, fun r hr hr' => ?dead, fun r r' hrr hr' => ?low, fun r r' hr hrr _ => ?high,
    ⟨?atZero, ?atMax⟩, fun hw => ?lastLow, hfirst, fun hw => ?firstZero, fun hw hlo' => ?rounding⟩
  case range =>
    rw [mapAxis_eq hc]
    exact ⟨Int.natCast_nonneg _, Int.ofNat_le.mpr (dutyByRule_le hr)⟩
  case dead => exact mapAxis_of_byRule hc (dutyByRule_dead hr hr')
  case low => exact mapAxis_le_of_byRule hc (dutyByRule_antitone_low hrr (show r' < lo by omega))
  case high => exact mapAxis_le_of_byRule hc (dutyByRule_monotone_high hr hrr)
  case atZero => exact mapAxis_of_byRule hc (dutyByRule_zero hlo)
  case atMax => exact mapAxis_of_byRule hc (dutyByRule_adcMax hhi)
  case lastLow =>
    have hpos : 0 < lo := Nat.sub_pos_of_lt hlo
    have hlast := mapAxis_of_byRule hc (dutyByRule_last_low hlo hw)
    exact ⟨hlast, hlast ▸ Int.ofNat_le.mpr (Nat.div_pos (by omega) hpos)⟩
  case firstZero => exact hfirst.trans (congrArg Nat.cast (Nat.div_eq_of_lt hw))
  case rounding =>
    have hduty : dutyByRule c 1 = 4093 := by
      rw [dutyByRule_low (show 1 < lo by omega), show c.center - c.deadzone = 1848 from hlo', hw]
    exact mapAxis_of_byRule hc hduty

/-! ### `DUTY` (R168) -/

theorem exec_duty_enabled {s : State} (h : s.ledsEnabled = true) :
    exec .duty s = .next { s with dutyNext0 := dutyOf s.cfg s.smpX, dutyNext1 := dutyOf s.cfg s.smpY } := if_pos h

/-- Settles O31: with the LEDs enabled both registers take `dutyOf`, which loses no width. -/
theorem enabledDutyFollowsTheDeadzoneRule : Obligations.EnabledDutyFollowsTheDeadzoneRule := fun _ hc hl =>
  ⟨_, _, exec_duty_enabled hl, dutyOf_toNat hc _, dutyOf_toNat hc _⟩

/-- Settles O32: the other branch of `DUTY`. -/
theorem disabledDutyIsZero : Obligations.DisabledDutyIsZero := fun _ hl => if_neg (Bool.eq_false_iff.mp hl)

/-! ### `COORD` (R163 to R166, R169) -/

/-- Settles O34: the registers hold the closed forms without loss. -/
theorem coordMapsAndOverrides : Obligations.CoordMapsAndOverrides := fun s =>
  ⟨_, _, rfl, column_toNat s.smpX, row_toNat s.smpY⟩

/-- The mapped column, and the two values that R165 overrides. -/
theorem columnByRule_cases (r : Nat) :
    (119 * r / 4095 = 118 ∧ columnByRule r = 116) ∨ (119 * r / 4095 = 0 ∧ columnByRule r = 4) ∨
      (119 * r / 4095 ≠ 118 ∧ 119 * r / 4095 ≠ 0 ∧ columnByRule r = 119 * r / 4095) := by
  unfold columnByRule
  split_ifs <;> simp [*]

/-- The mapped row, and the two values that R165 overrides. -/
theorem rowByRule_cases (r : Nat) :
    (55 - 55 * r / 4095 = 55 ∧ rowByRule r = 52) ∨ (55 - 55 * r / 4095 = 1 ∧ rowByRule r = 4) ∨
      (55 - 55 * r / 4095 ≠ 55 ∧ 55 - 55 * r / 4095 ≠ 1 ∧ rowByRule r = 55 - 55 * r / 4095) := by
  unfold rowByRule
  split_ifs <;> simp [*]

/-- The columns of R166 and the samples that give the listed ones. -/
theorem columnByRule_ranges {r : Nat} (hr : r ≤ 4095) :
    ((1 ≤ columnByRule r ∧ columnByRule r ≤ 117) ∨ columnByRule r = 119) ∧
    (columnByRule r = 4 ↔ r ≤ 34 ∨ (138 ≤ r ∧ r ≤ 172)) ∧
    (columnByRule r = 116 ↔ (3992 ≤ r ∧ r ≤ 4026) ∨ (4061 ≤ r ∧ r ≤ 4094)) ∧
    (columnByRule r = 119 ↔ r = 4095) ∧
    ((1 ≤ columnByRule r ∧ columnByRule r ≤ 3) ↔ (35 ≤ r ∧ r ≤ 137)) ∧
    (columnByRule r = 117 ↔ (4027 ≤ r ∧ r ≤ 4060)) := by
  have hcases := columnByRule_cases r
  refine ⟨?_, ?_, ?_, ?_, ?_, ?_⟩ <;> omega

/-- The rows of R166 and the samples that give the listed ones. -/
theorem rowByRule_ranges {r : Nat} (hr : r ≤ 4095) :
    (rowByRule r = 0 ∨ (2 ≤ rowByRule r ∧ rowByRule r ≤ 54)) ∧
    (rowByRule r = 52 ↔ r ≤ 74 ∨ (224 ≤ r ∧ r ≤ 297)) ∧
    (rowByRule r = 4 ↔ (3798 ≤ r ∧ r ≤ 3871) ∨ (4021 ≤ r ∧ r ≤ 4094)) ∧
    (rowByRule r = 0 ↔ r = 4095) ∧
    ((rowByRule r = 2 ∨ rowByRule r = 3) ↔ (3872 ≤ r ∧ r ≤ 4020)) ∧
    ((rowByRule r = 53 ∨ rowByRule r = 54) ↔ (75 ≤ r ∧ r ≤ 223)) := by
  have hcases := rowByRule_cases r
  refine ⟨?_, ?_, ?_, ?_, ?_, ?_⟩ <;> omega

/-- The least sample that `mapX` sends to `v` is the quotient `4095 v / 119` rounded up. -/
theorem columnByRule_leastSample {v : Nat} (hv : (1 ≤ v ∧ v ≤ 117) ∨ v = 119) :
    columnByRule ((4095 * v + 118) / 119) = v := by
  have hcases := columnByRule_cases ((4095 * v + 118) / 119)
  omega

/-- The least sample that `mapY` sends to `v` is the quotient `4095 (55 - v) / 55` rounded up. -/
theorem rowByRule_leastSample {v : Nat} (hv : v = 0 ∨ (2 ≤ v ∧ v ≤ 54)) :
    rowByRule ((4095 * (55 - v) + 54) / 55) = v := by
  have hcases := rowByRule_cases ((4095 * (55 - v) + 54) / 55)
  omega

/-- A number up to 4095 is the value of a sample. -/
theorem toNat_sample {r : Nat} (hr : r ≤ 4095) : (BitVec.ofNat 12 r : Sample).toNat = r :=
  (BitVec.toNat_ofNat r 12).trans (Nat.mod_eq_of_lt (Nat.lt_succ_of_le hr))

/-- Settles O35: the closed forms' ranges, and for each value the least sample that is mapped to it. -/
theorem coordWritesExactlyTheReachableValues : Obligations.CoordWritesExactlyTheReachableValues := by
  refine ⟨fun s => ?_, fun s v hv => ?_, fun s v hv => ?_⟩
  · obtain ⟨hx, hx4, hx116, hx119, hx13, hx117⟩ := columnByRule_ranges (Nat.le_of_lt_succ s.smpX.isLt)
    have hrow := rowByRule_ranges (Nat.le_of_lt_succ s.smpY.isLt)
    refine ⟨_, _, rfl, ?_⟩
    rw [column_toNat, row_toNat]
    exact ⟨hx, hx4, hx116, hx119, hx13, hx117, hrow⟩
  · refine ⟨BitVec.ofNat 12 ((4095 * v + 118) / 119), _, rfl, (column_toNat _).trans ?_⟩
    rw [toNat_sample (by omega), columnByRule_leastSample hv]
  · refine ⟨BitVec.ofNat 12 ((4095 * (55 - v) + 54) / 55), _, rfl, (row_toNat _).trans ?_⟩
    rw [toNat_sample (by omega), rowByRule_leastSample hv]

end Sys2Proof.Machine
end

section
/-! PROOFS. The PWM duty driver (42_pwm_duty_driver.md): what `APPLY` writes (R201). -/

namespace Sys2Proof.Machine

/-- Settles O36: `APPLY` is no `STEP`, so it completes with its effect, the copy of both duties. -/
theorem applyCopiesBothDuties : Obligations.ApplyCopiesBothDuties := exec_eq_effect Instr.noConfusion

end Sys2Proof.Machine
end

section
/-! PROOFS. The framebuffer compositor (43_framebuffer_compositor.md): the pictures its micro-ops draw (R221 to R229), the
frame a flush emits (R234), and that every emitted frame is whole (R233, R235). -/

namespace Sys2Proof.Machine

/-! ### The pictures of the micro-ops (R221, R225, R229) -/

theorem shows_clear (m : Memory) : Shows m.clear fun _ _ => false := fun x y _ _ => Memory.pix_clear m x y

/-- Drawing the border's list of pixels adds the border to the picture. -/
theorem shows_setBorder {m : Memory} {picture : Nat → Nat → Bool} (hm : m.wf = true) (hp : Shows m picture)
    (visible : Bool) :
    Shows (m.setPixels (borderPixels visible)) fun x y => picture x y || borderLit visible x y := fun x y hx hy => by
  rw [Memory.pix_setPixels x y hx hy _ hm, mem_borderPixels hx hy, hp x y hx hy]

/-- Drawing the cursor's list of pixels adds the cursor block to the picture. -/
theorem shows_setCursor {m : Memory} {picture : Nat → Nat → Bool} (hm : m.wf = true) (hp : Shows m picture)
    (cx cy : Nat) :
    Shows (m.setPixels (fillBlock cx cy cursorSize)) fun x y => picture x y || cursorLit cx cy x y := fun x y hx hy => by
  rw [Memory.pix_setPixels x y hx hy _ hm, mem_cursorPixels, hp x y hx hy]

/-- On an all-off frame the border is the whole picture. -/
theorem shows_border_of_off {m : Memory} (hm : m.wf = true) (hoff : Shows m fun _ _ => false) (visible : Bool) :
    Shows (m.setPixels (borderPixels visible)) (borderLit visible) :=
  shows_setBorder hm hoff visible

/-- A memory shows its own pixels. -/
theorem shows_pix (m : Memory) : Shows m m.pix := fun _ _ _ _ => rfl

/-- Settles O37: the one memory of the canonical form with every pixel off lists nothing. -/
theorem clearForgetsTheFrame : Obligations.ClearForgetsTheFrame :=
  ⟨[], rfl, shows_clear [], exec_eq_effect Instr.noConfusion⟩

/-- Settles O38: the border that `border_visible` selects is added to the framebuffer's own pixels. -/
theorem borderSetsItsPixelsAndClearsNone : Obligations.BorderSetsItsPixelsAndClearsNone := fun s hm =>
  ⟨s.fb.setPixels (borderPixels s.borderVisible), Memory.wf_setPixels _ hm, exec_eq_effect Instr.noConfusion s,
    shows_setBorder hm (shows_pix s.fb) s.borderVisible⟩

/-- Settles O40: the block at the cursor is added to the framebuffer's own pixels. -/
theorem cursorSetsItsBlock : Obligations.CursorSetsItsBlock := fun s hm =>
  ⟨s.fb.setPixels (fillBlock s.curX.toNat s.curY.toNat cursorSize), Memory.wf_setPixels _ hm,
    exec_eq_effect Instr.noConfusion s, shows_setCursor hm (shows_pix s.fb) s.curX.toNat s.curY.toNat⟩

/-- Settles O41: the emitted bytes are the framebuffer's, in the layout of R61. -/
theorem flushEmitsTheWholeFrame : Obligations.FlushEmitsTheWholeFrame := fun s =>
  ⟨s.fb.frameBytes, exec_eq_effect Instr.noConfusion s, Memory.length_frameBytes s.fb,
    fun _ hb => Memory.getD_frameBytes s.fb hb 0, fun _ _ hx hy => getLsbD_frameBytes s.fb hx hy⟩

/-! ### Lit pixels, counted row by row (R228) -/

/-- The lit pixels of a memory that shows a picture, row by row. -/
theorem litIn_of_shows {m : Memory} {picture : Nat → Nat → Bool} (hp : Shows m picture) {xs ys : List Nat}
    (hx : ∀ x ∈ xs, x ≤ 127) (hy : ∀ y ∈ ys, y ≤ 63) :
    litIn m xs ys = (ys.map fun y => xs.countP fun x => picture x y).sum := by
  rw [litIn, ← List.countP_eq_length_filter, List.countP_flatMap]
  congr 1
  refine List.map_congr_left fun y hys => ?_
  rw [Function.comp_apply, List.countP_map]
  exact List.countP_congr fun x hxs => by rw [Function.comp_apply, hp x y (hx x hxs) (hy y hys)]

/-- Whether a border lights the two ends of row `y`: the segmented one leaves the middle rows dark (R227). -/
def borderEnds (visible : Bool) (y : Nat) : Bool := !visible || (y ≤ 13 || 50 ≤ y)

/-- How many pixels of row `y` a border lights. -/
def borderRowCount (visible : Bool) (y : Nat) : Nat :=
  if y = 0 ∨ y = 63 then (if visible then 72 else 128)
  else if borderEnds visible y then 2
  else 0

/-- Between the top and the bottom row a border lights the ends of a row at most. -/
theorem borderLit_inner_row {visible : Bool} {y : Nat} (hy : ¬(y = 0 ∨ y = 63)) (x : Nat) :
    borderLit visible x y = ((x == 0 || x == 127) && borderEnds visible y) := by
  obtain ⟨h0, h63⟩ := not_or.mp hy
  cases visible <;> simp [borderLit, borderEnds, beq_false_of_ne h0, beq_false_of_ne h63]

/-- The top and the bottom row hold the border's horizontal lines, the rows between its two ends or nothing. -/
theorem countP_borderLit (visible : Bool) (y : Nat) :
    ((List.range 128).countP fun x => borderLit visible x y) = borderRowCount visible y := by
  unfold borderRowCount
  split_ifs with hedge hv hends
  · subst hv
    obtain rfl | rfl := hedge <;> decide
  · obtain rfl : visible = false := by simpa using hv
    obtain rfl | rfl := hedge <;> exact (List.countP_eq_length.mpr fun _ _ => rfl).trans List.length_range
  · simp only [borderLit_inner_row hedge, hends, Bool.and_true]
    decide
  · simp only [borderLit_inner_row hedge, hends, Bool.and_false]
    exact congrFun List.countP_false _

theorem litIn_border {m : Memory} {visible : Bool} (hp : Shows m (borderLit visible)) {ys : List Nat}
    (hy : ∀ y ∈ ys, y ≤ 63) : litIn m (List.range 128) ys = (ys.map (borderRowCount visible)).sum := by
  rw [litIn_of_shows hp (fun x hx => Nat.le_of_lt_succ (List.mem_range.mp hx)) hy]
  simp only [countP_borderLit]

/-- Settles O39: the rows of the two borders are counted, and frames with different counts differ. -/
theorem borderPixelCounts : Obligations.BorderPixelCounts := by
  intro s hm hoff
  have hplain := shows_border_of_off hm hoff false
  have hseg := shows_border_of_off hm hoff true
  have hrows : ∀ y ∈ List.range 64, y ≤ 63 := fun y hy => Nat.le_of_lt_succ (List.mem_range.mp hy)
  have hinner : ∀ y ∈ List.range' 1 62, y ≤ 63 := fun y hy => by
    rw [List.mem_range'_1] at hy
    omega
  have hcount0 : litIn (s.fb.setPixels (borderPixels false)) (List.range 128) (List.range 64) = 380 :=
    (litIn_border hplain hrows).trans (by decide)
  have hcount1 : litIn (s.fb.setPixels (borderPixels true)) (List.range 128) (List.range 64) = 196 :=
    (litIn_border hseg hrows).trans (by decide)
  refine ⟨s.fb.setPixels (borderPixels false), s.fb.setPixels (borderPixels true), exec_eq_effect Instr.noConfusion _,
    exec_eq_effect Instr.noConfusion _, hcount0, hcount1, (litIn_border hseg (by simp)).trans (by decide),
    (litIn_border hseg (by simp)).trans (by decide), (litIn_of_shows hseg (by simp) hinner).trans (by decide),
    (litIn_of_shows hseg (by simp) hinner).trans (by decide), fun heq => ?_⟩
  rw [heq, hcount1] at hcount0
  exact absurd hcount0 (by decide)

/-! ### The invariant of the frame, by where the sequencer is (R220, R233) -/

/-- Every frame of a record is whole (R235). -/
def OnlyWholeFrames (out : List Event) : Prop := ∀ bytes, Event.frame bytes ∈ out → WholeFrame bytes

/-- A flush of a border with the cursor block over it emits a whole frame (R61). -/
theorem wholeFrame_frameBytes {m : Memory} {visible : Bool} {cx cy : Nat} (hcur : cursorReachable cx cy = true)
    (hp : Shows m fun x y => borderLit visible x y || cursorLit cx cy x y) : WholeFrame m.frameBytes :=
  ⟨Memory.length_frameBytes m, visible, cx, cy, hcur, fun x y hx hy => (getLsbD_frameBytes m hx hy).trans (hp x y hx hy)⟩

/-- Until `FB_CLEAR` the framebuffer may hold anything. -/
theorem frameInv_before_clear {s : State} (hu : s.upc.toNat ≤ 3) (he : OnlyWholeFrames s.out) : FrameInv s where
  cleared h := by simp [h] at hu
  bordered h := by simp [h] at hu
  composed h := by omega
  emitted := he

theorem frameInv_cleared {s : State} (hu : s.upc = 4) (hp : Shows s.fb fun _ _ => false)
    (he : OnlyWholeFrames s.out) : FrameInv s where
  cleared _ := hp
  bordered h := by simp [hu] at h
  composed h := by simp [hu] at h
  emitted := he

theorem frameInv_bordered {s : State} {visible : Bool} (hu : s.upc = 5) (hp : Shows s.fb (borderLit visible))
    (he : OnlyWholeFrames s.out) : FrameInv s where
  cleared h := by simp [hu] at h
  bordered _ := ⟨visible, hp⟩
  composed h := by simp [hu] at h
  emitted := he

theorem frameInv_composed {s : State} {visible : Bool} (hu : 6 ≤ s.upc.toNat)
    (hp : Shows s.fb fun x y => borderLit visible x y || cursorLit s.curX.toNat s.curY.toNat x y)
    (he : OnlyWholeFrames s.out) : FrameInv s where
  cleared h := by simp [h] at hu
  bordered h := by simp [h] at hu
  composed _ := ⟨visible, hp⟩
  emitted := he

/-! ### The invariant of the frame through each instruction -/

/-- `FB_FLUSH` alone appends a frame. -/
theorem onlyWholeFrames_effect {i : Instr} {s : State} (hi : i ≠ .fbFlush) (he : OnlyWholeFrames s.out) :
    OnlyWholeFrames (effect i s).out := by
  by_cases hw : i = .fbFlush ∨ i = .diag ∨ ∃ a, i = .read a
  · obtain rfl | rfl | ⟨a, rfl⟩ := hw
    · exact absurd rfl hi
    · simp only [effect]
      split
      · exact fun bytes hb => he bytes (by simpa using hb)
      · exact he
    · exact fun bytes hb => he bytes (by simpa [effect] using hb)
  · rwa [effect_out hw]

/-- An instruction that is none of the compositor's and not `COORD` leaves the picture alone, and the sequencer where it
is or wakes it at 0. -/
theorem frameInv_effect {i : Instr} {s : State} (h : FrameInv s)
    (hfb : ¬(i = .fbClear ∨ i = .fbBorder ∨ i = .fbCursor)) (hflush : i ≠ .fbFlush) (hcoord : i ≠ .coord) :
    FrameInv (effect i s) := by
  have he := onlyWholeFrames_effect hflush h.emitted
  obtain hu | hu := effect_upc_cases i s
  · obtain ⟨hx, hy⟩ := Prod.mk.inj (effect_cursor hcoord s)
    have hm := effect_fb hfb s
    exact {
      cleared := by rw [hu, hm]; exact h.cleared
      bordered := by rw [hu, hm]; exact h.bordered
      composed := by rw [hu, hm, hx, hy]; exact h.composed
      emitted := he }
  · exact frameInv_before_clear (by simp [hu]) he

/-- A transaction other than `STEP` keeps the invariant of the frame. -/
theorem frameInv_exec_transaction {i : Instr} {s t : State} (htr : i.isTransaction = true) (hi : i ≠ .step)
    (h : FrameInv s) (hx : exec i s = .next t) : FrameInv t := by
  rw [exec_eq_effect hi] at hx
  cases hx
  refine frameInv_effect h ?_ (fun hf => ?_) (fun hc => ?_)
  · rintro (rfl | rfl | rfl) <;> cases htr
  · subst hf
    cases htr
  · subst hc
    cases htr

/-- A `FB_FLUSH` of the composed frame emits a whole one, at a place that `COORD` has written. -/
theorem onlyWholeFrames_flush {s : State} (hblock : BlockInv s) (h : FrameInv s) (hu : 6 ≤ s.upc.toNat) :
    OnlyWholeFrames (effect .fbFlush s).out := by
  intro bytes hb
  rw [effect, State.emit_out, List.mem_append, List.mem_singleton] at hb
  obtain hold | hnew := hb
  · exact h.emitted bytes hold
  · obtain ⟨_, hp⟩ := h.composed hu
    rw [Event.frame.inj hnew]
    exact wholeFrame_frameBytes (hblock.cursorSet (by omega)) hp

/-- Each micro-op before `SLEEP` finds the picture of its place in the iteration, and leaves the one of the next
place. -/
theorem frameInv_performed {code : BitVec 4} {j : Instr} {s : State} (hblock : BlockInv s) (h : FrameInv s)
    (hu : s.upc = code) (hj : decodeUop code = .ok j) (hne : code ≠ 9) : FrameInv (performed code j s) := by
  have he (hflush : j ≠ .fbFlush) : OnlyWholeFrames (performed code j s).out :=
    onlyWholeFrames_effect hflush h.emitted
  obtain ⟨rfl, rfl⟩ | ⟨rfl, rfl⟩ | ⟨rfl, rfl⟩ | ⟨rfl, rfl⟩ | ⟨rfl, rfl⟩ | ⟨rfl, rfl⟩ | ⟨rfl, rfl⟩ | ⟨rfl, rfl⟩ |
    ⟨rfl, rfl⟩ | ⟨rfl, _⟩ := decodeUop_eq_ok hj
  · exact frameInv_before_clear (by simp [performed]) (he Instr.noConfusion)
  · exact frameInv_before_clear (by simp [performed]) (he Instr.noConfusion)
  · exact frameInv_before_clear (by simp [performed]) (he Instr.noConfusion)
  · exact frameInv_cleared rfl (shows_clear s.fb) (he Instr.noConfusion)
  · exact frameInv_bordered rfl (shows_border_of_off hblock.fbForm (h.cleared hu) s.borderVisible)
      (he Instr.noConfusion)
  · obtain ⟨_, hp⟩ := h.bordered hu
    exact frameInv_composed (by simp [performed])
      (shows_setCursor hblock.fbForm hp s.curX.toNat s.curY.toNat) (he Instr.noConfusion)
  · have h6 : 6 ≤ s.upc.toNat := by simp [hu]
    obtain ⟨_, hp⟩ := h.composed h6
    exact frameInv_composed (by simp [performed]) hp (onlyWholeFrames_flush hblock h h6)
  · obtain ⟨_, hp⟩ := h.composed (by simp [hu])
    exact frameInv_composed (by simp [performed]) hp (he Instr.noConfusion)
  · obtain ⟨_, hp⟩ := h.composed (by simp [hu])
    exact frameInv_composed (by simp [performed]) hp (he Instr.noConfusion)
  · exact absurd rfl hne

/-- A micro-op and the advance: `SLEEP` stays where it is, the others go on. -/
theorem frameInv_microOp {s : State} {j : Instr} (hblock : BlockInv s) (h : FrameInv s)
    (hj : decodeUop s.upc = .ok j) : FrameInv ((effect j s).advanceUpc s.upc) := by
  by_cases hu : s.upc = 9
  · obtain rfl : Instr.sleep = j := Except.ok.inj (hu ▸ hj)
    rw [State.advanceUpc, if_pos hu]
    exact frameInv_effect h (by simp) Instr.noConfusion Instr.noConfusion
  · have hupc := (effect_microOp_sequencer hj hu).1
    have hnext : (effect j s).advanceUpc s.upc = performed s.upc j s := by
      rw [State.advanceUpc, if_neg hu, hupc]
      rfl
    rw [hnext]
    exact frameInv_performed hblock h rfl hj hu

theorem frameInv_exec_step {s t : State} (hblock : BlockInv s) (h : FrameInv s) (hx : exec .step s = .next t) :
    FrameInv t := by
  obtain ⟨hi, _⟩ | ⟨_, _, rfl⟩ | ⟨_, _, _, j, _, hj, rfl⟩ := exec_cases hx
  · exact absurd rfl hi
  · exact h
  · exact frameInv_microOp hblock h hj

/-! ### The invariant of the frame through every step (R235) -/

/-- The two invariants together: a micro-op keeps the frame's where the block's holds. -/
structure FullInv (s : State) : Prop where
  block : BlockInv s
  frame : FrameInv s

theorem fullInv_exec_transaction {i : Instr} {s t : State} (htr : i.isTransaction = true) (hi : i ≠ .step)
    (h : FullInv s) (hx : exec i s = .next t) : FullInv t :=
  ⟨blockInv_exec_transaction htr hi h.block hx, frameInv_exec_transaction htr hi h.frame hx⟩

theorem fullInv_exec_step {s t : State} (h : FullInv s) (hn : s.inProgress = none) (hx : exec .step s = .next t) :
    FullInv t :=
  ⟨blockInv_exec_step h.block hn hx, frameInv_exec_step h.block h.frame hx⟩

/-- The last clock of a micro-op is its `STEP`, with flags that decide only which border is drawn. -/
theorem fullInv_complete {m : MicroOp} {s t : State} (h : FullInv s) (hx : completeMicroOp m s = .next t) :
    FullInv t := by
  refine ⟨blockInv_complete h.block hx, ?_⟩
  obtain ⟨u, hu, rfl⟩ := completeMicroOp_cases hx
  have hidle : BlockInv { s with inProgress := none, ledsEnabled := m.leds, borderVisible := m.border } :=
    { h.block with busy := nofun }
  exact { frameInv_exec_step hidle { h.frame with } hu with }

/-- Settles O50, by the parts of a step, as the invariant of R42 goes through them. -/
theorem stepEmitsOnlyWholeFrames : Obligations.StepEmitsOnlyWholeFrames := fun _ _ hblock hframe hx =>
  FullInv.frame <| step_keeps (P := FullInv)
    (hlevel := fun _ _ _ _ => fullInv_exec_transaction rfl Instr.noConfusion)
    (htick := fun _ _ _ => fullInv_exec_transaction rfl Instr.noConfusion)
    (hadc := fun _ _ _ _ => fullInv_exec_transaction rfl Instr.noConfusion)
    (hstep := fun _ _ => fullInv_exec_step)
    (hread := fun _ _ _ => fullInv_exec_transaction rfl Instr.noConfusion)
    (hbegin := fun _ n h _ hs hlt => ⟨blockInv_begin h.block n hs hlt, { h.frame with }⟩)
    (hgoOn := fun _ _ h hm hlt => ⟨blockInv_goOn h.block hm hlt, { h.frame with }⟩)
    (hcomplete := fun _ _ _ h _ hx => ⟨fullInv_complete h hx, (completeMicroOp_model_fields hx).1⟩)
    (hmark := fun _ _ h => ⟨{ h.block with }, { h.frame with }⟩)
    (hreset := fun _ h => ⟨blockInv_doReset h.block, frameInv_before_clear (Nat.zero_le 3) h.frame.emitted⟩)
    (hshift := fun _ _ _ h => ⟨{ h.block with }, { h.frame with }⟩)
    (hwaiting := fun _ _ h => ⟨{ h.block with }, { h.frame with }⟩)
    (hinputs := fun _ _ h => ⟨{ h.block with }, { h.frame with }⟩) ⟨hblock, hframe⟩ hx

end Sys2Proof.Machine
end

section
/-! PROOFS. The cycle sequencer (44_cycle_sequencer.md): what `STEP` performs and where it leaves `upc` (R261, R262), how
a sleep holds and ends (R265, R266), and `ADC`, `SAMPLE` and `DIAG` with its record on the port (R263, R264, R270). -/

namespace Sys2Proof.Machine

/-! ### The advance of `upc` (R261, R262) -/

theorem State.advanceUpc_eq (s : State) (code : BitVec 4) :
    s.advanceUpc code = { s with upc := if code = 9 then s.upc else s.upc + 1 } := by
  unfold State.advanceUpc
  split <;> rfl

/-- No micro-op moves `upc` by itself: that is the advance. -/
theorem effect_microOp_upc {code : BitVec 4} {j : Instr} (hj : decodeUop code = .ok j) (s : State) :
    (effect j s).upc = s.upc := by
  refine effect_upc ?_ s
  rintro ⟨n, rfl⟩
  exact nomatch encode_of_decodeUop hj

theorem microOp_advance_upc {s : State} {j : Instr} (hj : decodeUop s.upc = .ok j) :
    ((effect j s).advanceUpc s.upc).upc = if s.upc = 9 then s.upc else s.upc + 1 := by
  rw [State.advanceUpc_upc, effect_microOp_upc hj]

/-- Where an awake `STEP` leaves `upc`. -/
theorem exec_step_upc {s : State} (hs : s.sleeping = false) (hu : s.upc.toNat ≤ 9) :
    ∃ t, exec .step s = .next t ∧ t.upc = if s.upc = 9 then s.upc else s.upc + 1 := by
  obtain ⟨j, hj⟩ := decodeUop_of_le s.upc hu
  exact ⟨_, exec_step_awake hs hu hj, microOp_advance_upc hj⟩

/-- A tick that changes `upc` ends a sleep, at 0 (R128). -/
theorem State.tickBy_wakes {s : State} {n : Nat} (hne : (s.tickBy n).upc ≠ s.upc) :
    s.sleeping = true ∧ s.sleepCnt.toNat ≤ n ∧ (s.tickBy n).sleeping = false ∧ (s.tickBy n).upc = 0 := by
  obtain ⟨_, ht⟩ | ⟨_, _, ht⟩ | ⟨hs, _, hn, ht⟩ := s.tickBy_cases n
  · rw [ht] at hne
    exact absurd rfl hne
  · rw [ht] at hne
    exact absurd rfl hne
  · rw [ht]
    exact ⟨hs, hn, rfl, rfl⟩

/-- Settles O22: the ROM is the identity on its codes, and the advance follows the micro-op's effect. -/
theorem stepPerformsTheMicroOpAtUpc : Obligations.StepPerformsTheMicroOpAtUpc := by
  intro s hs hu
  obtain ⟨j, hj⟩ := decodeUop_of_le s.upc hu
  have hrom : rom s.upc = some s.upc := by rw [rom_eq, if_pos hu]
  refine ⟨s.upc, j, effect j s, hrom, hj, exec_eq_effect (ne_step_of_decodeUop hj) s, ?_⟩
  rw [exec_step_awake hs hu hj, State.advanceUpc_eq]

/-- Settles O23: an instruction other than `STEP` and `TICK` leaves `upc`, a `STEP` advances it unless it is 9, and a
`TICK` writes it where it ends a sleep. -/
theorem upcIsWrittenOnlyByStepAndTheWakeUp : Obligations.UpcIsWrittenOnlyByStepAndTheWakeUp := by
  refine ⟨fun s hs hu => ?_, fun s hs hu => ?_, fun i s t hx hne => ?_⟩
  · obtain ⟨t, hx, ht⟩ := exec_step_upc hs (by omega)
    rw [if_neg (by bv_omega)] at ht
    exact ⟨t, hx, by bv_omega⟩
  · obtain ⟨t, hx, ht⟩ := exec_step_upc hs (by simp [hu])
    rw [if_pos hu] at ht
    exact ⟨t, hx, ht.trans hu⟩
  · obtain ⟨_, rfl⟩ | ⟨_, _, rfl⟩ | ⟨hi, hs, hu, j, _, hj, rfl⟩ := exec_cases hx
    · obtain ⟨n, rfl⟩ : ∃ n, i = .tick n := not_not.mp fun hw => hne (effect_upc hw s)
      exact .inr ⟨n, rfl, State.tickBy_wakes hne⟩
    · exact absurd rfl hne
    · have h9 : s.upc ≠ 9 := fun h9 => hne (by rw [microOp_advance_upc hj, if_pos h9])
      exact .inl ⟨hi, hs, by bv_omega⟩

/-! ### The sleep (R265, R266) -/

/-- Settles O24: a sleeping `STEP` is a hold, and ticks end the sleep once they are as many as it has left. -/
theorem sleepHoldsUntilItsTicks : Obligations.SleepHoldsUntilItsTicks := by
  refine fun s hs => ⟨exec_step_asleep hs, fun n hcnt => ⟨_, exec_tick n s, ?_⟩⟩
  rw [State.tickBy_sleeping, hs, Bool.true_and, decide_eq_false_iff_not]
  omega

/-- Settles O30: `SLEEP` is no `STEP`, so it completes with its effect; the advance of `upc` is not part of it. -/
theorem sleepStartsAHundredMilliseconds : Obligations.SleepStartsAHundredMilliseconds :=
  exec_eq_effect Instr.noConfusion

/-! ### The analog pair (R263, R264) -/

/-- Settles O26: `ADC` is no `STEP`, so it completes with its effect, which writes the pair only. -/
theorem adcPresentsASample : Obligations.AdcPresentsASample := fun _ _ => exec_eq_effect Instr.noConfusion

/-- Settles O27: with a pair presented `SAMPLE` takes it and draws nothing. -/
theorem sampleTakesThePresentedPair : Obligations.SampleTakesThePresentedPair := by
  intro x y s ha
  have hpair : s.adcPair = (x, y) := by simp [State.adcPair, ha]
  have hdraws : s.drawsAfterAdc = s.draws := by simp [State.drawsAfterAdc, ha]
  rw [exec_eq_effect Instr.noConfusion, effect, hpair, hdraws]

/-! ### The flags that the micro-ops read (R271) -/

/-- Settles O19: both sides complete with their effects, and the effect carries the flags it does not read along. -/
theorem microOpsReadOnlyTheirFlag : Obligations.MicroOpsReadOnlyTheirFlag := by
  refine fun s leds border => ⟨fun i hi => ?_, ⟨_, exec_eq_effect Instr.noConfusion s, ?_⟩,
    ⟨_, exec_eq_effect Instr.noConfusion s, ?_⟩⟩
  · have hstep : i ≠ .step := by
      rintro rfl
      simp at hi
    refine ⟨_, exec_eq_effect hstep s, ?_⟩
    rw [exec_eq_effect hstep]
    simp only [List.mem_cons, List.not_mem_nil, or_false] at hi
    obtain rfl | rfl | rfl | rfl | rfl | rfl | rfl | rfl := hi <;> rfl
  · exact exec_eq_effect Instr.noConfusion _
  · exact exec_eq_effect Instr.noConfusion _

/-! ### The diagnostic record (R270) -/

theorem diagRecord_fields (s : State) :
    s.diagRecord.extractLsb' 44 12 = s.smpX ∧ s.diagRecord.extractLsb' 32 12 = s.smpY ∧
      s.diagRecord.extractLsb' 16 16 = s.dutyNext0 ∧ s.diagRecord.extractLsb' 0 16 = s.dutyNext1 := by
  have hduties : s.diagRecord.extractLsb' 16 16 = s.dutyNext0 ∧ s.diagRecord.extractLsb' 0 16 = s.dutyNext1 :=
    ⟨(BitVec.extractLsb'_append_eq_of_le (Nat.le_refl 16)).trans BitVec.extractLsb'_append_eq_right,
      BitVec.extractLsb'_append_eq_right⟩
  have hsamples (k : Nat) : s.diagRecord.extractLsb' (k + 32) 12 = (s.smpX ++ s.smpY).extractLsb' k 12 :=
    (BitVec.extractLsb'_append_eq_of_le (Nat.le_add_left 16 (k + 16))).trans
      (BitVec.extractLsb'_append_eq_of_le (Nat.le_add_left 16 k))
  exact ⟨(hsamples 12).trans BitVec.extractLsb'_append_eq_left,
    (hsamples 0).trans BitVec.extractLsb'_append_eq_right, hduties⟩

/-- A micro-op of one clock is over in the clock that begins it (R358). -/
theorem BlockInv.idle_of_maxClocks {s : State} (h : BlockInv s) (hone : maxClocks s.upc = 1) :
    s.inProgress = none := by
  refine Option.eq_none_iff_forall_ne_some.mpr fun m hm => ?_
  obtain ⟨_, hdone, hlt, hle, _⟩ := h.busy m hm
  omega

/-- The micro-op at work in a clock is the one at `upc`. -/
theorem State.code_of_working {s : State} {c : ClockIn} {code : BitVec 4} {b : Nat}
    (h : s.working c = some (code, b)) : code = s.upc := by
  unfold State.working at h
  split at h
  · cases h
    rfl
  · split at h
    · cases h
      rfl
    · cases h

/-- `diag_valid` is up in the one clock of a `DIAG`. -/
theorem BlockInv.diagPulse_eq {s : State} (h : BlockInv s) (c : ClockIn) :
    s.diagPulse c = if c.seqStep = true ∧ s.sleeping = false ∧ s.upc = 8 then some s.diagRecord else none := by
  by_cases hu : s.upc = 8
  · have hidle : s.inProgress = none := h.idle_of_maxClocks (by rw [hu]; rfl)
    by_cases hq : c.seqStep = true ∧ s.sleeping = false
    · simp [State.diagPulse, State.working, hidle, hu, hq]
    · have hnone : s.working c = none := by simpa [State.working, hidle] using hq
      rw [State.diagPulse, hnone, if_neg fun hp => hq ⟨hp.1, hp.2.1⟩]
  · rw [if_neg fun hp => hu hp.2.2]
    unfold State.diagPulse
    split
    · rename_i code b hw
      rw [if_neg fun h8 => hu ((State.code_of_working hw).symm.trans h8)]
    · rfl

theorem clockOut_diag (s : State) (c : ClockIn) (t : State) :
    (clockOut s c t).diag = if c.rst then none else s.diagPulse c := by
  unfold clockOut
  split <;> rfl

/-- Settles O29: the free value decides between the two records that can follow, and on the port only the invariant's
bound on the clocks of a micro-op is needed. -/
theorem diagRecordIsDeliveredOrLost : Obligations.DiagRecordIsDeliveredOrLost := by
  refine fun s => ⟨s.diagRecord, diagRecord_fields s, ?_, fun c t h => ?_⟩
  · rw [exec_eq_effect Instr.noConfusion, effect]
    split
    · exact .inl rfl
    · exact .inr rfl
  · rw [clockOut_diag, h.diagPulse_eq]
    cases c.rst <;> simp

end Sys2Proof.Machine
end

section
/-! PROOFS. The debug port (45_debug_port.md): what a `READ` answers, and that a run with its reads taken out is the same
run but for its answers, since no agent sees what the port leaves behind. -/

namespace Sys2Proof.Machine

/-! ### What a `READ` answers (R290 to R292) -/

/-- An answer in the record does not show in a debug word. -/
theorem memRead_emit (s : State) (e : Event) (a : DebugAddr) : memRead (s.emit e) a = memRead s a := rfl

/-- Settles O43: the value is `MemRead`'s, which does not see the record, so it is the same the second time. -/
theorem readAnswersEveryAddressWithoutSideEffect : Obligations.ReadAnswersEveryAddressWithoutSideEffect := by
  refine fun s a => ⟨memRead s a, exec_eq_effect Instr.noConfusion s, ?_⟩
  rw [runInstrs_cons, exec_eq_effect Instr.noConfusion, andThen_next, runInstrs_cons,
    exec_eq_effect Instr.noConfusion, andThen_next, effect, effect, memRead_emit]
  simp [runInstrs, State.emit]

theorem readsAs_of_toNat {s : State} {a : DebugAddr} {n : Nat} (h : (memRead s a).toNat = n) : ReadsAs s a n :=
  ⟨memRead s a, exec_eq_effect Instr.noConfusion s, h⟩

/-- A field at bit 0 of a debug word, as a number. -/
theorem toNat_place_zero {n : Nat} (v : BitVec n) (hn : n ≤ 32) : (place v 0).toNat = v.toNat := by
  rw [place, BitVec.shiftLeft_zero, BitVec.toNat_setWidth_of_le hn]

/-- A field above all that a debug word holds so far, as a number. -/
theorem toNat_or_place {n lo : Nat} (w : Word) (v : BitVec n) (hw : w.toNat < 2 ^ lo) (hn : n + lo ≤ 32) :
    (w ||| place v lo).toNat = w.toNat + 2 ^ lo * v.toNat := by
  have hlt : v.toNat * 2 ^ lo < 2 ^ 32 :=
    calc v.toNat * 2 ^ lo < 2 ^ n * 2 ^ lo := Nat.mul_lt_mul_of_pos_right v.isLt (Nat.two_pow_pos lo)
      _ = 2 ^ (n + lo) := (Nat.pow_add 2 n lo).symm
      _ ≤ 2 ^ 32 := Nat.pow_le_pow_right (by decide) hn
  have hplace : (place v lo).toNat = 2 ^ lo * v.toNat := by
    rw [place, BitVec.toNat_shiftLeft, BitVec.toNat_setWidth_of_le (by omega), Nat.shiftLeft_eq, Nat.mod_eq_of_lt hlt,
      Nat.mul_comm]
  rw [BitVec.toNat_or, hplace, Nat.or_comm, ← Nat.two_pow_add_eq_or_of_lt hw, Nat.add_comm]

/-- A debug word of two fields, as a number. -/
theorem toNat_place_or_place {n m lo : Nat} (u : BitVec n) (v : BitVec m) (hu : n ≤ lo) (hv : m + lo ≤ 32) :
    (place u 0 ||| place v lo).toNat = u.toNat + 2 ^ lo * v.toNat := by
  have hzero : (place u 0).toNat = u.toNat := toNat_place_zero u (by omega)
  have hlt : u.toNat < 2 ^ lo := u.isLt.trans_le (Nat.pow_le_pow_right (by decide) hu)
  rw [toNat_or_place _ v (hzero ▸ hlt) hv, hzero]

theorem readsAs_two_fields {s : State} {a : DebugAddr} {n m lo : Nat} {u : BitVec n} {v : BitVec m}
    (h : memRead s a = place u 0 ||| place v lo) (hu : n ≤ lo) (hv : m + lo ≤ 32) :
    ReadsAs s a (u.toNat + 2 ^ lo * v.toNat) :=
  readsAs_of_toNat (h ▸ toNat_place_or_place u v hu hv)

theorem toNat_ofBool_asBit (b : Bool) : (BitVec.ofBool b).toNat = asBit b := by cases b <;> rfl

/-- A debug word of two flags or levels. -/
theorem readsAs_two_bits {s : State} {a : DebugAddr} {b b' : Bool}
    (h : memRead s a = place (BitVec.ofBool b) 0 ||| place (BitVec.ofBool b') 1) :
    ReadsAs s a (asBit b + 2 * asBit b') := by
  simpa only [toNat_ofBool_asBit, Nat.pow_one] using readsAs_two_fields h (by decide) (by decide)

/-- A debug word of two parameters that fit their fields. -/
theorem readsAs_two_parameters {s : State} {a : DebugAddr} {n m p q : Nat}
    (h : memRead s a = place (BitVec.ofNat n p) 0 ||| place (BitVec.ofNat m q) 16) (hn : n ≤ 16) (hm : m ≤ 16)
    (hp : p < 2 ^ n) (hq : q < 2 ^ m) : ReadsAs s a (p + 2 ^ 16 * q) := by
  simpa only [BitVec.toNat_ofNat, Nat.mod_eq_of_lt hp, Nat.mod_eq_of_lt hq] using
    readsAs_two_fields h hn (Nat.add_le_add_right hm 16)

/-- The sequencer's register, the one of three fields. -/
theorem readsAs_sequencer (s : State) :
    ReadsAs s 0x009 (s.upc.toNat + 2 ^ 4 * asBit s.sleeping + 2 ^ 8 * s.sleepCnt.toNat) := by
  have hlow : (place s.upc 0 ||| place (BitVec.ofBool s.sleeping) 4).toNat = s.upc.toNat + 2 ^ 4 * asBit s.sleeping := by
    rw [toNat_place_or_place _ _ (by decide) (by decide), toNat_ofBool_asBit]
  have hupc : s.upc.toNat < 2 ^ 4 := s.upc.isLt
  have hbit : asBit s.sleeping ≤ 1 := by cases s.sleeping <;> decide
  apply readsAs_of_toNat
  rw [← hlow]
  exact toNat_or_place _ s.sleepCnt (by omega) (by decide)

/-- Settles O44: each register's fields lie one above another, and the parameters of a valid configuration fit theirs. -/
theorem statusAndConfigurationRegisters : Obligations.StatusAndConfigurationRegisters := by
  intro s hc
  obtain ⟨_, _, _, _, _, _⟩ := (configValid_iff s.cfg).mp hc
  exact ⟨readsAs_two_bits rfl, readsAs_of_toNat rfl, readsAs_of_toNat rfl, readsAs_of_toNat rfl, readsAs_two_bits rfl,
    readsAs_two_fields rfl (by decide) (by decide), readsAs_two_fields rfl (by decide) (by decide),
    readsAs_two_fields rfl (by decide) (by decide), readsAs_two_fields rfl (by decide) (by decide), readsAs_sequencer s,
    readsAs_two_parameters rfl (by decide) (by decide) (by omega) (by omega),
    readsAs_two_parameters rfl (by decide) (by decide) (by omega) (by omega)⟩

/-- The framebuffer window of the debug address space (R292). -/
theorem memRead_window (s : State) {k : Nat} (hk : k ≤ 255) :
    memRead s (BitVec.ofNat 10 (0x100 + k)) = fbWord s.fb k := by
  have haddr : (BitVec.ofNat 10 (0x100 + k)).toNat = 0x100 + k := by
    rw [BitVec.toNat_ofNat, Nat.mod_eq_of_lt (by omega)]
  rw [memRead, haddr, if_neg (by omega), if_pos (by omega), Nat.add_sub_cancel_left]

/-- Settles O45: the word is its four bytes one after another, the first of them lowest. -/
theorem framebufferWindowIsLittleEndian : Obligations.FramebufferWindowIsLittleEndian := by
  intro s k hk
  apply readsAs_of_toNat
  rw [memRead_window s hk, fbWord, toNat_append_eq_add, toNat_append_eq_add, toNat_append_eq_add]
  omega

/-! ### What the port leaves behind, and that no agent sees it (R295) -/

/-- The state without what the debug port leaves in it, its answers and the requests that wait, and without the rest of
the run, where requests stand too. -/
def State.withoutPort (s : State) : State := { s with out := withoutRdata s.out, waiting := [], inputs := [] }

/-- States alike but for the port, with the same run before them, differ in the record's answers and the waiting
requests only. -/
theorem eq_but_port {s u : State} (h : s.withoutPort = u.withoutPort) (hi : s.inputs = u.inputs) :
    s = { u with out := s.out, waiting := s.waiting } ∧ withoutRdata u.out = withoutRdata s.out := by
  refine ⟨?_, (congrArg State.out h).symm⟩
  calc s = { s.withoutPort with out := s.out, waiting := s.waiting, inputs := s.inputs } := rfl
    _ = { u with out := s.out, waiting := s.waiting } := by
      rw [h, hi]
      rfl

theorem withoutRdata_append (es es' : List Event) : withoutRdata (es ++ es') = withoutRdata es ++ withoutRdata es' :=
  List.filter_append ..

/-- An answer is all that a `READ` leaves. -/
theorem withoutPort_effect_read (a : DebugAddr) (s : State) : (effect (.read a) s).withoutPort = s.withoutPort := by
  have hout : withoutRdata (s.out ++ [.rdata a (memRead s a)]) = withoutRdata s.out := by
    rw [withoutRdata_append]
    exact List.append_nil _
  simp only [effect, State.withoutPort, State.emit, hout]

/-- No other instruction sees what the port leaves. -/
theorem effect_withoutPort {i : Instr} (hi : ∀ a, i ≠ .read a) (s : State) :
    effect i s.withoutPort = (effect i s).withoutPort := by
  cases i with
  | read a => exact absurd rfl (hi a)
  | level l v =>
    have hacc : s.withoutPort.accepts l v = s.accepts l v := by cases l <;> rfl
    simp only [effect, hacc]
    split <;> cases l <;> rfl
  | tick n =>
    have hsleep : s.withoutPort.sleeping = s.sleeping ∧ s.withoutPort.sleepCnt = s.sleepCnt := ⟨rfl, rfl⟩
    simp only [effect, State.tickBy, hsleep]
    split
    · split <;> rfl
    · rfl
  | fbFlush =>
    simp only [effect, State.withoutPort, State.emit, withoutRdata_append]
    rfl
  | diag =>
    have hdraws : s.withoutPort.draws = s.draws := rfl
    simp only [effect, hdraws]
    split
    · simp only [State.withoutPort, withoutRdata_append]
      rfl
    · rfl
  | _ => rfl

theorem advanceUpc_withoutPort (s : State) (code : BitVec 4) :
    s.withoutPort.advanceUpc code = (s.advanceUpc code).withoutPort := by
  unfold State.advanceUpc
  split <;> rfl

/-- From states alike but for the port, `g` goes on wherever `f` does, to states alike but for the port. -/
def Alike (f g : State → Result) : Prop :=
  ∀ ⦃s u t : State⦄, s.withoutPort = u.withoutPort → f s = .next t →
    ∃ v, g u = .next v ∧ t.withoutPort = v.withoutPort

theorem Alike.followedBy {f f' g g' : State → Result} (hf : Alike f f') (hg : Alike g g') :
    Alike (fun s => andThen (f s) g) fun s => andThen (f' s) g' := by
  intro s u t h hx
  obtain ⟨s', hs', ht⟩ := andThen_eq_next hx
  obtain ⟨u', hu', h'⟩ := hf h hs'
  obtain ⟨v, hv, hview⟩ := hg h' ht
  refine ⟨v, ?_, hview⟩
  dsimp only
  rw [hu', andThen_next, hv]

/-- An update that does not see what the port leaves. -/
theorem alike_update {f : State → State} (hf : ∀ s, f s.withoutPort = (f s).withoutPort) :
    Alike (fun s => .next (f s)) fun s => .next (f s) := by
  intro s u t h hx
  cases hx
  exact ⟨f u, rfl, by rw [← hf s, ← hf u, h]⟩

/-- What an instruction but `STEP` does is the same, whatever the port has left. -/
theorem effect_alike {s u : State} (h : s.withoutPort = u.withoutPort) (i : Instr) :
    (effect i s).withoutPort = (effect i u).withoutPort := by
  by_cases hread : ∃ a, i = .read a
  · obtain ⟨a, rfl⟩ := hread
    rw [withoutPort_effect_read, withoutPort_effect_read, h]
  · rw [← effect_withoutPort (not_exists.mp hread), ← effect_withoutPort (not_exists.mp hread), h]

theorem alike_exec (i : Instr) : Alike (exec i) (exec i) := by
  intro s u t h hx
  have hsleeping : u.sleeping = s.sleeping := (congrArg State.sleeping h).symm
  have hupc : u.upc = s.upc := (congrArg State.upc h).symm
  obtain ⟨hi, rfl⟩ | ⟨rfl, hs, rfl⟩ | ⟨rfl, hs, hu, j, _, hj, rfl⟩ := exec_cases hx
  · exact ⟨effect i u, exec_eq_effect hi u, effect_alike h i⟩
  · exact ⟨u, exec_step_asleep (hsleeping.trans hs), h⟩
  · refine ⟨_, exec_step_awake (hsleeping.trans hs) (hupc ▸ hu) (hupc ▸ hj), ?_⟩
    rw [hupc, ← advanceUpc_withoutPort, ← advanceUpc_withoutPort, effect_alike h j]

theorem alike_runInstrs (is : List Instr) : Alike (runInstrs is) (runInstrs is) := by
  induction is with
  | nil => exact alike_update (f := id) fun _ => rfl
  | cons i is ih => exact (alike_exec i).followedBy ih

/-! ### The clocks of a run and their debug requests (R294) -/

theorem alike_completeMicroOp (m : MicroOp) : Alike (completeMicroOp m) (completeMicroOp m) := by
  intro s u t h hx
  have hleds : u.ledsEnabled = s.ledsEnabled := (congrArg State.ledsEnabled h).symm
  have hborder : u.borderVisible = s.borderVisible := (congrArg State.borderVisible h).symm
  unfold completeMicroOp at hx ⊢
  rw [hleds, hborder]
  exact ((alike_update (f := fun v => { v with inProgress := none, ledsEnabled := m.leds, borderVisible := m.border })
    fun _ => rfl).followedBy ((alike_exec .step).followedBy (alike_update
      (f := fun v => { v with ledsEnabled := s.ledsEnabled, borderVisible := s.borderVisible }) fun _ => rfl))) h hx

/-- The sequencer's part of a clock, as chosen by the state `s` of the sequencer and the flags. -/
def sequencerPart (c : ClockIn) (s : State) : State → Result :=
  match s.inProgress with
  | some m =>
    if m.done + 1 < m.total then fun v => .next { v with inProgress := some { m with done := m.done + 1 } }
    else completeMicroOp m
  | none =>
    if c.seqStep && !s.sleeping && 1 < clocksOf s.upc c.opClocks then fun v =>
      .next { v with
        inProgress := some
          { total := clocksOf s.upc c.opClocks, done := 1, leds := s.ledsEnabled, border := s.borderVisible } }
    else if c.seqStep then exec .step
    else .next

theorem sequencerClock_eq_part (c : ClockIn) (s : State) : sequencerClock c s = sequencerPart c s s := by
  unfold sequencerClock sequencerPart
  cases s.inProgress with
  | some m =>
    dsimp only
    split <;> rfl
  | none =>
    dsimp only
    split
    · rfl
    · split <;> rfl

theorem alike_sequencerPart (c : ClockIn) (s : State) : Alike (sequencerPart c s) (sequencerPart c s) := by
  unfold sequencerPart
  split
  · split
    · exact alike_update fun _ => rfl
    · exact alike_completeMicroOp _
  · split
    · exact alike_update fun _ => rfl
    · split
      · exact alike_exec .step
      · exact alike_update (f := id) fun _ => rfl

theorem alike_sequencerClock (c : ClockIn) : Alike (sequencerClock c) (sequencerClock c) := by
  intro s u t h hx
  have hpart : sequencerPart c u = sequencerPart c s :=
    calc sequencerPart c u = sequencerPart c u.withoutPort := rfl
      _ = sequencerPart c s := by rw [← h]; rfl
  rw [sequencerClock_eq_part] at hx ⊢
  exact hpart ▸ alike_sequencerPart c s h hx

/-- The debug port's part of a clock goes on, and all it leaves is the port's. -/
theorem debugClock_withoutPort (c : ClockIn) (s : State) :
    ∃ t, debugClock c s = .next t ∧ t.withoutPort = s.withoutPort := by
  cases hm : s.inProgress with
  | none =>
    obtain ⟨_, answers, waiting, ht, hanswers, rfl⟩ := debugClock_appends_answers c hm
    refine ⟨_, ht, ?_⟩
    simp only [State.withoutPort, withoutRdata_append, hanswers, List.append_nil]
  | some m =>
    refine ⟨{ s with waiting := s.waiting ++ c.dbgReq.toList }, ?_, rfl⟩
    unfold debugClock
    rw [hm]

/-- What the debug port does in a clock does not matter, whatever request the clock brings. -/
theorem alike_debugClock (c d : ClockIn) : Alike (debugClock c) (debugClock d) := by
  intro s u t h hx
  obtain ⟨s', hs', hview⟩ := debugClock_withoutPort c s
  obtain ⟨v, hv, hview'⟩ := debugClock_withoutPort d u
  cases hs'.symm.trans hx
  exact ⟨v, hv, by rw [hview, h, hview']⟩

theorem alike_runClock (c : ClockIn) : Alike (runClock c) (runClock c.withoutRequest) := by
  intro s u t h hx
  have htail : clockTail c.withoutRequest u = clockTail c s :=
    calc clockTail c.withoutRequest u = clockTail c u.withoutPort := rfl
      _ = clockTail c s := by rw [← h]; rfl
  by_cases hr : c.rst = true
  · rw [runClock, if_pos hr] at hx
    rw [runClock, if_pos (show c.withoutRequest.rst = true from hr)]
    exact alike_update (f := State.doReset) (fun _ => rfl) h hx
  · rw [runClock, if_neg hr] at hx
    rw [runClock, if_neg (show ¬c.withoutRequest.rst = true from hr), clockWith, htail]
    exact ((alike_debugClock c _).followedBy ((alike_exec _).followedBy ((alike_sequencerClock c).followedBy
      ((alike_runInstrs _).followedBy (alike_update (f := fun v =>
        { v with line0 := v.line0.shift c.btn0, line1 := v.line1.shift c.btn1 }) fun _ => rfl))))) h hx

/-- A clock does not touch the rest of the run. -/
theorem runClock_inputs {c : ClockIn} {s t : State} (hx : runClock c s = .next t) : t.inputs = s.inputs := by
  obtain ⟨_, rfl⟩ | ⟨_, s1, s2, s3, s4, h1, h2, h3, h4, rfl⟩ := runClock_cases hx
  · rfl
  · have hdebug : s1.inputs = s.inputs := by
      obtain ⟨_, _, _, _, hread⟩ | rfl := debugClock_cases h1
      · exact (exec_model_fields hread).2.1
      · rfl
    have hseq : s3.inputs = s2.inputs := by
      obtain ⟨_, _, _, rfl⟩ | ⟨_, _, _, hc⟩ | ⟨_, _, _, _, rfl⟩ | ⟨_, _, _, hstep⟩ | ⟨_, _, rfl⟩ :=
        sequencerClock_cases h3
      · rfl
      · exact (completeMicroOp_model_fields hc).2.2.1
      · rfl
      · exact (exec_model_fields hstep).2.1
      · rfl
    calc s4.inputs = s3.inputs := (runInstrs_model_fields h4).2.1
      _ = s2.inputs := hseq
      _ = s1.inputs := (exec_model_fields h2).2.1
      _ = s.inputs := hdebug

/-- The clocks of a run without their debug requests. -/
theorem runs_withoutRequests {rest : List Input} (cs : List ClockIn) : ∀ {s u t : State},
    s.withoutPort = u.withoutPort → s.inputs = cs.map .clock ++ rest →
    u.inputs = cs.map (fun c => .clock c.withoutRequest) ++ rest → Runs cs.length s t →
    ∃ v, Runs cs.length u v ∧ t.withoutPort = v.withoutPort ∧ t.inputs = v.inputs := by
  induction cs with
  | nil =>
    intro s u t h hs hu hrun
    cases runs_zero.mp hrun
    exact ⟨u, runs_zero.mpr rfl, h, hs.trans hu.symm⟩
  | cons c cs ih =>
    intro s u t h hs hu hrun
    obtain ⟨s', hs', hrun⟩ := runs_succ.mp hrun
    obtain ⟨hc, _⟩ := step_cases hs'
    have hcfg : u.cfg = s.cfg := (congrArg State.cfg h).symm
    rw [step_of_clock hc hs] at hs'
    obtain ⟨u', hu', h'⟩ := alike_runClock c (s := { s with inputs := cs.map .clock ++ rest })
      (u := { u with inputs := cs.map (fun c => .clock c.withoutRequest) ++ rest }) h hs'
    obtain ⟨v, hv, hview⟩ := ih h' (runClock_inputs hs') (runClock_inputs hu') hrun
    exact ⟨v, runs_succ.mpr ⟨u', (step_of_clock (hcfg ▸ hc) hu).trans hu', hv⟩, hview⟩

/-! ### The words of a run and its `READ`s -/

theorem isReadWord_iff {w : Word} : isReadWord w = true ↔ ∃ a, decodeWord w = .ok (.read a) := by
  unfold isReadWord
  split
  · rename_i a hd
    exact iff_of_true rfl ⟨a, hd⟩
  · rename_i hne
    exact iff_of_false Bool.false_ne_true fun ⟨a, hd⟩ => hne a hd

theorem runWord_of_quiet {w : Word} {i : Instr} {s : State} (hq : Quiet s) (hd : decodeWord w = .ok i) :
    runWord w s = exec i s := by
  rw [runWord_of_ok hd, settle_of_quiet hq.1 hq.2, andThen_next]

theorem quiet_runWord {w : Word} {s t : State} (hq : Quiet s) (hx : runWord w s = .next t) :
    Quiet t ∧ t.inputs = s.inputs := by
  cases hd : decodeWord w with
  | ok i =>
    rw [runWord_of_quiet hq hd] at hx
    exact ⟨quiet_exec hq hx, (exec_model_fields hx).2.1⟩
  | error r =>
    rw [runWord_of_error hd] at hx
    cases hx
    exact ⟨hq, rfl⟩

/-- With nothing to settle a word does the same, whatever the port has left. -/
theorem alike_runWord {w : Word} {s u t : State} (hs : Quiet s) (hu : Quiet u) (h : s.withoutPort = u.withoutPort)
    (hx : runWord w s = .next t) : ∃ v, runWord w u = .next v ∧ t.withoutPort = v.withoutPort := by
  cases hd : decodeWord w with
  | ok i =>
    rw [runWord_of_quiet hs hd] at hx
    rw [runWord_of_quiet hu hd]
    exact alike_exec i h hx
  | error r =>
    rw [runWord_of_error hd] at hx ⊢
    exact alike_update (f := fun v => v.markRefused r) (fun _ => rfl) h hx

/-- A `READ` between the words of a run leaves its answer only. -/
theorem withoutPort_runWord_read {w : Word} {s t : State} (hw : isReadWord w = true) (hq : Quiet s)
    (hx : runWord w s = .next t) : t.withoutPort = s.withoutPort := by
  obtain ⟨a, hd⟩ := isReadWord_iff.mp hw
  rw [runWord_of_quiet hq hd, exec_eq_effect Instr.noConfusion] at hx
  cases hx
  exact withoutPort_effect_read a s

/-- The words of a run without its `READ`s. -/
theorem runs_withoutReads (ws : List Word) : ∀ {s u t : State}, s.withoutPort = u.withoutPort → Quiet s → Quiet u →
    s.inputs = ws.map .txn → u.inputs = (withoutReads ws).map .txn → Runs ws.length s t →
    ∃ v, Runs (withoutReads ws).length u v ∧ t.withoutPort = v.withoutPort ∧ t.inputs = v.inputs ∧
      t.waiting = v.waiting := by
  induction ws with
  | nil =>
    intro s u t h hqs hqu hs hu hrun
    cases runs_zero.mp hrun
    exact ⟨u, runs_zero.mpr rfl, h, hs.trans hu.symm, hqs.2.trans hqu.2.symm⟩
  | cons w ws ih =>
    intro s u t h hqs hqu hs hu hrun
    obtain ⟨s', hs', hrun⟩ := runs_succ.mp hrun
    obtain ⟨hc, _⟩ := step_cases hs'
    rw [step_of_inputs hc hs] at hs'
    obtain ⟨hqs', hins'⟩ := quiet_runWord (s := { s with inputs := ws.map .txn }) hqs hs'
    cases hw : isReadWord w with
    | true =>
      have hskip : withoutReads (w :: ws) = withoutReads ws := List.filter_cons_of_neg (by simp [hw])
      rw [hskip] at hu ⊢
      exact ih ((withoutPort_runWord_read (s := { s with inputs := ws.map .txn }) hw hqs hs').trans h) hqs' hqu hins' hu
        hrun
    | false =>
      have hkeep : withoutReads (w :: ws) = w :: withoutReads ws := List.filter_cons_of_pos (by simp [hw])
      have hcfg : u.cfg = s.cfg := (congrArg State.cfg h).symm
      rw [hkeep] at hu ⊢
      obtain ⟨u', hu', h'⟩ := alike_runWord (s := { s with inputs := ws.map .txn })
        (u := { u with inputs := (withoutReads ws).map .txn }) hqs hqu h hs'
      obtain ⟨hqu', hinu'⟩ := quiet_runWord (s := { u with inputs := (withoutReads ws).map .txn }) hqu hu'
      obtain ⟨v, hv, hview⟩ := ih h' hqs' hqu' hins' hinu' hrun
      exact ⟨v, runs_succ.mpr ⟨u', (step_of_inputs (hcfg ▸ hc) hu).trans hu', hv⟩, hview⟩

/-- Settles O46: both runs stay alike but for the port, word by word and clock by clock. -/
theorem readsCanBeRemovedFromARun : Obligations.ReadsCanBeRemovedFromARun := by
  refine ⟨fun ws s t hq hi hrun => ?_, fun cs rest s t hi hrun => ?_⟩
  · obtain ⟨u, hu, hview, hinputs, hwaiting⟩ := runs_withoutReads ws (s := s.load ws) (u := s.load (withoutReads ws))
      rfl hq hq (by simp [State.load, hi]) (by simp [State.load, hi]) hrun
    obtain ⟨ht, hout⟩ := eq_but_port hview hinputs
    rw [hwaiting] at ht
    exact ⟨u, hu, ht, hout⟩
  · obtain ⟨u, hu, hview, hinputs⟩ := runs_withoutRequests cs (s := s)
      (u := { s with inputs := cs.map (fun c => .clock c.withoutRequest) ++ rest }) rfl hi rfl hrun
    exact ⟨u, hu, eq_but_port hview hinputs⟩

end Sys2Proof.Machine
end

section
/-! PROOFS. Exceptions (60_exceptions.md): the configurations that are refused at elaboration (R311), and the mark that
a refused word leaves on its run (R310). -/

namespace Sys2Proof.Machine

/-! ### The configuration check (R311) -/

/-- What fails the check: one of R5's ranges is left. -/
theorem configValid_eq_false_iff (c : Config) :
    configValid c = false ↔
      c.deadzone = 0 ∨ c.center ≤ c.deadzone ∨ 4095 ≤ c.center + c.deadzone ∨ 65535 < c.wrap ∨ c.tsWidth < 9 ∨
        32 < c.tsWidth := by
  rw [← Bool.not_eq_true, configValid_iff]
  omega

theorem instantiate_of_valid {c : Config} (hc : configValid c = true) (fb : Memory) :
    instantiate c fb = .next (State.powerOn c fb) := if_pos hc

theorem instantiate_of_invalid {c : Config} (hc : configValid c = false) (fb : Memory) :
    instantiate c fb = .refused .cfgInvalid := if_neg (Bool.eq_false_iff.mp hc)

/-- The check does not look at the framebuffer's contents. -/
theorem instantiate_refused_iff (c : Config) :
    (∀ fb, instantiate c fb = .refused .cfgInvalid) ↔ configValid c = false := by
  refine ⟨fun h => ?_, instantiate_of_invalid⟩
  by_contra hc
  cases (instantiate_of_valid (Bool.eq_true_of_not_eq_false hc) []).symm.trans (h [])

theorem step_of_invalid {s : State} (hc : configValid s.cfg = false) : step s = .refused .cfgInvalid :=
  if_neg (Bool.eq_false_iff.mp hc)

/-- Settles O9: the check fails where a range of R5 is left, and a step keeps what it looks at. -/
theorem invalidConfigurationsAreRefused : Obligations.InvalidConfigurationsAreRefused := by
  intro c
  refine ⟨?_, instantiate_of_valid, ?_, ?_⟩
  · rw [instantiate_refused_iff, configValid_eq_false_iff]
  · rintro hc s rfl
    exact step_of_invalid hc
  · rintro s t rfl h
    exact step_cfg h

/-! ### The refused mark (R310) -/

theorem exec_refusedMark {i : Instr} {s t : State} (hx : exec i s = .next t) : t.refusedMark = s.refusedMark := by
  obtain ⟨_, _, hmark, _⟩ := exec_model_fields hx
  exact hmark

theorem completeMicroOp_refusedMark {m : MicroOp} {s t : State} (hx : completeMicroOp m s = .next t) :
    t.refusedMark = s.refusedMark := by
  obtain ⟨_, _, _, hmark, _⟩ := completeMicroOp_model_fields hx
  exact hmark

theorem runInstrs_refusedMark {is : List Instr} {s t : State} (hx : runInstrs is s = .next t) :
    t.refusedMark = s.refusedMark := by
  obtain ⟨_, _, hmark, _⟩ := runInstrs_model_fields hx
  exact hmark

theorem settle_refusedMark {s t : State} (hx : settle s = .next t) : t.refusedMark = s.refusedMark := by
  obtain ⟨u, hu, ht⟩ := settle_cases hx
  have hmark : u.refusedMark = s.refusedMark := by
    obtain ⟨_, rfl⟩ | ⟨m, _, hc⟩ := hu
    · rfl
    · exact completeMicroOp_refusedMark hc
  exact (runInstrs_refusedMark ht).trans hmark

theorem debugClock_refusedMark {c : ClockIn} {s t : State} (hx : debugClock c s = .next t) :
    t.refusedMark = s.refusedMark := by
  obtain ⟨a, later, _, _, hr⟩ | rfl := debugClock_cases hx
  · exact (exec_refusedMark hr :)
  · rfl

theorem sequencerClock_refusedMark {c : ClockIn} {s t : State} (hx : sequencerClock c s = .next t) :
    t.refusedMark = s.refusedMark := by
  obtain ⟨m, _, _, rfl⟩ | ⟨m, _, _, hc⟩ | ⟨_, _, _, _, rfl⟩ | ⟨_, _, _, hs⟩ | ⟨_, _, rfl⟩ := sequencerClock_cases hx
  · rfl
  · exact completeMicroOp_refusedMark hc
  · rfl
  · exact exec_refusedMark hs
  · rfl

/-- A clock keeps the mark, with `rst` too (log entry 3). -/
theorem runClock_refusedMark {c : ClockIn} {s t : State} (hx : runClock c s = .next t) :
    t.refusedMark = s.refusedMark := by
  obtain ⟨_, rfl⟩ | ⟨_, s1, s2, s3, s4, h1, h2, h3, h4, rfl⟩ := runClock_cases hx
  · exact s.doReset_refusedMark
  · calc s4.refusedMark = s3.refusedMark := runInstrs_refusedMark h4
      _ = s2.refusedMark := sequencerClock_refusedMark h3
      _ = s1.refusedMark := exec_refusedMark h2
      _ = s.refusedMark := debugClock_refusedMark h1

/-- What an input does to the mark: nothing, unless it is a refused word. -/
theorem runInput_refusedMark {i : Input} {s t : State} (hx : runInput i s = .next t) :
    t.refusedMark = s.refusedMark ∨ ∃ w r, i = .txn w ∧ decodeWord w = .error r ∧ t = s.markRefused r := by
  cases i with
  | txn w =>
    obtain ⟨i, u, _, hu, hi⟩ | ⟨r, hd, ht⟩ := runWord_cases hx
    · exact .inl ((exec_refusedMark hi).trans (settle_refusedMark hu))
    · exact .inr ⟨w, r, rfl, hd, ht⟩
  | reset =>
    cases hx
    exact .inl s.doReset_refusedMark
  | clock c => exact .inl (runClock_refusedMark hx)

/-- What a step does to the mark: nothing, or it took a refused word, whose reason fills an empty mark. -/
theorem step_refusedMark {s t : State} (h : step s = .next t) :
    t.refusedMark = s.refusedMark ∨
      ∃ w rest r, s.inputs = .txn w :: rest ∧ decodeWord w = .error r ∧
        t.refusedMark = some (s.refusedMark.getD r) := by
  obtain ⟨_, ⟨_, rfl⟩ | ⟨i, rest, hi, hx⟩⟩ := step_cases h
  · exact .inl rfl
  · obtain hmark | ⟨w, r, rfl, hd, rfl⟩ := runInput_refusedMark hx
    · exact .inl hmark
    · exact .inr ⟨w, rest, r, hi, hd, rfl⟩

/-- Settles O52: a refused word only fills an empty mark, and nothing else touches it. -/
theorem refusedMarkStaysForTheRun : Obligations.RefusedMarkStaysForTheRun := by
  intro s t h
  obtain hmark | ⟨w, rest, r, hi, hd, hmark⟩ := step_refusedMark h
  · refine ⟨fun _ hs => hmark.trans hs, fun hs r ht => ?_⟩
    cases (hmark.trans hs).symm.trans ht
  · refine ⟨fun r₀ hs => ?_, fun hs r' ht => ?_⟩
    · rw [hmark, hs, Option.getD_some]
    · rw [hmark, hs, Option.getD_none, Option.some.injEq] at ht
      exact ⟨w, rest, hi, ht ▸ hd⟩

end Sys2Proof.Machine
end

section
/-! PROOFS. The clocked hardware (70_reset_and_hazards.md): a clock without `rst` is the debug port, the analog pins, the
sequencer as the state before the clock directs it, and its end, that is the lines, the tick and the synchronisers
(R351, R353). A micro-op of several clocks is its `STEP` in the first of them (R352), and a clock with `rst` is a reset
(R340). -/

namespace Sys2Proof.Machine

/-! ### The end of a clock: the lines, the tick and the synchronisers (R351, R353) -/

/-- What follows the sequencer in the clock `c` that began in `s`, as the transactions `LEVEL 0`, `LEVEL 1`, `TICK`. -/
def clockEnd (c : ClockIn) (s u : State) : Result :=
  andThen (exec (.level .line0 s.line0.sync2) u) fun u1 =>
  andThen (exec (.level .line1 s.line1.sync2) u1) fun u2 =>
  andThen (if c.msTick then exec (.tick 1) u2 else .next u2) fun u3 =>
  .next { u3 with
    line0 := { u3.line0 with sync2 := s.line0.sync1, sync1 := c.btn0 }
    line1 := { u3.line1 with sync2 := s.line1.sync1, sync1 := c.btn1 } }

/-- `u` once the lines are evaluated against `sync2` as it was in `s`. -/
def levelsTaken (s u : State) : State :=
  effect (.level .line1 s.line1.sync2) (effect (.level .line0 s.line0.sync2) u)

/-- `u` at the end of the clock `c` that began in `s`. -/
def endOfClock (c : ClockIn) (s u : State) : State :=
  let v := if c.msTick then (levelsTaken s u).tickBy 1 else levelsTaken s u
  { v with
    line0 := { v.line0 with sync2 := s.line0.sync1, sync1 := c.btn0 }
    line1 := { v.line1 with sync2 := s.line1.sync1, sync1 := c.btn1 } }

theorem clockEnd_eq (c : ClockIn) (s u : State) : clockEnd c s u = .next (endOfClock c s u) := by
  unfold clockEnd endOfClock
  cases c.msTick <;> rfl

theorem levelsTaken_keeps {α : Type} {field : State → α} (hlevel : ∀ l v u, field (effect (.level l v) u) = field u)
    (s u : State) : field (levelsTaken s u) = field u := (hlevel _ _ _).trans (hlevel _ _ _)

/-- A field that is no line's, no flag's and no timer's stays to the end of a clock. -/
theorem endOfClock_keeps {α : Type} {field : State → α} (hlevel : ∀ l v u, field (effect (.level l v) u) = field u)
    (htick : ∀ n u, field (State.tickBy u n) = field u)
    (hlines : ∀ (u : State) l0 l1, field { u with line0 := l0, line1 := l1 } = field u) (c : ClockIn) (s u : State) :
    field (endOfClock c s u) = field u := by
  refine (hlines _ _ _).trans ?_
  split
  · exact (htick _ _).trans (levelsTaken_keeps hlevel s u)
  · exact levelsTaken_keeps hlevel s u

theorem levelsTaken_lvl (s u : State) (l : Line) : ((levelsTaken s u).chan l).lvl = (s.chan l).sync2 := by
  cases l with
  | line0 => rw [levelsTaken, chan_effect_level, if_neg Line.noConfusion, chan_effect_level, if_pos rfl, s.chan_line0]
  | line1 => rw [levelsTaken, chan_effect_level, if_pos rfl, s.chan_line1]

/-- The tick and the shift leave the level that a line has taken. -/
theorem endOfClock_lvl (c : ClockIn) (s u : State) (l : Line) :
    ((endOfClock c s u).chan l).lvl = (s.chan l).sync2 := by
  rw [← levelsTaken_lvl s u l]
  unfold endOfClock
  cases c.msTick <;> cases l <;> simp

/-- The sequencer's registers (R38, R39). -/
def State.sequencerRegs (s : State) : BitVec 4 × Bool × BitVec 7 := (s.upc, s.sleep)

theorem sequencerRegs_eq_iff {s t : State} :
    t.sequencerRegs = s.sequencerRegs ↔ t.upc = s.upc ∧ t.sleeping = s.sleeping ∧ t.sleepCnt = s.sleepCnt := by
  simp [State.sequencerRegs, State.sleep]

/-- What a tick does to the sequencer depends on the sequencer only. -/
theorem sequencerRegs_tickBy {s t : State} (h : t.sequencerRegs = s.sequencerRegs) (n : Nat) :
    (t.tickBy n).sequencerRegs = (s.tickBy n).sequencerRegs := by
  obtain ⟨hupc, hsleeping, hcnt⟩ := sequencerRegs_eq_iff.mp h
  simp only [sequencerRegs_eq_iff, State.tickBy_upc, State.tickBy_sleeping, State.tickBy_sleepCnt, hupc, hsleeping, hcnt,
    and_self]

theorem sequencerRegs_tickBy_awake {s : State} (hs : s.sleeping = false) (n : Nat) :
    (s.tickBy n).sequencerRegs = s.sequencerRegs := by
  simp [sequencerRegs_eq_iff, State.tickBy_upc, State.tickBy_sleeping, State.tickBy_sleepCnt, hs]

/-- The lines do not touch the sequencer: at the end of a clock it is where the tick leaves it. -/
theorem endOfClock_sequencerRegs (c : ClockIn) (s u : State) :
    (endOfClock c s u).sequencerRegs = (if c.msTick then u.tickBy 1 else u).sequencerRegs := by
  have hlevels : (levelsTaken s u).sequencerRegs = u.sequencerRegs :=
    levelsTaken_keeps (effect_level_keeps (by simp [State.sequencerRegs, State.sleep])
      (by simp [State.sequencerRegs, State.sleep])) s u
  unfold endOfClock
  cases c.msTick with
  | false => exact hlevels
  | true => exact sequencerRegs_tickBy hlevels 1

/-! ### A clock without `rst`, part by part -/

theorem andThen_congr {r : Result} {f g : State → Result} (h : ∀ t, r = .next t → f t = g t) :
    andThen r f = andThen r g := by
  cases r with
  | next t => exact h t rfl
  | fault e => rfl
  | refused e => rfl

/-- A part of a clock that leaves `sync1` of both lines, so that the shift at the end finds it as the clock did. -/
def KeepsSync1 (f : State → Result) : Prop :=
  ∀ ⦃s t : State⦄, f s = .next t → t.line0.sync1 = s.line0.sync1 ∧ t.line1.sync1 = s.line1.sync1

theorem keepsSync1_exec (i : Instr) : KeepsSync1 (exec i) := fun _ _ hx =>
  ⟨(sync_of_exec hx .line0).1, (sync_of_exec hx .line1).1⟩

theorem keepsSync1_debugClock (c : ClockIn) : KeepsSync1 (debugClock c) := by
  intro s t hx
  obtain ⟨a, later, _, _, hread⟩ | rfl := debugClock_cases hx
  · exact (keepsSync1_exec _ hread :)
  · exact ⟨rfl, rfl⟩

theorem keepsSync1_completeMicroOp (m : MicroOp) : KeepsSync1 (completeMicroOp m) := by
  intro s t hx
  obtain ⟨u, hstep, rfl⟩ := completeMicroOp_cases hx
  exact (keepsSync1_exec _ hstep :)

theorem keepsSync1_next {f : State → State} (h0 : ∀ s, (f s).line0 = s.line0) (h1 : ∀ s, (f s).line1 = s.line1) :
    KeepsSync1 fun s => .next (f s) := by
  intro s t hx
  cases hx
  rw [h0, h1]
  exact ⟨rfl, rfl⟩

theorem keepsSync1_sequencerPart (c : ClockIn) (s : State) : KeepsSync1 (sequencerPart c s) := by
  unfold sequencerPart
  split
  · split
    · exact keepsSync1_next (fun _ => rfl) fun _ => rfl
    · exact keepsSync1_completeMicroOp _
  · split
    · exact keepsSync1_next (fun _ => rfl) fun _ => rfl
    · split
      · exact keepsSync1_exec .step
      · exact keepsSync1_next (f := id) (fun _ => rfl) fun _ => rfl

/-- The lines and the tick as `clockTail` has them, and the shift, are the clock's end, where no part before them has
moved a synchroniser. -/
theorem clockTail_eq_clockEnd (c : ClockIn) {s u : State} (h0 : u.line0.sync1 = s.line0.sync1)
    (h1 : u.line1.sync1 = s.line1.sync1) :
    andThen (runInstrs (clockTail c s) u) (fun t =>
      .next { t with line0 := t.line0.shift c.btn0, line1 := t.line1.shift c.btn1 }) = clockEnd c s u := by
  have hsync {t : State} (ht : runInstrs (clockTail c s) u = .next t) :
      t.line0.sync1 = s.line0.sync1 ∧ t.line1.sync1 = s.line1.sync1 :=
    runInstrs_keeps (P := fun t => t.line0.sync1 = s.line0.sync1 ∧ t.line1.sync1 = s.line1.sync1)
      (fun i _ _ _ ha hx => ⟨(keepsSync1_exec i hx).1.trans ha.1, (keepsSync1_exec i hx).2.trans ha.2⟩) ⟨h0, h1⟩ ht
  calc _ = andThen (runInstrs (clockTail c s) u) fun t =>
        .next { t with
          line0 := { t.line0 with sync2 := s.line0.sync1, sync1 := c.btn0 }
          line1 := { t.line1 with sync2 := s.line1.sync1, sync1 := c.btn1 } } := by
        refine andThen_congr fun t ht => ?_
        rw [Channel.shift, Channel.shift, (hsync ht).1, (hsync ht).2]
    _ = clockEnd c s u := by
        unfold clockEnd clockTail
        cases c.msTick <;> rfl

theorem clockWith_eq {debug sequencer : State → Result} (hdebug : KeepsSync1 debug) (hseq : KeepsSync1 sequencer)
    (c : ClockIn) (s : State) :
    clockWith debug sequencer c s =
      andThen (debug s) fun s1 => andThen (exec (.adc c.adcX c.adcY) s1) fun s2 =>
        andThen (sequencer s2) (clockEnd c s) := by
  unfold clockWith
  refine andThen_congr fun s1 h1 => andThen_congr fun s2 h2 => andThen_congr fun s3 h3 => ?_
  obtain ⟨hd0, hd1⟩ := hdebug h1
  obtain ⟨ha0, ha1⟩ := keepsSync1_exec _ h2
  obtain ⟨hq0, hq1⟩ := hseq h3
  exact clockTail_eq_clockEnd c (hq0.trans (ha0.trans hd0)) (hq1.trans (ha1.trans hd1))

/-- Neither the debug port nor the analog pins touch what directs the sequencer: the state before the clock does. -/
theorem runClock_eq_clockWith {c : ClockIn} (hr : c.rst = false) (s : State) :
    runClock c s = clockWith (debugClock c) (sequencerPart c s) c s := by
  rw [runClock, hr, if_neg Bool.false_ne_true]
  refine andThen_congr fun s1 h1 => ?_
  have hview : s1.withoutPort = s.withoutPort := by
    obtain ⟨_, h1', hview⟩ := debugClock_withoutPort c s
    cases h1.symm.trans h1'
    exact hview
  have hpart : sequencerPart c { s1 with adcIn := some (c.adcX, c.adcY) } = sequencerPart c s :=
    calc _ = sequencerPart c s1.withoutPort := rfl
      _ = sequencerPart c s := by rw [hview]; rfl
  rw [exec_eq_effect Instr.noConfusion, andThen_next, andThen_next, effect, sequencerClock_eq_part, hpart]

/-- A clock without `rst`, its parts in order (R351). -/
theorem runClock_eq {c : ClockIn} (hr : c.rst = false) (s : State) :
    runClock c s =
      andThen (debugClock c s) fun s1 => andThen (exec (.adc c.adcX c.adcY) s1) fun s2 =>
        andThen (sequencerPart c s s2) (clockEnd c s) :=
  (runClock_eq_clockWith hr s).trans
    (clockWith_eq (keepsSync1_debugClock c) (keepsSync1_sequencerPart c s) c s)

/-! ### The sequencer's part by its cases (R352) -/

/-- No micro-op in progress, and none of several clocks begins. -/
theorem sequencerPart_single {c : ClockIn} {s : State} (hn : s.inProgress = none)
    (hone : c.seqStep = true → s.sleeping = true ∨ clocksOf s.upc c.opClocks = 1) :
    sequencerPart c s = fun u => if c.seqStep then exec .step u else .next u := by
  have hbegins : ¬(c.seqStep && !s.sleeping && decide (1 < clocksOf s.upc c.opClocks)) = true := by
    simp only [Bool.and_eq_true, Bool.not_eq_true', decide_eq_true_eq]
    rintro ⟨⟨hq, hs⟩, hlt⟩
    obtain hs' | hone := hone hq
    · cases hs.symm.trans hs'
    · omega
  unfold sequencerPart
  simp only [hn]
  rw [if_neg hbegins]
  cases c.seqStep <;> rfl

/-- The micro-op that begins in the clock `c`, after this first clock. -/
def microOpBegun (c : ClockIn) (s : State) : MicroOp :=
  { total := clocksOf s.upc c.opClocks, done := 1, leds := s.ledsEnabled, border := s.borderVisible }

/-- A micro-op of several clocks begins. -/
theorem sequencerPart_begins {c : ClockIn} {s : State} (hn : s.inProgress = none) (hq : c.seqStep = true)
    (hs : s.sleeping = false) (hlt : 1 < clocksOf s.upc c.opClocks) :
    sequencerPart c s = fun u => .next { u with inProgress := some (microOpBegun c s) } := by
  unfold sequencerPart
  simp only [hn]
  rw [if_pos (by simp [hq, hs, hlt])]
  rfl

/-- A micro-op goes on. -/
theorem sequencerPart_goesOn {c : ClockIn} {s : State} {m : MicroOp} (hm : s.inProgress = some m)
    (hlt : m.done + 1 < m.total) :
    sequencerPart c s = fun u => .next { u with inProgress := some { m with done := m.done + 1 } } := by
  unfold sequencerPart
  simp only [hm]
  rw [if_pos hlt]

/-! ### The debug port's part by its cases (R294) -/

/-- The oldest request is answered, if there is one. -/
def answerOldest (c : ClockIn) (s : State) : Result :=
  match s.waiting ++ c.dbgReq.toList with
  | a :: later => exec (.read a) { s with waiting := later }
  | [] => .next s

theorem debugClock_eq_answerOldest (c : ClockIn) {s : State} (hn : s.inProgress = none) :
    debugClock c s = answerOldest c s := by
  rw [debugClock_idle hn, answerOldest]
  cases hreq : s.waiting ++ c.dbgReq.toList with
  | cons a later => rfl
  | nil =>
    have hwaiting : s.waiting = [] := (List.append_eq_nil_iff.mp hreq).1
    show Host.Outcome.next { s with waiting := [] } = .next s
    rw [← hwaiting]

theorem debugClock_of_busy (c : ClockIn) {s : State} {m : MicroOp} (hm : s.inProgress = some m) :
    debugClock c s = .next { s with waiting := s.waiting ++ c.dbgReq.toList } := by
  unfold debugClock
  rw [hm]

theorem debugClock_withInputs (c : ClockIn) (s : State) (is : List Input) :
    debugClock c { s with inputs := is } = andThen (debugClock c s) fun t => .next { t with inputs := is } := by
  unfold debugClock
  dsimp only
  split
  · rename_i a later _ _
    exact exec_withInputs (.read a) { s with waiting := later } is
  · rfl

/-- With no micro-op in progress, the sequencer finds the state with at most an answer more in the record, other
requests waiting, and the analog pins presented. -/
theorem runClock_of_idle {c : ClockIn} {s : State} (hr : c.rst = false) (hn : s.inProgress = none) :
    ∃ answers waiting, withoutRdata answers = [] ∧ runClock c s =
      andThen (sequencerPart c s
        { s with out := s.out ++ answers, waiting := waiting, adcIn := some (c.adcX, c.adcY) }) (clockEnd c s) := by
  obtain ⟨_, answers, waiting, hdebug, hanswers, rfl⟩ := debugClock_appends_answers c hn
  refine ⟨answers, waiting, hanswers, ?_⟩
  rw [runClock_eq hr, hdebug, andThen_next, exec_eq_effect Instr.noConfusion, andThen_next, effect]

/-! ### One clock as its transactions (R351) -/

theorem runClock_single {c : ClockIn} {s : State} (hr : c.rst = false) (hn : s.inProgress = none)
    (hone : c.seqStep = true → s.sleeping = true ∨ clocksOf s.upc c.opClocks = 1) :
    runClock c s =
      andThen (answerOldest c s) fun s1 => andThen (exec (.adc c.adcX c.adcY) s1) fun s2 =>
        andThen (if c.seqStep then exec .step s2 else .next s2) (clockEnd c s) := by
  rw [runClock_eq hr, debugClock_eq_answerOldest c hn, sequencerPart_single hn hone]

theorem runClock_firstOfSeveral {c : ClockIn} {s : State} (hr : c.rst = false) (hn : s.inProgress = none)
    (hq : c.seqStep = true) (hs : s.sleeping = false) (hlt : 1 < clocksOf s.upc c.opClocks) :
    runClock c s =
      andThen (answerOldest c s) fun s1 => andThen (exec (.adc c.adcX c.adcY) s1) fun s2 =>
        clockEnd c s { s2 with inProgress := some (microOpBegun c s) } := by
  rw [runClock_eq hr, debugClock_eq_answerOldest c hn, sequencerPart_begins hn hq hs hlt]
  rfl

theorem runClock_inBetween {c : ClockIn} {s : State} {m : MicroOp} (hr : c.rst = false) (hm : s.inProgress = some m)
    (hlt : m.done + 1 < m.total) :
    runClock c s =
      andThen (exec (.adc c.adcX c.adcY)
        { s with
          inProgress := some { m with done := m.done + 1 }, waiting := s.waiting ++ c.dbgReq.toList }) (clockEnd c s) := by
  rw [runClock_eq hr, debugClock_of_busy c hm, sequencerPart_goesOn hm hlt]
  rfl

/-- The clock in which a micro-op of several clocks begins leaves what the micro-op reads and writes as it was, and the
record gains at most a debug answer. -/
theorem runClock_firstOfSeveral_keeps {c : ClockIn} {s : State} (hr : c.rst = false) (hn : s.inProgress = none)
    (hq : c.seqStep = true) (hs : s.sleeping = false) (hlt : 1 < clocksOf s.upc c.opClocks) :
    ∃ (t : State) (answers : List Event), runClock c s = .next t ∧ t.sequencerRegs = s.sequencerRegs ∧ t.fb = s.fb ∧
      t.dutyNext = s.dutyNext ∧ t.dutyOut = s.dutyOut ∧ t.samples = s.samples ∧ t.cursor = s.cursor ∧
      t.out = s.out ++ answers ∧ withoutRdata answers = [] ∧ t.inProgress = some (microOpBegun c s) := by
  obtain ⟨answers, waiting, hanswers, hrun⟩ := runClock_of_idle hr hn
  rw [sequencerPart_begins hn hq hs hlt, andThen_next, clockEnd_eq] at hrun
  refine ⟨_, answers, hrun, ?regs,
    endOfClock_keeps (effect_level_keeps State.setChan_fb State.toggleFlag_fb) ?_ ?_ c s _,
    endOfClock_keeps (fun _ _ => effect_dutyNext Instr.noConfusion) ?_ ?_ c s _,
    endOfClock_keeps (fun _ _ => effect_dutyOut Instr.noConfusion) ?_ ?_ c s _,
    endOfClock_keeps (fun _ _ => effect_samples Instr.noConfusion) ?_ ?_ c s _,
    endOfClock_keeps (fun _ _ => effect_cursor Instr.noConfusion) ?_ ?_ c s _,
    endOfClock_keeps (effect_level_keeps State.setChan_out State.toggleFlag_out) ?_ ?_ c s _, hanswers,
    endOfClock_keeps (fun _ _ => effect_inProgress _) ?_ ?_ c s _⟩
  case regs =>
    rw [endOfClock_sequencerRegs]
    split
    · exact (sequencerRegs_tickBy_awake (by exact hs) 1).trans rfl
    · rfl
  all_goals simp [State.dutyNext, State.dutyOut, State.samples, State.cursor]

/-! ### A micro-op over all its clocks (R352) -/

/-- A commit neither reads nor writes the analog pins. -/
theorem completed_withAdcIn {m : MicroOp} {s : State} (hu : 1 ≤ s.upc.toNat ∧ s.upc.toNat ≤ 6)
    (a : Option (Sample × Sample)) : completed m { s with adcIn := a } = { completed m s with adcIn := a } := by
  cases s
  obtain rfl | rfl | rfl | rfl | rfl | rfl := upc_cases _ hu <;> rfl

/-- With the flags as the micro-op took them, the `STEP` is its commit. -/
theorem exec_step_eq_completed {m : MicroOp} {s : State} (hn : s.inProgress = none) (hs : s.sleeping = false)
    (hu : 1 ≤ s.upc.toNat ∧ s.upc.toNat ≤ 6) (hleds : m.leds = s.ledsEnabled) (hborder : m.border = s.borderVisible) :
    exec .step s = .next (completed m s) := by
  have hle : s.upc.toNat ≤ 9 := by omega
  obtain ⟨j, hj⟩ := decodeUop_of_le s.upc hle
  have hsame : ({ s with inProgress := none, ledsEnabled := m.leds, borderVisible := m.border } : State) = s := by
    rw [hleds, hborder, ← hn]
  have hflags : (effect j s).ledsEnabled = s.ledsEnabled ∧ (effect j s).borderVisible = s.borderVisible := by
    obtain ⟨_, rfl⟩ | ⟨_, rfl⟩ | ⟨_, rfl⟩ | ⟨_, rfl⟩ | ⟨_, rfl⟩ | ⟨_, rfl⟩ | ⟨_, rfl⟩ | ⟨_, rfl⟩ | ⟨_, rfl⟩ | ⟨_, rfl⟩ :=
      decodeUop_eq_ok hj
    all_goals exact ⟨rfl, rfl⟩
  rw [exec_step_awake hs hle hj, completed, hj]
  dsimp only
  rw [hsame, ← hflags.1, ← hflags.2, ← State.advanceUpc_ledsEnabled _ s.upc, ← State.advanceUpc_borderVisible _ s.upc]

/-- A clock whose debug port and sequencer lead to `s2` and move no line is one in which nothing is left for them. -/
theorem clockWith_eq_idleClock {debug sequencer : State → Result} {c : ClockIn} {s s1 s2 : State}
    (hdebug : debug s = .next s1)
    (hseq : sequencer { s1 with adcIn := some (c.adcX, c.adcY) } = .next { s2 with adcIn := some (c.adcX, c.adcY) })
    (h0 : s2.line0 = s.line0) (h1 : s2.line1 = s.line1) :
    clockWith debug sequencer c s = idleClock c.withoutRequest s2 := by
  have htail : clockTail c.withoutRequest s2 = clockTail c s := by
    unfold clockTail
    rw [h0, h1]
    rfl
  have hwaiting : s2.waiting ++ c.withoutRequest.dbgReq.toList = s2.waiting := List.append_nil _
  unfold idleClock clockWith
  rw [htail, hdebug, andThen_next, exec_eq_effect Instr.noConfusion, andThen_next, effect, hseq, andThen_next,
    andThen_next, hwaiting]
  rfl

/-- The first clock of a micro-op of several clocks, beside the same clock with the whole `STEP` in it: what the latter
leaves is what the former leaves, committed. -/
theorem firstClock_completed {c : ClockIn} {s : State} (rest : List Input) (hr : c.rst = false)
    (hn : s.inProgress = none) (hq : c.seqStep = true) (hs : s.sleeping = false)
    (hlt : 1 < clocksOf s.upc c.opClocks) :
    ∃ u, runClock c s = .next u ∧
      clockWith (debugClock c) (exec .step) c { s with inputs := rest } =
        .next (completed (microOpBegun c s) { u with inputs := rest }) ∧
      u.cfg = s.cfg ∧ u.inputs = s.inputs ∧ u.inProgress = some (microOpBegun c s) ∧ u.sleeping = false ∧
      u.upc = s.upc := by
  have hu := upc_of_clocksOf hlt
  obtain ⟨_, answers, waiting, hdebug, _, rfl⟩ := debugClock_appends_answers c hn
  let s1 : State := { s with out := s.out ++ answers, waiting := waiting }
  let begun : State := { s1 with inProgress := some (microOpBegun c s) }
  obtain ⟨u, hidle, hcommitted, hsleeping, hupc⟩ :=
    idleClock_completed c.withoutRequest (microOpBegun c s) (s := begun) hs hu
  obtain ⟨hcfg, hinputs, hprogress⟩ := idleClock_model_fields hidle
  refine ⟨u, ?_, ?_, hcfg, hinputs, hprogress, hsleeping, hupc⟩
  · rw [runClock_eq_clockWith hr, sequencerPart_begins hn hq hs hlt]
    exact (clockWith_eq_idleClock (s2 := begun) hdebug rfl rfl rfl).trans hidle
  · let committed : State := { completed (microOpBegun c s) begun with inputs := rest }
    have hcommit : completed (microOpBegun c s) { s1 with inputs := rest } = committed :=
      (completed_withInputs (s := s1) hu s1.inProgress rest).trans
        (congrArg (fun v : State => { v with inputs := rest })
          (completed_withInputs (s := s1) hu (some (microOpBegun c s)) s1.inputs)).symm
    obtain ⟨h0, h1, _⟩ := completed_fields (m := microOpBegun c s) (s := begun) hs hu
    have hdebug' : debugClock c { s with inputs := rest } = .next { s1 with inputs := rest } := by
      rw [debugClock_withInputs, hdebug, andThen_next]
    have hstep : exec .step { s1 with inputs := rest, adcIn := some (c.adcX, c.adcY) } =
        .next { committed with adcIn := some (c.adcX, c.adcY) } := by
      rw [exec_step_eq_completed (m := microOpBegun c s)
        (s := { s1 with inputs := rest, adcIn := some (c.adcX, c.adcY) }) hn hs hu rfl rfl, ← hcommit]
      exact congrArg _ (completed_withAdcIn (s := { s1 with inputs := rest }) hu _)
    calc _ = idleClock c.withoutRequest committed := clockWith_eq_idleClock hdebug' hstep h0 h1
      _ = .next { completed (microOpBegun c s) u with inputs := rest } := by
        rw [idleClock_withInputs, hcommitted, andThen_next]
      _ = _ := congrArg _ (completed_withInputs (s := u) (hupc ▸ hu) u.inProgress rest).symm

/-- A micro-op over all its clocks is one `STEP` in the first and no sequencer in the others. -/
theorem runs_wholeMicroOp {s t : State} {c : ClockIn} {cs : List ClockIn} {rest : List Input}
    (hc : configValid s.cfg = true) (hi : s.inputs = .clock c :: (cs.map .clock ++ rest)) (hn : s.inProgress = none)
    (hs : s.sleeping = false) (hq : c.seqStep = true) (hr : c.rst = false) (hrs : ∀ d ∈ cs, d.rst = false)
    (hlen : cs.length + 1 = clocksOf s.upc c.opClocks) :
    Runs (cs.length + 1) s t ↔
      andThen (clockWith (debugClock c) (exec .step) c { s with inputs := rest }) (idleClocks cs) = .next t := by
  rw [runs_succ, step_of_clock hc hi]
  cases cs with
  | nil =>
    have hpart : sequencerPart c { s with inputs := rest } = exec .step := by
      rw [sequencerPart_single (s := { s with inputs := rest }) hn fun _ => .inr hlen.symm, hq]
      rfl
    rw [List.map_nil, List.nil_append, runClock_eq_clockWith hr, hpart]
    cases clockWith (debugClock c) (exec .step) c { s with inputs := rest } <;>
      simp [andThen, idleClocks, eq_comm]
  | cons d ds =>
    have hlt : 1 < clocksOf s.upc c.opClocks := by
      rw [← hlen]
      simp
    obtain ⟨u, hrun, hwhole, hcfg, hinputs, hprogress, hsleeping, hupc⟩ :=
      firstClock_completed (s := { s with inputs := (d :: ds).map .clock ++ rest }) rest hr hn hq hs hlt
    rw [hrun, hwhole, andThen_next]
    have hothers := runs_micro_op (t := t) (hcfg ▸ hc) hinputs hrs hprogress hlt
      ((Nat.add_comm _ _).trans hlen) hsleeping (hupc ▸ upc_of_clocksOf hlt)
    refine Iff.trans ?_ hothers
    simp only [Host.Outcome.next.injEq, exists_eq_left']

/-- Settles O53: a clock of each kind by its parts in order, and a whole micro-op by the commit that can be taken as done
in the first clock. -/
theorem clockIsItsTransactionsInOrder : Obligations.ClockIsItsTransactionsInOrder := by
  refine ⟨fun s c rest hc hi hr hn => ⟨fun hone => ?_, fun hq hs hlt => ⟨?_, ?_⟩⟩, fun s c m rest hc hi hr hm hlt => ?_,
    fun s t c cs rest hc hi hn hs hq hr hrs hlen => runs_wholeMicroOp hc hi hn hs hq hr hrs hlen⟩
  · exact (step_of_clock hc hi).trans (runClock_single hr hn hone)
  · exact (step_of_clock hc hi).trans (runClock_firstOfSeveral hr hn hq hs hlt)
  · obtain ⟨t, answers, hrun, hseq, hfb, hnext, hout, hsmp, hcur, hrecord, hanswers, hprogress⟩ :=
      runClock_firstOfSeveral_keeps (s := { s with inputs := rest }) hr hn hq hs hlt
    obtain ⟨hupc, hsleeping, _⟩ := sequencerRegs_eq_iff.mp hseq
    obtain ⟨hnext0, hnext1⟩ := Prod.mk.inj hnext
    obtain ⟨hout0, hout1⟩ := Prod.mk.inj hout
    obtain ⟨hsmpX, hsmpY⟩ := Prod.mk.inj hsmp
    obtain ⟨hcurX, hcurY⟩ := Prod.mk.inj hcur
    exact ⟨t, answers, (step_of_clock hc hi).trans hrun, hupc, hsleeping.trans hs, hfb, hnext0, hnext1, hout0, hout1,
      hsmpX, hsmpY, hcurX, hcurY, hrecord, hanswers, hprogress⟩
  · exact (step_of_clock hc hi).trans (runClock_inBetween hr hm hlt)

/-! ### A `SLEEP` or a wake-up in a clock with a tick (R351) -/

/-- A clock with a tick and a `STEP` that answers `v`, begun in no micro-op: the registers are `v`'s after the tick. -/
theorem runClock_step_and_tick {c : ClockIn} {s : State} (hr : c.rst = false) (hn : s.inProgress = none)
    (hq : c.seqStep = true) (htick : c.msTick = true)
    (hone : s.sleeping = true ∨ clocksOf s.upc c.opClocks = 1) :
    ∃ u, u.sequencerRegs = s.sequencerRegs ∧ u.samples = s.samples ∧
      ∀ v, exec .step u = .next v →
        ∃ t, runClock c s = .next t ∧ t.sequencerRegs = (v.tickBy 1).sequencerRegs ∧ t.samples = v.samples := by
  obtain ⟨answers, waiting, _, hrun⟩ := runClock_of_idle hr hn
  refine ⟨{ s with out := s.out ++ answers, waiting := waiting, adcIn := some (c.adcX, c.adcY) }, rfl, rfl,
    fun v hv => ⟨endOfClock c s v, ?_, ?_, ?_⟩⟩
  · rw [hrun, sequencerPart_single hn fun _ => hone]
    dsimp only
    rw [if_pos hq, hv, andThen_next, clockEnd_eq]
  · rw [endOfClock_sequencerRegs, if_pos htick]
  · exact endOfClock_keeps (fun _ _ => effect_samples Instr.noConfusion) (by simp [State.samples])
      (fun _ _ _ => rfl) c s v

/-- At the end of the ROM an awake `STEP` is `SLEEP`, with no advance (R262, R265). -/
theorem exec_step_at_nine {s : State} (hs : s.sleeping = false) (hu : s.upc = 9) :
    exec .step s = .next (effect .sleep s) := by
  rw [exec_step_awake (j := .sleep) hs (by simp [hu]) (by rw [hu]; rfl), State.advanceUpc, if_pos hu]

/-- Settles O54: the tick follows the `STEP`, so it counts down the sleep that has just begun, and ends the one that the
`STEP` still found. -/
theorem sleepAndTickInOneClock : Obligations.SleepAndTickInOneClock := by
  refine fun s c rest hc hi hr hq htick hn => ⟨fun hs hu => ?_, fun hs hcnt => ?_⟩
  · have hone : clocksOf s.upc c.opClocks = 1 := by simp [clocksOf, maxClocks, hu]
    obtain ⟨u, hregs, _, hclock⟩ :=
      runClock_step_and_tick (s := { s with inputs := rest }) hr hn hq htick (.inr hone)
    obtain ⟨hupc, hsleeping, _⟩ := sequencerRegs_eq_iff.mp hregs
    obtain ⟨t, ht, htregs, _⟩ := hclock _ (exec_step_at_nine (hsleeping.trans hs) (hupc.trans hu))
    obtain ⟨htupc, htsleeping, htcnt⟩ := sequencerRegs_eq_iff.mp htregs
    refine ⟨t, (step_of_clock hc hi).trans ht, htsleeping.trans ?_, htcnt.trans ?_, htupc.trans ?_⟩
    · simp [State.tickBy_sleeping, effect]
    · simp [State.tickBy_sleepCnt, effect]
    · simp [State.tickBy_upc, effect, hupc, hu]
  · obtain ⟨u, hregs, hsmp, hclock⟩ :=
      runClock_step_and_tick (s := { s with inputs := rest }) hr hn hq htick (.inl hs)
    obtain ⟨_, hsleeping, hucnt⟩ := sequencerRegs_eq_iff.mp hregs
    have hasleep : u.sleeping = true := hsleeping.trans hs
    have hlast : u.sleepCnt = 1 := hucnt.trans hcnt
    obtain ⟨t, ht, htregs, htsmp⟩ := hclock u (exec_step_asleep hasleep)
    obtain ⟨htupc, htsleeping, _⟩ := sequencerRegs_eq_iff.mp htregs
    obtain ⟨hx, hy⟩ := Prod.mk.inj (htsmp.trans hsmp)
    refine ⟨t, (step_of_clock hc hi).trans ht, htsleeping.trans ?_, htupc.trans ?_, hx, hy⟩
    · simp [State.tickBy_sleeping, hlast]
    · simp [State.tickBy_upc, hasleep, hlast]

/-! ### The synchroniser (R353) -/

/-- A clock without `rst` moves each level one place on. -/
theorem step_clock_synchronises {c : ClockIn} {s t : State} {rest : List Input} (hi : s.inputs = .clock c :: rest)
    (hr : c.rst = false) (h : step s = .next t) :
    t.inputs = rest ∧
      (t.line0.lvl = s.line0.sync2 ∧ t.line0.sync2 = s.line0.sync1 ∧ t.line0.sync1 = c.btn0) ∧
      (t.line1.lvl = s.line1.sync2 ∧ t.line1.sync2 = s.line1.sync1 ∧ t.line1.sync1 = c.btn1) := by
  rw [step_of_clock (step_cases h).1 hi] at h
  have hinputs := runClock_inputs h
  rw [runClock_eq hr] at h
  obtain ⟨s1, _, h⟩ := andThen_eq_next h
  obtain ⟨s2, _, h⟩ := andThen_eq_next h
  obtain ⟨s3, _, h⟩ := andThen_eq_next h
  rw [clockEnd_eq] at h
  cases h
  exact ⟨hinputs, ⟨endOfClock_lvl c _ s3 .line0, rfl, rfl⟩, endOfClock_lvl c _ s3 .line1, rfl, rfl⟩

/-- Settles O55: three clocks, each of which moves each level one place on. -/
theorem synchroniserTakesTwoClocks : Obligations.SynchroniserTakesTwoClocks := by
  intro s t c1 c2 c3 rest hi hr1 hr2 hr3 hrun
  obtain ⟨u, hu, hrun⟩ := runs_succ.mp hrun
  obtain ⟨v, hv, hrun⟩ := runs_succ.mp hrun
  obtain ⟨w, hw, hrun⟩ := runs_succ.mp hrun
  cases runs_zero.mp hrun
  obtain ⟨hui, ⟨_, _, hu0⟩, _, _, hu1⟩ := step_clock_synchronises hi hr1 hu
  obtain ⟨hvi, ⟨_, hv0, hv0'⟩, _, hv1, hv1'⟩ := step_clock_synchronises hui hr2 hv
  obtain ⟨_, ⟨hl0, hs0, hp0⟩, hl1, hs1, hp1⟩ := step_clock_synchronises hvi hr3 hw
  exact ⟨⟨hl0.trans (hv0.trans hu0), hs0.trans hv0', hp0⟩, hl1.trans (hv1.trans hu1), hs1.trans hv1', hp1⟩

/-! ### Nothing to take, and a clock with `rst` (R340) -/

/-- Settles O7: an empty run has no input to take (log entry 2). -/
theorem stepWithoutInputHolds : Obligations.StepWithoutInputHolds := fun _ => step_of_no_inputs

theorem runClock_of_rst {c : ClockIn} (hr : c.rst = true) (s : State) : runClock c s = .next s.doReset := if_pos hr

/-- Settles O56: both are `State.doReset`, which keeps `fb` and the record and drops the micro-op (log entry 17). -/
theorem resetClockPerformsNoTransaction : Obligations.ResetClockPerformsNoTransaction := by
  intro s c rest hc hi hr
  refine ⟨({ s with inputs := rest } : State).doReset, ?_, ?_, if_pos hr, rfl, rfl, rfl, rfl⟩
  · rw [step_of_clock hc hi, runClock_of_rst hr]
  · exact step_of_inputs (s := { s with inputs := .reset :: rest }) hc rfl

end Sys2Proof.Machine
end
